-- ==== Sys2Proof/Word.lean ====
section
/-! DEFINITION. The word types of DMXTX: every datum is one byte (R52), a command is one 32-bit descriptor (R72). -/

namespace Sys2Proof

/-- A channel value, a start code, a transported byte (BYTEW = 8, R8). -/
abbrev Byte := BitVec 8

/-- A command descriptor (DESCW = 32, R8, R72). -/
abbrev Descriptor := BitVec 32

end Sys2Proof
end

