-- ==== Sys2Proof/Config.lean ====
section
/-! DEFINITION. What one implementation of DMXTX fixes: the type of a serial profile (R39), the parameters of R8,
and the opaque constants for the two the spec leaves OPEN without a default (F_CLK, ERRW). -/

namespace Sys2Proof

/-- `bit_rate` of a serial profile: "standard enumerated rate or an arbitrary-integer custom rate" (R39), in bit/s. -/
inductive BitRate where
  | standard (n : Nat)
  | custom (n : Nat)
deriving DecidableEq, Repr

/-- `parity` of a serial profile (R39). -/
inductive Parity where
  | none
  | odd
  | even
deriving DecidableEq, Repr

/-- `stop_bits` of a serial profile (R39): 1 or 2. -/
inductive StopBits where
  | one
  | two
deriving DecidableEq, Repr

/-- `flow_control` of a serial profile (R39). -/
inductive FlowControl where
  | none
  | hardware
  | software
deriving DecidableEq, Repr

/-- A serial profile (R39): an "immutable value describing a line configuration". -/
structure SerialProfile where
  bitRate     : BitRate
  charSize    : Nat
  parity      : Parity
  stopBits    : StopBits
  flowControl : FlowControl
deriving DecidableEq, Repr

/-- `CFG_APPLY` (R188): what the transport does with accepted but unsent bytes when a configure arrives. -/
inductive CfgApply where
  | drain
  | immediate
  | unspecified
deriving DecidableEq, Repr

/-- The parameters of the step relation (R8, R15). `Machine.hardwired` is this hardware's choice of them; the step's
functions take them as an argument, so that another value can be injected (R38, R219). -/
structure Params where
  /-- `SETTLE_NS`, the settle duration in nanoseconds (R38). -/
  settleNs : Nat
  /-- `F_CLK`, the clock frequency in Hz (OPEN, D6). -/
  fClk     : Nat
  /-- `CFG_APPLY` (OPEN with default `unspecified`, D20). -/
  cfgApply : CfgApply
  /-- `ERRW`, the width of the transport's error information in its word formats (OPEN, D15). -/
  errw     : Nat
deriving DecidableEq, Repr

/-- One less than `F_CLK` in Hz: the spec leaves the clock frequency OPEN (D6), so nothing can evaluate it (entry 7). -/
opaque Config.fClkLessOne : Nat

/-- `F_CLK` in Hz, a positive number and otherwise unknown (entry 7). -/
def Config.fClk : Nat := Config.fClkLessOne + 1

/-- `ERRW`: OPEN (D15, entry 8). -/
opaque Config.errw : Nat

end Sys2Proof
end

