-- ==== Sys2Proof/Machine/State.lean ====
section
/-! DEFINITION. The whole state of the machine as plain data: the registers of R20, the channels of R70 as input lists,
the transport's state a model needs (R40), the turns of the agents (R14), the time and the trace (R12); and reset (R230). -/

namespace Sys2Proof.Machine

/-- `PHASE`, the sequencer's position (R24). Codes 6 and 7 "are never reached" and have no name here (entry 20). -/
inductive Phase where
  | idle
  | brkCfg
  | brkWr
  | settle
  | dataCfg
  | dataWr
deriving DecidableEq, Repr

/-- The two kinds of transport error (R200). -/
inductive ErrorKind where
  | configurationError
  | writeError
deriving DecidableEq, Repr

/-- A transport error `e = (kind, info)` (R12). `info` is the opaque error information, which nothing inspects (R83);
its width ERRW is OPEN, so here it is any natural number (entry 8). -/
structure TransportError where
  kind : ErrorKind
  info : Nat
deriving DecidableEq, Repr

/-- The transport's answer to one request (R101): `ok`, or `err(e)` with any `e`. -/
inductive Answer where
  | ok
  | err (e : TransportError)
deriving DecidableEq, Repr

/-- The result of a command (R82): `OK`, the transport's own error, or `ILLEGAL`. -/
inductive Response where
  | ok
  | err (e : TransportError)
  | illegal
deriving DecidableEq, Repr

/-- The event alphabet (R12). `accept` carries the descriptor and its payload, which Accept takes as one step (R75). -/
inductive Event where
  | accept (d : Descriptor) (payload : List Byte)
  | cfgReq (p : SerialProfile)
  | cfgRsp (a : Answer)
  | wrReq (bs : List Byte)
  | wrRsp (a : Answer)
  | settleStart
  | settleEnd
  | resp (r : Response)
  | reset
deriving DecidableEq, Repr

/-- What one step is given to (R14): which agent moves now (entry 1). -/
inductive Turn where
  /-- The one agent that PHASE and WAITRSP enable makes its move. -/
  | go
  /-- A clock cycle in which none of them moves: the host waits, the transport is slow, a request is delayed, or the
  settle wait runs over (R32). -/
  | hold
  /-- A cycle in which `rst` is high (R230), one clock cycle long (entry 25). -/
  | rst
  /-- The transport takes one byte of the outstanding write into TXQ before it answers (R86, R107). -/
  | takeByte
  /-- The transport begins to send the oldest byte of TXQ (R187). -/
  | startChar
  /-- The character in progress is electrically complete (R40). -/
  | finishChar
  /-- The host's next descriptor is taken off CMD, its payload still to be transferred (R75, entry 27). -/
  | offer
deriving DecidableEq, Repr

/-- A byte of TXQ with the profile it goes out at (R109); `none` where nothing may be assumed about it (R188, R104). -/
structure QueuedByte where
  prof : Option SerialProfile
  byte : Byte
deriving DecidableEq, Repr

/-- A character in progress: the cycle its start bit began, and the cycle in which a configure cut it, if one has (R189). -/
structure Started where
  start : Nat
  cutAt : Option Nat
deriving DecidableEq, Repr

/-- A character sent on the line (R187): the cycle its start bit began, the profile it began with if determined, its byte,
the cycle in which a configure cut it if one did (R189), and the cycle in which the transport was done with it. -/
structure SentChar where
  start : Nat
  prof  : Option SerialProfile
  byte  : Byte
  cutAt : Option Nat
  ended : Nat
deriving DecidableEq, Repr

/-- The transport's state (R40), which DMXTX changes and cannot read. -/
structure Transport where
  /-- `LINEPROF`: the profile last applied by a successful configure; `none` is the spec's "unknown". -/
  lineProf : Option SerialProfile
  /-- The bytes of the outstanding write the transport has not yet taken (R86). -/
  pend     : List Byte
  /-- `TXQ`: the bytes accepted and not yet electrically complete, oldest first (R40). -/
  txq      : List QueuedByte
  /-- The character in progress, of the oldest byte of TXQ, if the transport has begun it. -/
  began    : Option Started
  /-- The characters completed on the line, oldest first. -/
  wire     : List SentChar
deriving DecidableEq, Repr

/-- An Accept whose descriptor has been taken off CMD and whose payload is not yet there: the descriptor, and the payload
bytes taken so far ("the payload still to be consumed", R15, R75, entry 11). -/
structure Accepting where
  desc : Descriptor
  got  : List Byte
deriving DecidableEq, Repr

/-- The frame buffer's contents: the bytes written so far, by rising index (R50, entry 4). -/
abbrev Memory := List Host.Cell

/-- The complete state (R20), with the environment a model needs (R15). -/
structure State where
  /-- `PHASE`, the program counter of DMXTX (R24). -/
  phase   : Phase
  /-- `WAITRSP`: a transport request is outstanding (R25). -/
  waitRsp : Bool
  /-- `OP`, the opcode of the command in progress (R21). -/
  op      : BitVec 3
  /-- `SC`, the start code of the command in progress (R21). -/
  sc      : Byte
  /-- `LEN`, the payload length of the command in progress (R21). -/
  len     : BitVec 16
  /-- `PB`, the payload of the command in progress (R45). -/
  pb      : List Byte
  /-- `FB[0..512]`, the frame buffer (R22). -/
  fb      : Memory
  /-- `FLEN`, the number of valid bytes in FB (R23). -/
  flen    : BitVec 10
  /-- `TMR`, the cycles elapsed in the settle phase (R34, entry 10). -/
  tmr     : Nat
  /-- CMD: the descriptors the host presents, oldest first (R70). -/
  cmd     : List Descriptor
  /-- PAY: the payload bytes the host supplies, oldest first (R75). -/
  pay     : List Byte
  /-- The Accept that waits for its payload, if one does (R75, R246). -/
  taking  : Option Accepting
  /-- TRSP: the transport's answers to the requests to come, oldest first (R87, R101). -/
  trsp    : List Answer
  /-- The turns to come; with none listed the enabled agent moves (entry 1). -/
  sched   : List Turn
  /-- The time in clock cycles (R12). -/
  now     : Nat
  /-- The trace so far, oldest event first, each with its time (R12). -/
  trace   : List (Nat × Event)
  /-- The transport's state (R40). -/
  line    : Transport
deriving DecidableEq, Repr

/-- Why the machine stops. Each is raised only in a state that no run from reset reaches, and each is safe: the model
stops where the spec gives no value or no row to go on with. -/
inductive Fault where
  /-- Raised by a read of FB at an index above 512, which does not exist (R50, R56). Safe. -/
  | frameIndex (i : Nat)
  /-- Raised by a read of an FB byte that nothing has written: "a model should make reading one a fault" (R19). Safe. -/
  | frameUnwritten (i : Nat)
  /-- Raised by the data write of an opcode that has no transmit data: TXD is "undefined for SEND_BREAK" (R23). Safe. -/
  | noTransmitData (op : BitVec 3)
  /-- Raised by ISSUE in a phase for which R27 has no row. Safe. -/
  | noRequest (p : Phase)
  /-- Raised by advance() for a phase and opcode for which R29 has no row. Safe. -/
  | noSuccessor (p : Phase) (op : BitVec 3)
deriving DecidableEq, Repr

/-- Why an instruction has no meaning. -/
inductive Refusal where
  /-- Raised by an arm of `exec` that has no meaning yet. Safe. No arm raises it. -/
  | notModelled (mnemonic : String)
deriving DecidableEq, Repr

/-- The transport as DMXTX's reset finds it: its line profile is unknown (R40, R232) and it holds no request (R19,
P-QUIET); that it holds no byte either is the model's choice (entry 22). -/
def Transport.atReset : Transport :=
  { lineProf := none, pend := [], txq := [], began := none, wire := [] }

/-- The machine right after reset (R230): PHASE, WAITRSP and TMR as the spec gives them; the registers it leaves
unspecified at the values of entry 3; FB with nothing listed (entry 4); no input presented yet (entry 22). -/
def State.reset : State :=
  { phase := .idle, waitRsp := false, op := 0, sc := 0, len := 0, pb := [], fb := [], flen := 0, tmr := 0,
    cmd := [], pay := [], taking := none, trsp := [], sched := [], now := 0, trace := [], line := Transport.atReset }

end Sys2Proof.Machine
end

