-- ==== Sys2Proof/Machine/Constants.lean ====
section
/-! DEFINITION. The hardwired constants (R8, R36 to R38), the protocol's minimums (R191) and the arithmetic of the clock (D6, R12, R184). -/

namespace Sys2Proof.Machine

/-- The codes of PHASE (R24). -/
def Phase.code : Phase → BitVec 3
  | .idle => 0
  | .brkCfg => 1
  | .brkWr => 2
  | .settle => 3
  | .dataCfg => 4
  | .dataWr => 5

/-- `MAXCH`, the greatest number of channel bytes in a frame (R8). -/
def maxCh : Nat := 512

/-- `FBSIZE`, the capacity of the frame buffer in bytes (R8). -/
def fbSize : Nat := maxCh + 1

/-- `DEFAULT_SC`, the start code of "normal data" (R8). -/
def defaultStartCode : Byte := 0x00

/-- `BREAK_BYTE`, "a single zero byte" (R8). -/
def breakByte : Byte := 0x00

/-- `BREAK_PROFILE`, hardwired (R36). -/
def breakProfile : SerialProfile :=
  { bitRate := .standard 57600, charSize := 7, parity := .none, stopBits := .one, flowControl := .none }

/-- `DATA_PROFILE`, hardwired (R37). -/
def dataProfile : SerialProfile :=
  { bitRate := .custom 250000, charSize := 8, parity := .none, stopBits := .two, flowControl := .none }

/-- The parameters of this hardware: SETTLE_NS at its value (R38), CFG_APPLY at its default (R188), F_CLK and ERRW open. -/
def hardwired : Params :=
  { settleNs := 136000, fClk := Config.fClk, cfgApply := .unspecified, errw := Config.errw }

/-- The protocol minimum of the break, "break ≥92 us", in nanoseconds (R191). -/
def minBreakNs : Rat := 92000

/-- The protocol minimum of the mark-after-break, "mark-after-break ≥8 us", in nanoseconds (R191). -/
def minMarkNs : Rat := 8000

/-- `SETTLE_CYCLES = ceil(SETTLE_NS * F_CLK / 10^9)` (R8, D6). -/
def settleCycles (c : Params) : Nat := (c.settleNs * c.fClk + (10 ^ 9 - 1)) / 10 ^ 9

/-- The time of a cycle count in nanoseconds: "an integer number of clock cycles multiplied by the clock period" (R12). -/
def timeNs (c : Params) (cycles : Nat) : Rat := (cycles : Rat) * 10 ^ 9 / (c.fClk : Rat)

/-- `rate(p)`, the number in `p.bit_rate`, in bit/s (R184). -/
def bitsPerSecond (p : SerialProfile) : Nat :=
  match p.bitRate with
  | .standard n => n
  | .custom n => n

end Sys2Proof.Machine
end

