-- ==== Sys2Proof/Machine/Line.lean ====
section
/-! DEFINITION. What bytes become on the serial line (R182 to R193): the framing of one character, its exact duration,
the waveform of a line that carries given characters and is high else, and the wire contract (R191). The framing is general knowledge the spec adopts (R183, G1, entry 15). -/

namespace Sys2Proof.Machine

/-- The level of the line (R182): the break is low, the mark is high. -/
inductive Level where
  | low
  | high
deriving DecidableEq, Repr

/-- The level of one bit: "low for 0 and high for 1" (R183). -/
def levelOfBit (b : Bool) : Level := if b then .high else .low

/-- The data bits of a byte, least significant first, as many as the profile's character has (R183). -/
def dataBits (p : SerialProfile) (b : Byte) : List Bool := (List.range p.charSize).map b.getLsbD

/-- The parity bit, if the profile has one: even parity makes the number of ones even (entry 15). -/
def parityBits (p : SerialProfile) (b : Byte) : List Bool :=
  match p.parity with
  | .none => []
  | .even => [(dataBits p b).foldl Bool.xor false]
  | .odd => [!(dataBits p b).foldl Bool.xor false]

/-- How many stop bits a profile has. -/
def stopBitCount (p : SerialProfile) : Nat :=
  match p.stopBits with
  | .one => 1
  | .two => 2

/-- One character on the line, a level per bit time: start bit low, data bits, parity bit if any, stop bits high (R183). -/
def charLevels (p : SerialProfile) (b : Byte) : List Level :=
  .low :: ((dataBits p b ++ parityBits p b).map levelOfBit ++ List.replicate (stopBitCount p) .high)

/-- How many bit times a character at profile `p` lasts (R183). -/
def charBits (p : SerialProfile) : Nat :=
  1 + p.charSize + (if p.parity = .none then 0 else 1) + stopBitCount p

/-- `T(p) = 10^9 / rate(p)` nanoseconds (R184). -/
def bitTimeNs (p : SerialProfile) : Rat := 10 ^ 9 / (bitsPerSecond p : Rat)

/-- The duration of one character at profile `p` in nanoseconds (R185, R190). -/
def charNs (p : SerialProfile) : Rat := (charBits p : Rat) * bitTimeNs p

/-- How many bit times the line is low from the start bit on, before it first goes high. -/
def lowBits (p : SerialProfile) (b : Byte) : Nat := ((charLevels p b).takeWhile (· = .low)).length

/-- The duration of the low time a byte begins with, in nanoseconds: for `0x00` at BREAK_PROFILE, the break (R185). -/
def lowNs (p : SerialProfile) (b : Byte) : Rat := (lowBits p b : Rat) * bitTimeNs p

/-- The high time that closes a character: its stop bits, in nanoseconds (R185). -/
def stopNs (p : SerialProfile) : Rat := (stopBitCount p : Rat) * bitTimeNs p

/-- A stretch of the line: its level, `none` where nothing may be assumed of it (R188, R189), from when on, how long. -/
structure Segment where
  level  : Option Level
  fromNs : Rat
  lenNs  : Rat
deriving DecidableEq, Repr

/-- The line at one level (or unknown) from `t` to `u`: nothing where that is no time. -/
def stretch (l : Option Level) (t u : Rat) : List Segment :=
  if t < u then [{ level := l, fromNs := t, lenNs := u - t }] else []

/-- What of a waveform lies before time `u`. -/
def cutOff (u : Rat) : List Segment → List Segment
  | [] => []
  | x :: xs => if x.fromNs < u then { x with lenNs := min x.lenNs (u - x.fromNs) } :: cutOff u xs else cutOff u xs

/-- The stretches of one character whose start bit begins at time `t`, one per bit (R183). -/
def charSegments (p : SerialProfile) (t : Rat) : List Level → List Segment
  | [] => []
  | l :: ls => { level := some l, fromNs := t, lenNs := bitTimeNs p } :: charSegments p (t + bitTimeNs p) ls

/-- The line during one character: the bits of its profile (TA3); up to a cut those bits and then whatever the transport
makes of it (R189); nothing known where its profile is not determined (R188). -/
def charWave (c : Params) (x : SentChar) : List Segment :=
  match x.prof, x.cutAt with
  | some p, none => charSegments p (timeNs c x.start) (charLevels p x.byte)
  | some p, some k =>
    cutOff (timeNs c k) (charSegments p (timeNs c x.start) (charLevels p x.byte)) ++
      stretch none (timeNs c k) (timeNs c x.ended)
  | none, _ => stretch none (timeNs c x.start) (timeNs c x.ended)

/-- When a character is over: after its bit times, or when the transport was done with it. -/
def charEndNs (c : Params) (x : SentChar) : Rat :=
  match x.prof, x.cutAt with
  | some p, none => timeNs c x.start + charNs p
  | some _, some _ => timeNs c x.ended
  | none, _ => timeNs c x.ended

/-- The line from time `t` to `u` with these characters on it: "a line with nothing to send rests at the high (mark) level"
(R182, TA2), before, between and after them (R194). -/
def lineFrom (c : Params) (t : Rat) (chars : List SentChar) (u : Rat) : List Segment :=
  match chars with
  | [] => stretch (some .high) t u
  | x :: xs => stretch (some .high) t (timeNs c x.start) ++ (charWave c x ++ lineFrom c (charEndNs c x) xs u)

/-- The level of the line at time `t` on a waveform, where it is known. -/
def levelAt (w : List Segment) (t : Rat) : Option Level :=
  (w.find? (fun x => decide (x.fromNs ≤ t ∧ t < x.fromNs + x.lenNs))).bind Segment.level

/-- A break of `breakNs` and a mark-after-break of `markNs` meet the protocol (R191): the wire contract is stated "against
these two numbers only", so neither has a maximum, and no time between characters or packets is bounded. -/
def meetsMinimums (breakNs markNs : Rat) : Bool := decide (minBreakNs ≤ breakNs ∧ minMarkNs ≤ markNs)

/-- The wire contract (R181, R191) on a waveform with a break that begins at time `t` and its first data character at time
`u`: the line is low from `t` to a time `m` and then high to `u`, and both durations meet the minimums. -/
def wireContract (w : List Segment) (t u : Rat) : Prop :=
  ∃ m, (∀ v, t ≤ v → v < m → levelAt w v = some .low) ∧ (∀ v, m ≤ v → v < u → levelAt w v = some .high) ∧
    meetsMinimums (m - t) (u - m) = true

/-- The least duration of one packet on the wire, from the break's start bit to the end of the last stop bit, for `n`
data bytes (R193). -/
def packetNs (n : Nat) : Rat := charNs breakProfile + (n : Rat) * charNs dataProfile

/-- Whether a character at profile `p` begun in cycle `t` can be complete in cycle `now` (TA3): its bit times have passed.
Cross-multiplied: `(now - t) / F_CLK >= charBits p / rate(p)`. -/
def charElapsed (c : Params) (p : SerialProfile) (t now : Nat) : Bool :=
  decide (charBits p * c.fClk ≤ (now - t) * bitsPerSecond p)

end Sys2Proof.Machine
end

