-- ==== Sys2Proof/Machine/Environment.lean ====
section
/-! DEFINITION. The transport as a model of DMXTX must take it (R40, R100 to R109, R186, R188): its line profile, its send
buffer TXQ, and the characters it puts on the line. Nothing here is read by DMXTX. -/

namespace Sys2Proof.Machine

/-- A queued byte of whose profile nothing may be assumed (R188). -/
def QueuedByte.undetermined (q : QueuedByte) : QueuedByte := { q with prof := none }

/-- Whether the transport can be done with a character: its bit times have passed (TA3); or a configure has cut it, or its
profile is not determined, and then only the transport knows. -/
def charMayEnd (c : Params) (prof : Option SerialProfile) (b : Started) (now : Nat) : Bool :=
  match prof, b.cutAt with
  | some p, none => charElapsed c p b.start now
  | some _, some _ => true
  | none, _ => true

/-- Change the queued bytes the transport has not begun to send. -/
def Transport.mapUnsent (f : QueuedByte → QueuedByte) (t : Transport) : List QueuedByte :=
  match t.began, t.txq with
  | some _, q :: qs => q :: qs.map f
  | some _, [] => []
  | none, qs => qs.map f

/-- A configure that applies at once cuts the character in progress, unless it is complete or cut already (R188, R189). -/
def Transport.cutCharacter (c : Params) (now : Nat) (t : Transport) : Option Started :=
  match t.began, t.txq with
  | some b, q :: _ => if charMayEnd c q.prof b now then some b else some { b with cutAt := some now }
  | b, _ => b

/-- A configure arrives (R188). With `drain` it waits for the send buffer to empty, so every byte keeps its profile (TA4).
With `immediate` the character in progress is cut, and what the bytes not yet begun go out at is the transport's until the
answer. With `unspecified` nothing is assumed of any accepted byte (entry 9). -/
def Transport.configureArrives (c : Params) (now : Nat) (t : Transport) : Transport :=
  match c.cfgApply with
  | .drain => t
  | .immediate => { t with began := t.cutCharacter c now, txq := t.mapUnsent QueuedByte.undetermined }
  | .unspecified => { t with txq := t.txq.map QueuedByte.undetermined }

/-- With `immediate`, an applied profile holds for the bytes still queued (R188). -/
def Transport.applyToQueue (p : SerialProfile) (t : Transport) : List QueuedByte :=
  t.mapUnsent (fun x => { x with prof := some p })

/-- The configure is answered (R103, R104): on `ok`, `LINEPROF <- p`; on `err`, LINEPROF is unknown. -/
def Transport.configureAnswered (c : Params) (p : SerialProfile) (a : Answer) (t : Transport) : Transport :=
  match a, c.cfgApply with
  | .ok, .immediate => { t with lineProf := some p, txq := t.applyToQueue p }
  | .ok, .drain => { t with lineProf := some p }
  | .ok, .unspecified => { t with lineProf := some p }
  | .err _, _ => { t with lineProf := none }

/-- A write arrives: its bytes are the transport's to take (R86, R106). -/
def Transport.writeArrives (bs : List Byte) (t : Transport) : Transport := { t with pend := bs }

/-- A byte taken into TXQ is to be sent at the profile in force now (TA1, R109). -/
def Transport.queued (t : Transport) (b : Byte) : QueuedByte := { prof := t.lineProf, byte := b }

/-- The write is answered (R86, R107): on `ok` all its bytes have been taken; on `err` those taken so far, "any prefix",
stay taken and the rest are dropped (U4). -/
def Transport.writeAnswered (a : Answer) (t : Transport) : Transport :=
  match a with
  | .ok => { t with txq := t.txq ++ t.pend.map t.queued, pend := [] }
  | .err _ => { t with pend := [] }

/-- The transport takes one byte of the outstanding write before answering (R107). -/
def Transport.takeByte (t : Transport) : Transport :=
  match t.pend with
  | [] => t
  | b :: bs => { t with txq := t.txq ++ [t.queued b], pend := bs }

/-- The transport begins the oldest queued byte, if none is in progress (TA3). -/
def Transport.startChar (now : Nat) (t : Transport) : Transport :=
  match t.began, t.txq with
  | none, _ :: _ => { t with began := some { start := now, cutAt := none } }
  | _, _ => t

/-- The character of queued byte `q`, begun as `b` says, as it stands on the line at cycle `now`. -/
def QueuedByte.sent (q : QueuedByte) (b : Started) (now : Nat) : SentChar :=
  { start := b.start, prof := q.prof, byte := q.byte, cutAt := b.cutAt, ended := now }

/-- The character in progress is complete: it leaves TXQ and stands on the wire (R40). -/
def Transport.finishChar (c : Params) (now : Nat) (t : Transport) : Transport :=
  match t.began, t.txq with
  | some b, q :: qs =>
    if charMayEnd c q.prof b now then { t with txq := qs, began := none, wire := t.wire ++ [q.sent b now] } else t
  | _, _ => t

/-! ### The line (R182, R186) -/

/-- The characters on the line up to cycle `now`, oldest first: those completed, then the one in progress. -/
def Transport.characters (t : Transport) (now : Nat) : List SentChar :=
  match t.began, t.txq with
  | some b, q :: _ => t.wire ++ [q.sent b now]
  | _, _ => t.wire

/-- The line from time 0 to the end of cycle count `now`: the characters, and high between them, before and after (TA2). -/
def Transport.waveform (c : Params) (now : Nat) (t : Transport) : List Segment :=
  cutOff (timeNs c now) (lineFrom c 0 (t.characters now) (timeNs c now))

end Sys2Proof.Machine
end

