-- ==== Sys2Proof/Machine/Flags.lean ====
section
/-! DEFINITION. DMXTX has no condition codes and no sticky flags; its one flag-like observable is BUSY (R35). -/

namespace Sys2Proof.Machine

/-- `BUSY = (PHASE != IDLE)` (R35). -/
def State.busy (s : State) : Bool := decide (s.phase ≠ .idle)

/-- `CMD.ready = (PHASE = IDLE)`, that is `not BUSY` (R71). -/
def State.cmdReady (s : State) : Bool := !s.busy

/-- Whether an Accept can begin: PHASE is IDLE (R26), and no descriptor taken before still has payload to be consumed (R75:
consuming it "keeps `PAY` in step with `CMD`"; entry 11). -/
def State.acceptReady (s : State) : Bool := s.cmdReady && s.taking.isNone

end Sys2Proof.Machine
end

