-- ==== Sys2Proof/Syntax.lean ====
section
/-! DEFINITION. The instruction set of DMXTX is its command set: five host commands, one level, no extension (R3). -/

namespace Sys2Proof

/-- One constructor per row of the opcode table (R73). `len` is the number of payload bytes that follow on PAY, "a
natural number 0 to 65,535" (R72); the bytes themselves are not in the descriptor. -/
inductive Instr where
  /-- `SEND_BREAK`: no operand (R120). -/
  | sendBreak
  /-- `SEND_RAW_DATA bytes` (R124). -/
  | sendRawData (len : Nat)
  /-- `SEND_RAW_PACKET data` (R140). -/
  | sendRawPacket (len : Nat)
  /-- `SEND_PACKET channels` (R160). -/
  | sendPacket (len : Nat)
  /-- `SEND_ALT_PACKET channels, start_code` (R161). -/
  | sendAltPacket (len : Nat) (sc : Byte)
deriving DecidableEq, Repr

end Sys2Proof
end

