-- ==== Sys2Proof/WellFormed.lean ====
section
/-! DEFINITION. Which terms of `Instr` are commands: the payload length must fit the 16-bit LEN field (R76). -/

namespace Sys2Proof

/-- `MAXLEN`, the largest payload a descriptor can announce (R8). -/
abbrev maxLen : Nat := 65535

/-- A command is well formed when its length can be presented: "a longer sequence cannot be presented at all" (R76).
A start code is any byte, so it needs no check (R77). -/
def Instr.wellFormed : Instr → Bool
  | .sendBreak => true
  | .sendRawData len => decide (len ≤ maxLen)
  | .sendRawPacket len => decide (len ≤ maxLen)
  | .sendPacket len => decide (len ≤ maxLen)
  | .sendAltPacket len _ => decide (len ≤ maxLen)

end Sys2Proof
end

