-- ==== Sys2Proof/Decode.lean ====
section
/-! DEFINITION. The descriptor format (R72 to R74), the total decoder (R79), and the encoder. -/

namespace Sys2Proof

/-- `d[2:0]`, the opcode (R72). -/
def Descriptor.op (d : Descriptor) : BitVec 3 := d.extractLsb' 0 3

/-- `d[7:3]`, reserved, must be 0 (R72). -/
def Descriptor.rsv (d : Descriptor) : BitVec 5 := d.extractLsb' 3 5

/-- `d[15:8]`, the start code (R72). -/
def Descriptor.sc (d : Descriptor) : Byte := d.extractLsb' 8 8

/-- `d[31:16]`, the number of payload bytes (R72). -/
def Descriptor.len (d : Descriptor) : BitVec 16 := d.extractLsb' 16 16

/-- Why a descriptor is ILLEGAL: the four causes of R79. -/
inductive DecodeError where
  /-- `OP` is 0, 6 or 7. -/
  | reservedOpcode (op : BitVec 3)
  /-- `RSV != 0`. -/
  | reservedBits (rsv : BitVec 5)
  /-- `SC != 0` and `OP != 5`. -/
  | startCodeNotZero (sc : Byte)
  /-- `LEN != 0` and `OP = 1`. -/
  | lengthNotZero (len : BitVec 16)
deriving DecidableEq, Repr

/-- The commands whose start-code field must be zero (R72): every command but `SEND_ALT_PACKET`. -/
def needZeroStartCode (d : Descriptor) (i : Instr) : Except DecodeError Instr :=
  if d.sc = 0 then .ok i else .error (.startCodeNotZero d.sc)

/-- `SEND_BREAK` has no payload: its LEN field must be zero (R72, R79). -/
def needZeroLength (d : Descriptor) (i : Instr) : Except DecodeError Instr :=
  if d.len = 0 then .ok i else .error (.lengthNotZero d.len)

/-- The command an opcode names, with the checks of its row (R73, R74). -/
def decodeByOpcode (d : Descriptor) : Except DecodeError Instr :=
  match d.op.toNat with
  | 1 => (needZeroStartCode d .sendBreak).bind (needZeroLength d)
  | 2 => needZeroStartCode d (.sendRawData d.len.toNat)
  | 3 => needZeroStartCode d (.sendRawPacket d.len.toNat)
  | 4 => needZeroStartCode d (.sendPacket d.len.toNat)
  | 5 => .ok (.sendAltPacket d.len.toNat d.sc)
  | _ => .error (.reservedOpcode d.op)

/-- The decoder: total, and every descriptor that matches no row of R74 is ILLEGAL, with its cause (R79). -/
def decode (d : Descriptor) : Except DecodeError Instr :=
  if d.rsv = 0 then decodeByOpcode d else .error (.reservedBits d.rsv)

/-- The opcode of a command (R73). -/
def Instr.opcode : Instr → BitVec 3
  | .sendBreak => 1
  | .sendRawData _ => 2
  | .sendRawPacket _ => 3
  | .sendPacket _ => 4
  | .sendAltPacket _ _ => 5

/-- The number of payload bytes a command announces. -/
def Instr.payloadLen : Instr → Nat
  | .sendBreak => 0
  | .sendRawData len => len
  | .sendRawPacket len => len
  | .sendPacket len => len
  | .sendAltPacket len _ => len

/-- The start-code field of a command: 0 in every command but `SEND_ALT_PACKET` (R72). -/
def Instr.startCode : Instr → Byte
  | .sendBreak => 0
  | .sendRawData _ => 0
  | .sendRawPacket _ => 0
  | .sendPacket _ => 0
  | .sendAltPacket _ sc => sc

/-- The encoder, from the format of R72: "each is `LEN << 16 | SC << 8 | OP`" (R90), the RSV field zero. -/
def encode (i : Instr) : Descriptor :=
  BitVec.ofNat 32 (i.payloadLen * 2 ^ 16 + i.startCode.toNat * 2 ^ 8 + i.opcode.toNat)

/-- The `mask` of a command's row (R74). -/
def Instr.rowMask : Instr → Descriptor
  | .sendBreak => 0xFFFFFFFF
  | .sendRawData _ => 0x0000FFFF
  | .sendRawPacket _ => 0x0000FFFF
  | .sendPacket _ => 0x0000FFFF
  | .sendAltPacket _ _ => 0x000000FF

/-- The `match` of a command's row (R74). -/
def Instr.rowMatch : Instr → Descriptor
  | .sendBreak => 0x00000001
  | .sendRawData _ => 0x00000002
  | .sendRawPacket _ => 0x00000003
  | .sendPacket _ => 0x00000004
  | .sendAltPacket _ _ => 0x00000005

/-- The instruction the decoder reads from a table row's word. A descriptor is one 32-bit word and has no byte order
(R54); bits at and above `nbits` are 0. -/
def decodeTableWord (nbits w : Nat) : Option Instr :=
  match decode (BitVec.ofNat 32 (w % 2 ^ nbits)) with
  | .ok i => some i
  | .error _ => none

end Sys2Proof
end

