-- ==== Sys2Proof/Machine/Ops.lean ====
section
/-! DEFINITION. The named operations over the frame buffer, the trace and the time; the two errors (R200), each as one
shared operation; and the reset event (R230). -/

namespace Sys2Proof.Machine

/-! ### The frame buffer (R50, R51, R56) -/

/-- The canonical form of the frame buffer: indices strictly rising, all of them indices of FB (R50). -/
def Memory.wf (m : Memory) : Bool :=
  decide ((m.map Prod.fst).Pairwise (· < ·)) && m.all (fun x => decide (x.1 < fbSize))

/-- What is stored at index `i`, if anything has been written there (entry 4). -/
def Memory.stored (m : Memory) (i : Nat) : Option Byte := m.lookup i

/-- `FB[i]` (R11): a fault at an index that does not exist, or for a byte nothing has written (R19). -/
def Memory.read (m : Memory) (i : Nat) : Except Fault Byte :=
  if i < fbSize then
    match m.stored i with
    | some b => .ok b
    | none => .error (.frameUnwritten i)
  else .error (.frameIndex i)

/-- `MemRead(i, n)`: `n` consecutive bytes, lowest index first (R11). -/
def Memory.readRun (m : Memory) (i : Nat) : Nat → Except Fault (List Byte)
  | 0 => .ok []
  | n + 1 =>
    match m.read i, m.readRun (i + 1) n with
    | .ok b, .ok bs => .ok (b :: bs)
    | .error f, _ => .error f
    | .ok _, .error f => .error f

/-- The cells of a run of bytes from index `i` on. -/
def Memory.cells (i : Nat) : List Byte → Memory
  | [] => []
  | b :: bs => (i, b) :: Memory.cells (i + 1) bs

/-- `MemWrite(i, n, v)`: `FB[i+k] <- v[k]` (R11). The one writer of FB stays below index 513 by construction (R56). -/
def Memory.writeRun (m : Memory) (i : Nat) (bs : List Byte) : Memory :=
  m.filter (fun x => decide (x.1 < i)) ++ (Memory.cells i bs ++ m.filter (fun x => decide (i + bs.length ≤ x.1)))

/-! ### Trace and time (R12, R30) -/

/-- `pc <- target` is `PHASE <- target` (R11). -/
def gotoPhase (p : Phase) (s : State) : State := { s with phase := p }

/-- Record an event at the present time (R12). -/
def emit (e : Event) (s : State) : State := { s with trace := s.trace ++ [(s.now, e)] }

/-- The events of a trace without their times. -/
def State.events (s : State) : List Event := s.trace.map Prod.snd

/-- One clock cycle in which no message moves. In SETTLE it is TICK, `TMR <- TMR + 1` (R30); elsewhere TMR is dead (R34). -/
def passCycle (s : State) : State :=
  { s with now := s.now + 1, tmr := if s.phase = .settle then s.tmr + 1 else s.tmr }

/-! ### Responses and errors (R200 to R208) -/

/-- `Resp(r)` of a command in progress: emit the response and end the command (R11). -/
def respond (r : Response) (s : State) : State := gotoPhase .idle (emit (.resp r) s)

/-- `raise TransportError(e)`: WAITRSP cleared, the error passed on unchanged, PHASE back to IDLE, nothing else (R206).
It is the machine's only abort; there is no handler and no return instruction, the next Accept is the return (R212). -/
def raiseTransportError (e : TransportError) (s : State) : State :=
  respond (.err e) { s with waitRsp := false }

/-- `raise IllegalCommand`: the descriptor and its LEN payload bytes are consumed, `Resp(ILLEGAL)` is emitted, PHASE
stays IDLE and no register changes (R203, R79). -/
def raiseIllegalCommand (d : Descriptor) (s : State) : State :=
  emit (.resp .illegal)
    (emit (.accept d (s.pay.take d.len.toNat))
      { s with cmd := s.cmd.tail, pay := s.pay.drop d.len.toNat })

/-! ### Reset (R230 to R233) -/

/-- The reset event, one cycle with `rst` high: PHASE, WAITRSP and TMR, "and whatever else is enabled in that cycle" (R230).
The command in progress is abandoned without a response and an answer still to come for its request is dropped (R231), the
transport's request and status channels being reset with DMXTX (R233, entry 6); an Accept that waits for its payload ends
(R246). The transport's queue and the line are not reached, and LINEPROF is unknown from then on (R232, R40, entry 24).
The registers the spec leaves unspecified stay as they are (entry 5). That the cycle takes one clock cycle is entry 25,
that what the host presents in it stays on CMD and PAY is entry 26: both the model's own. -/
def resetPulse (s : State) : State :=
  { emit .reset s with
    phase := .idle, waitRsp := false, tmr := 0, taking := none, now := s.now + 1,
    trsp := if s.waitRsp then s.trsp.tail else s.trsp,
    line := { s.line with lineProf := none, pend := [] } }

end Sys2Proof.Machine
end

