-- ==== Sys2Proof/Machine/Operands.lean ====
section
/-! DEFINITION. The operands of a command: its payload on PAY (R75), the frame built from it (R162), and the transmit
data TXD (R23). -/

namespace Sys2Proof.Machine

/-- Whether the host has supplied at least `n` payload bytes. -/
def suppliesBytes : Nat → List Byte → Bool
  | 0, _ => true
  | _ + 1, [] => false
  | n + 1, _ :: bs => suppliesBytes n bs

/-- The first phase of a command (R26). -/
def firstPhase : Instr → Phase
  | .sendBreak => .brkCfg
  | .sendRawData _ => .dataCfg
  | .sendRawPacket _ => .brkCfg
  | .sendPacket _ => .brkCfg
  | .sendAltPacket _ _ => .brkCfg

/-- The first phase of the command a descriptor decodes to; an illegal one has none, "`PHASE` stays `IDLE`" (R26). -/
def phaseOf (d : Descriptor) : Option Phase :=
  match decode d with
  | .ok i => some (firstPhase i)
  | .error _ => none

/-- What the host has presented, an Accept that waits for its payload counted as not yet begun: its descriptor and bytes
on the channels, PHASE in IDLE (R75: Accept "takes the descriptor and its `LEN` bytes as one step"). -/
def State.offered (s : State) : State :=
  match s.taking with
  | none => s
  | some x => { s with taking := none, phase := .idle, cmd := x.desc :: s.cmd, pay := x.got ++ s.pay }

/-- Go to the first phase of a command, its request not issued (R26); with none, PHASE and WAITRSP stay (R203). -/
def enterPhase (p : Option Phase) (s : State) : State :=
  match p with
  | some q => { s with phase := q, waitRsp := false }
  | none => s

/-- The Accept of descriptor `d` begins: the descriptor leaves CMD and the bytes `got` leave PAY, and for a legal command
PHASE leaves IDLE, so that BUSY is 1 while it waits for the rest (R35, R246). All else of R26 comes with the last byte
(R75, entry 11). -/
def beginAccept (p : Option Phase) (d : Descriptor) (got : List Byte) (s : State) : State :=
  enterPhase p
    { s with taking := some { desc := d, got := got }, cmd := s.cmd.tail, pay := s.pay.drop got.length }

/-- The Accept of descriptor `d` waits for the payload the host has announced and not supplied in full: it begins with the
bytes that are there, and a cycle passes (R246, entry 11). -/
def awaitPayload (p : Option Phase) (d : Descriptor) (s : State) : State :=
  beginAccept p d s.pay (passCycle s)

/-- The payload a command of length `n` takes: the next `n` bytes on PAY, byte 0 of the operand first (R75). -/
def payloadOf (n : Nat) (s : State) : List Byte := s.pay.take n

/-- Load the command register and the payload (R26): the descriptor and its bytes leave CMD and PAY, `OP`, `SC`, `LEN`
and `PB` take their values, WAITRSP is cleared. -/
def loadCommand (i : Instr) (s : State) : State :=
  emit (.accept (encode i) (payloadOf i.payloadLen s))
    { s with
      cmd := s.cmd.tail, pay := s.pay.drop i.payloadLen,
      op := i.opcode, sc := i.startCode, len := BitVec.ofNat 16 i.payloadLen,
      pb := payloadOf i.payloadLen s, waitRsp := false }

/-- How many of `len` channel bytes the frame holds: `min(LEN, 512)`, the rest silently dropped (R162, R163). -/
def channelCount (len : Nat) : Nat := min len maxCh

/-- The frame of a start code and channel bytes: the start code, then up to 512 of them unchanged in order (R161). -/
def frameOf (sc : Byte) (channels : List Byte) : List Byte := sc :: channels.take maxCh

/-- `build_frame()` (R162): `FB[0] <- SC`, `FB[1+i] <- PB[i]`, `FLEN <- n + 1`. It has no failure mode. -/
def buildFrame (s : State) : State :=
  let n := channelCount s.len.toNat
  { s with
    fb := (s.fb.writeRun 0 [s.sc]).writeRun 1 (s.pb.take n),
    flen := BitVec.ofNat 10 (n + 1) }

/-- Load a command whose frame is built inside Accept, before any request (R26, R161). -/
def loadFrameCommand (i : Instr) (s : State) : State := buildFrame (loadCommand i s)

/-- `TXD` (R23): the frame for the packet commands that build one, the payload for the raw commands; `SEND_BREAK` (and a
value of OP that is no command) has none. -/
def transmitData (s : State) : Except Fault (List Byte) :=
  match s.op.toNat with
  | 2 => .ok s.pb
  | 3 => .ok s.pb
  | 4 => s.fb.readRun 0 s.flen.toNat
  | 5 => s.fb.readRun 0 s.flen.toNat
  | _ => .error (.noTransmitData s.op)

end Sys2Proof.Machine
end

