-- ==== Sys2Proof/Machine/Sequencer.lean ====
section
/-! DEFINITION. The step relation of the sequencer: ACCEPT (R26), ISSUE (R27), ANSWER (R28), advance() (R29), TICK and
SETTLE-END (R30). CONFIGURE, WRITE and WAIT (R103, R106, R110) are these steps in their phases. -/

namespace Sys2Proof.Machine

/-- One outcome of a step of this machine. -/
abbrev StepResult := Host.Outcome State Fault Refusal

/-! ### ACCEPT -/

/-- Take a descriptor `d` of `n` payload bytes whose command begins in phase `p`, if it is one (R26, R71, R75): where an
Accept can begin and the bytes are there, `take` it; where they are not, its Accept waits for them (R246). Where none can
begin it stays presented and a cycle passes (entry 21). -/
def takeDescriptor (d : Descriptor) (p : Option Phase) (n : Nat) (take : State → State) (s : State) : StepResult :=
  match s.acceptReady, suppliesBytes n s.pay with
  | true, true => .next (take s)
  | true, false => .next (awaitPayload p d s)
  | false, _ => .next (passCycle s)

/-- Step ACCEPT for a legal command (R26): load it with `load`, enter its first phase. -/
def accept (i : Instr) (load : State → State) (s : State) : StepResult :=
  takeDescriptor (encode i) (some (firstPhase i)) i.payloadLen (fun s => gotoPhase (firstPhase i) (load s)) s

/-- Step ACCEPT for an illegal descriptor (R26, R203): refused once its payload is there to be consumed (R75). -/
def refuseIllegal (d : Descriptor) (s : State) : StepResult :=
  takeDescriptor d none d.len.toNat (raiseIllegalCommand d) s

/-! ### ISSUE -/

/-- A transport request: CONFIGURE or WRITE (R100). -/
inductive Request where
  | cfg (p : SerialProfile)
  | wr (bs : List Byte)
deriving DecidableEq, Repr

/-- The event of a request (R12). -/
def Request.event : Request → Event
  | .cfg p => .cfgReq p
  | .wr bs => .wrReq bs

/-- The profile switcher: its output is a function of PHASE alone (R102). -/
def switchProfile : Phase → Option SerialProfile
  | .brkCfg => some breakProfile
  | .dataCfg => some dataProfile
  | .idle => none
  | .brkWr => none
  | .settle => none
  | .dataWr => none

/-- The request of each transport phase (R27). -/
def requestOf (s : State) : Except Fault Request :=
  match s.phase with
  | .brkCfg => .ok (.cfg breakProfile)
  | .brkWr => .ok (.wr [breakByte])
  | .dataCfg => .ok (.cfg dataProfile)
  | .dataWr => (transmitData s).map .wr
  | .idle => .error (.noRequest .idle)
  | .settle => .error (.noRequest .settle)

/-- The transport receives a request. -/
def Transport.receive (c : Params) (now : Nat) (r : Request) (t : Transport) : Transport :=
  match r with
  | .cfg _ => t.configureArrives c now
  | .wr bs => t.writeArrives bs

/-- Emit a request and wait for its answer: `WAITRSP <- 1` (R27). -/
def sendRequest (c : Params) (r : Request) (s : State) : State :=
  emit r.event { s with waitRsp := true, line := s.line.receive c s.now r }

/-- Step ISSUE (R27). -/
def issue (c : Params) (s : State) : StepResult :=
  match requestOf s with
  | .ok r => .next (sendRequest c r s)
  | .error f => .fault f

/-! ### ANSWER and advance() -/

/-- Whether an opcode's command ends with its break (R29): SEND_BREAK. -/
def isBreakOp (op : BitVec 3) : Bool := decide (op = 1)

/-- Whether an opcode's command goes on after its break (R29): the three packet commands. -/
def isPacketOp (op : BitVec 3) : Bool := decide (op = 3 ∨ op = 4 ∨ op = 5)

/-- Entry to SETTLE: `TMR <- 0`, event SettleStart at the time of the break write's answer (R29). -/
def startSettle (s : State) : State := { emit .settleStart s with tmr := 0, phase := .settle }

/-- advance(), the successor of a transport phase whose transaction answered `ok`, row by row (R29). -/
def advance (s : State) : StepResult :=
  match s.phase with
  | .brkCfg => .next (gotoPhase .brkWr s)
  | .brkWr =>
    match isBreakOp s.op, isPacketOp s.op with
    | true, _ => .next (respond .ok s)
    | false, true => .next (startSettle s)
    | false, false => .fault (.noSuccessor .brkWr s.op)
  | .dataCfg => .next (gotoPhase .dataWr s)
  | .dataWr => .next (respond .ok s)
  | .idle => .fault (.noSuccessor .idle s.op)
  | .settle => .fault (.noSuccessor .settle s.op)

/-- The event of an answer: CfgRsp in the configure phases, WrRsp in the write phases (R28). -/
def answerEvent (p : Phase) (a : Answer) : Event :=
  match switchProfile p with
  | some _ => .cfgRsp a
  | none => .wrRsp a

/-- The transport has answered the request of phase `p`. -/
def Transport.answered (c : Params) (p : Phase) (a : Answer) (t : Transport) : Transport :=
  match switchProfile p with
  | some prof => t.configureAnswered c prof a
  | none => t.writeAnswered a

/-- Take the answer `a` off TRSP: its event, `WAITRSP <- 0` (R28). -/
def takeAnswer (c : Params) (a : Answer) (s : State) : State :=
  emit (answerEvent s.phase a)
    { s with waitRsp := false, trsp := s.trsp.tail, line := s.line.answered c s.phase a }

/-- Step ANSWER (R28). A transport that gives no answer leaves DMXTX waiting: time passes and nothing else (R101). -/
def answer (c : Params) (s : State) : StepResult :=
  match s.trsp with
  | [] => .next (passCycle s)
  | .ok :: _ => advance (takeAnswer c .ok s)
  | .err e :: _ => .next (raiseTransportError e (takeAnswer c (.err e) s))

/-! ### TICK and SETTLE-END -/

/-- SETTLE-END (R30): event SettleEnd, `PHASE <- DATA_CFG` with `WAITRSP = 0`. -/
def endSettle (s : State) : State := { emit .settleEnd s with phase := .dataCfg, waitRsp := false }

/-- A step of the settle wait (R30, R110): it may end once `TMR` has reached SETTLE_CYCLES; until then a cycle passes. A
`hold` turn prolongs it by any amount. -/
def settleStep (c : Params) (s : State) : State :=
  if settleCycles c ≤ s.tmr then endSettle s else passCycle s

end Sys2Proof.Machine
end

