-- ==== Sys2Proof/Machine/BreakAndRaw.lean ====
section
/-! DEFINITION. The meanings of SEND_BREAK and SEND_RAW_DATA (41_break_and_raw_data.md). -/

namespace Sys2Proof.Machine

/-- `SEND_BREAK` (R120): phase walk IDLE, BRK_CFG, BRK_WR, IDLE; FB, FLEN and TMR untouched. -/
def execSendBreak (s : State) : Host.Outcome State Fault Refusal :=
  accept .sendBreak (loadCommand .sendBreak) s

/-- `SEND_RAW_DATA bytes` (R124): phase walk IDLE, DATA_CFG, DATA_WR, IDLE; no break, no framing. -/
def execSendRawData (len : Nat) (s : State) : Host.Outcome State Fault Refusal :=
  accept (.sendRawData len) (loadCommand (.sendRawData len)) s

end Sys2Proof.Machine
end

