-- ==== Sys2Proof/Machine/FrameBuilder.lean ====
section
/-! DEFINITION. The meanings of SEND_PACKET and SEND_ALT_PACKET, which build a frame and send it (43_frame_builder.md). -/

namespace Sys2Proof.Machine

/-- `SEND_PACKET channels` (R160): as SEND_ALT_PACKET with start code 0x00, which its descriptor's SC field is. -/
def execSendPacket (len : Nat) (s : State) : Host.Outcome State Fault Refusal :=
  accept (.sendPacket len) (loadFrameCommand (.sendPacket len)) s

/-- `SEND_ALT_PACKET channels, start_code` (R161): the frame is built inside Accept, then the packet sequencer runs. -/
def execSendAltPacket (len : Nat) (sc : Byte) (s : State) : Host.Outcome State Fault Refusal :=
  accept (.sendAltPacket len sc) (loadFrameCommand (.sendAltPacket len sc)) s

end Sys2Proof.Machine
end

