-- ==== Sys2Proof/Machine/PacketSequencer.lean ====
section
/-! DEFINITION. The meaning of SEND_RAW_PACKET, the packet sequencer (42_packet_sequencer.md). -/

namespace Sys2Proof.Machine

/-- `SEND_RAW_PACKET data` (R140): phase walk IDLE, BRK_CFG, BRK_WR, SETTLE, DATA_CFG, DATA_WR, IDLE; FB and FLEN untouched. -/
def execSendRawPacket (len : Nat) (s : State) : Host.Outcome State Fault Refusal :=
  accept (.sendRawPacket len) (loadCommand (.sendRawPacket len)) s

end Sys2Proof.Machine
end

