-- ==== Sys2Proof/Machine/Dispatch.lean ====
section
/-! DEFINITION. One arm per command. -/

namespace Sys2Proof.Machine

def exec (i : Instr) (s : State) : Host.Outcome State Fault Refusal :=
  match i with
  | .sendBreak => Sys2Proof.Machine.execSendBreak s
  | .sendRawData len => Sys2Proof.Machine.execSendRawData len s
  | .sendRawPacket len => Sys2Proof.Machine.execSendRawPacket len s
  | .sendPacket len => Sys2Proof.Machine.execSendPacket len s
  | .sendAltPacket len sc => Sys2Proof.Machine.execSendAltPacket len sc s

end Sys2Proof.Machine
end

