-- ==== Sys2Proof/Machine/Turns.lean ====
section
/-! DEFINITION. Which agent moves (R14): the turn at the head of the schedule, and the move of the agent that PHASE and
WAITRSP enable; and how a descriptor comes to stand where the next step takes it. -/

namespace Sys2Proof.Machine

/-- The host's move (R26, R71): the oldest presented descriptor is decoded, or the one whose Accept waits for its payload;
a legal command is executed, any other is refused. With none presented DMXTX waits. -/
def hostMove (s : State) : StepResult :=
  match s.offered.cmd with
  | [] => .next (passCycle s)
  | d :: _ =>
    match decode d with
    | .ok i => exec i s.offered
    | .error _ => refuseIllegal d s.offered

/-- The host's next descriptor is taken off CMD before its payload, of which the first byte is still to be transferred
(R70, R75). That this can take any time before the Accept is complete, although the host supplies every byte, is the
model's choice (entry 27); with `LEN = 0` no byte is to come, and the turn does nothing. -/
def offerDescriptor (s : State) : State :=
  match s.acceptReady, s.cmd with
  | true, d :: _ => if d.len = 0 then s else beginAccept (phaseOf d) d [] s
  | true, [] => s
  | false, _ => s

/-- The move in a phase a command can begin with: the transport answers; or the sequencer issues the request, which it
does not before the Accept has the whole payload ("before the first transport request", D12): until then the host moves
(entry 11). -/
def firstPhaseMove (c : Params) (s : State) : StepResult :=
  match s.waitRsp, s.taking with
  | true, _ => answer c s
  | false, none => issue c s
  | false, some _ => hostMove s

/-- The move of the enabled agent: the host in IDLE, time in SETTLE, elsewhere the sequencer before its request and the
transport after it (R14, R25). -/
def agentMove (c : Params) (s : State) : StepResult :=
  match s.phase with
  | .idle => hostMove s
  | .settle => .next (settleStep c s)
  | .brkCfg => firstPhaseMove c s
  | .brkWr => if s.waitRsp then answer c s else issue c s
  | .dataCfg => firstPhaseMove c s
  | .dataWr => if s.waitRsp then answer c s else issue c s

/-- One turn (entry 1). Reset beats every step (R211); its turn takes one clock cycle (entry 25). -/
def takeTurn (c : Params) (t : Turn) (s : State) : StepResult :=
  match t with
  | .go => agentMove c s
  | .hold => .next (passCycle s)
  | .rst => .next (resetPulse s)
  | .takeByte => .next { s with line := s.line.takeByte }
  | .startChar => .next { s with line := s.line.startChar s.now }
  | .finishChar => .next { s with line := s.line.finishChar c s.now }
  | .offer => .next (offerDescriptor s)

/-- The turn a step takes: the head of the schedule, `go` when none is listed (entry 1). -/
def nextTurn (s : State) : Turn :=
  match s.sched with
  | [] => .go
  | t :: _ => t

/-- The state with the turn it gives taken off the schedule. -/
def dropTurn (s : State) : State := { s with sched := s.sched.tail }

/-- One step with the parameters `c`. -/
def stepWith (c : Params) (s : State) : StepResult := takeTurn c (nextTurn s) (dropTurn s)

/-- The host presents descriptor `d` next, with a payload of as many zero bytes as it announces, and has the next turn;
DMXTX is idle, as it is whenever it takes a command (entry 12). -/
def presentNext (d : Descriptor) (s : State) : State :=
  { s with
    phase := .idle, waitRsp := false, taking := none, sched := .go :: s.sched,
    cmd := d :: s.cmd, pay := List.replicate d.len.toNat 0 ++ s.pay }

end Sys2Proof.Machine
end

