-- ==== Sys2Proof/Machine/Step.lean ====
section
/-! DEFINITION. One step of this hardware, and the placing of a descriptor for it. -/

namespace Sys2Proof.Machine

/-- One step: one turn, with this hardware's parameters. -/
def step (s : State) : Host.Outcome State Fault Refusal := stepWith hardwired s

/-- `s` with the descriptor `w` presented on CMD so that the very next step takes it (entry 12). -/
def State.withFetchWord (s : State) (nbits w : Nat) : State :=
  presentNext (BitVec.ofNat 32 (w % 2 ^ nbits)) s

end Sys2Proof.Machine
end

