-- ==== Sys2Proof/Machine/BigStep.lean ====
section
/-! DEFINITION. The commands' big-step pseudocode (R120, R124, R140, R160, R161, R169), written beside the phase machine and
not used by it: the events of a command after its Accept as a function of the transport's answers alone (R32). -/

namespace Sys2Proof.Machine

/-- One transaction: the request, its answer, and then either the abort (R206) or what follows. A request that is never
answered is the last event (R101). -/
def transaction (request : Event) (reply : Answer → Event) (thenDo : List Answer → List Event) :
    List Answer → List Event
  | [] => [request]
  | .ok :: rest => request :: reply .ok :: thenDo rest
  | .err e :: _ => [request, reply (.err e), .resp (.err e)]

/-- `send_break() = configure(BREAK_PROFILE); write([0x00])` (R169). -/
def sendBreakEvents (thenDo : List Answer → List Event) : List Answer → List Event :=
  transaction (.cfgReq breakProfile) .cfgRsp (transaction (.wrReq [breakByte]) .wrRsp thenDo)

/-- `send_raw_data(b) = configure(DATA_PROFILE); write(b)` (R169). -/
def sendRawDataEvents (bs : List Byte) (thenDo : List Answer → List Event) : List Answer → List Event :=
  transaction (.cfgReq dataProfile) .cfgRsp (transaction (.wrReq bs) .wrRsp thenDo)

/-- `Wait(SETTLE_NS)`: it cannot fail (R111). -/
def settleEvents (thenDo : List Answer → List Event) (answers : List Answer) : List Event :=
  .settleStart :: .settleEnd :: thenDo answers

/-- `Resp(OK)` ends the command. -/
def respondOk (_ : List Answer) : List Event := [.resp .ok]

/-- `send_raw_packet(d) = send_break(); wait settle; send_raw_data(d)` (R169). -/
def sendRawPacketEvents (data : List Byte) : List Answer → List Event :=
  sendBreakEvents (settleEvents (sendRawDataEvents data respondOk))

/-- `send_alt_packet(cs, sc) = build frame f; send_raw_packet(f)` (R169). -/
def sendAltPacketEvents (channels : List Byte) (sc : Byte) : List Answer → List Event :=
  sendRawPacketEvents (frameOf sc channels)

/-- The events of a command after its Accept, given its payload and the transport's answers. -/
def commandEvents (i : Instr) (payload : List Byte) (answers : List Answer) : List Event :=
  match i with
  | .sendBreak => sendBreakEvents respondOk answers
  | .sendRawData _ => sendRawDataEvents payload respondOk answers
  | .sendRawPacket _ => sendRawPacketEvents payload answers
  | .sendPacket _ => sendAltPacketEvents payload defaultStartCode answers
  | .sendAltPacket _ sc => sendAltPacketEvents payload sc answers

/-- How many transactions a command makes when all are answered `ok` (R141). -/
def transactionCount : Instr → Nat
  | .sendBreak => 2
  | .sendRawData _ => 2
  | .sendRawPacket _ => 4
  | .sendPacket _ => 4
  | .sendAltPacket _ _ => 4

end Sys2Proof.Machine
end

