-- ==== Sys2Proof/Machine/Formats.lean ====
section
/-! DEFINITION. The message formats towards the host and the transport (R82 to R87), the commands' text (R88), and
the three output channels of R70 as views of the trace. ERRW is an argument (entry 8). -/

namespace Sys2Proof.Machine

/-! ### The textual form of a command (R88) -/

/-- "The source's operation name in upper case" (R88). -/
def mnemonicOf : Instr → String
  | .sendBreak => "SEND_BREAK"
  | .sendRawData _ => "SEND_RAW_DATA"
  | .sendRawPacket _ => "SEND_RAW_PACKET"
  | .sendPacket _ => "SEND_PACKET"
  | .sendAltPacket _ _ => "SEND_ALT_PACKET"

/-- A byte sequence "written as a bracketed list" (R88), numbers in decimal (R9). -/
def listText (bs : List Byte) : String :=
  "[" ++ String.intercalate ", " (bs.map (fun b => toString b.toNat)) ++ "]"

/-- A command with its operand in text: "`LEN` is the length of the list and is not written" (R88). -/
def commandText (i : Instr) (payload : List Byte) : String :=
  match i with
  | .sendBreak => mnemonicOf i
  | .sendRawData _ => mnemonicOf i ++ " " ++ listText payload
  | .sendRawPacket _ => mnemonicOf i ++ " " ++ listText payload
  | .sendPacket _ => mnemonicOf i ++ " " ++ listText payload
  | .sendAltPacket _ sc => mnemonicOf i ++ " " ++ listText payload ++ ", " ++ toString sc.toNat

/-! ### Status and response words (R82, R83, R87) -/

/-- The KIND bit of a status word: 0 ConfigurationError, 1 WriteError (R87). -/
def ErrorKind.bit : ErrorKind → Nat
  | .configurationError => 0
  | .writeError => 1

/-- The error kind a KIND bit names (R87). -/
def ErrorKind.ofBit (b : Bool) : ErrorKind := if b then .writeError else .configurationError

/-- The status word of an answer (R87): ERR in bit 0, KIND in bit 1, INFO above. -/
def statusWord (errw : Nat) (a : Answer) : BitVec (errw + 2) :=
  match a with
  | .ok => 0
  | .err e => BitVec.ofNat (errw + 2) (e.info * 4 + e.kind.bit * 2 + 1)

/-- The answer a status word carries (R87): KIND and INFO are ignored when ERR is 0. -/
def answerOfStatus (errw : Nat) (w : BitVec (errw + 2)) : Answer :=
  if w.getLsbD 0 then .err { kind := ErrorKind.ofBit (w.getLsbD 1), info := (w.extractLsb' 2 errw).toNat } else .ok

/-- The ST field of a response (R82, R200). -/
def Response.st : Response → Nat
  | .ok => 0
  | .err e => 1 + e.kind.bit
  | .illegal => 3

/-- The INFO field of a response (R82): the transport's, or zero when ST is 0 or 3. -/
def Response.info : Response → Nat
  | .ok => 0
  | .err e => e.info
  | .illegal => 0

/-- The response word on RSP (R82): ST in bits 1:0, INFO above. -/
def responseWord (errw : Nat) (r : Response) : BitVec (errw + 2) :=
  BitVec.ofNat (errw + 2) (r.info * 4 + r.st)

/-- The response to the host that an answer of the transport leads to, when it ends the command (R83). -/
def responseTo : Answer → Response
  | .ok => .ok
  | .err e => .err e

/-! ### Request headers (R84 to R86) -/

/-- The CUSTOM bit (R84). -/
def BitRate.customBit : BitRate → BitVec 1
  | .standard _ => 0
  | .custom _ => 1

/-- The PARITY field (R84). -/
def parityField : Parity → BitVec 2
  | .none => 0
  | .odd => 1
  | .even => 2

/-- The STOP2 bit (R84). -/
def stopField : StopBits → BitVec 1
  | .one => 0
  | .two => 1

/-- The FLOW field (R84). -/
def flowField : FlowControl → BitVec 2
  | .none => 0
  | .hardware => 1
  | .software => 2

/-- The header of a CONFIGURE (R84), most significant field first. -/
def configureHeader (p : SerialProfile) : BitVec 48 :=
  (0 : BitVec 5) ++ flowField p.flowControl ++ stopField p.stopBits ++ parityField p.parity ++
    BitVec.ofNat 4 p.charSize ++ BitRate.customBit p.bitRate ++ BitVec.ofNat 32 (bitsPerSecond p) ++ (0 : BitVec 1)

/-- The header of a WRITE of `n` bytes (R84). -/
def writeHeader (n : Nat) : BitVec 48 := (0 : BitVec 31) ++ BitVec.ofNat 16 n ++ (1 : BitVec 1)

/-- The header of a request. -/
def Request.header : Request → BitVec 48
  | .cfg p => configureHeader p
  | .wr bs => writeHeader bs.length

/-! ### The output channels (R70) -/

/-- The header an event puts on TREQ, if any (R84). -/
def treqOf : Event → Option (BitVec 48)
  | .cfgReq p => some (configureHeader p)
  | .wrReq bs => some (writeHeader bs.length)
  | .accept _ _ => none
  | .cfgRsp _ => none
  | .wrRsp _ => none
  | .settleStart => none
  | .settleEnd => none
  | .resp _ => none
  | .reset => none

/-- The bytes an event puts on TDAT, element 0 first (R86). -/
def tdatOf : Event → List Byte
  | .wrReq bs => bs
  | .cfgReq _ => []
  | .accept _ _ => []
  | .cfgRsp _ => []
  | .wrRsp _ => []
  | .settleStart => []
  | .settleEnd => []
  | .resp _ => []
  | .reset => []

/-- The response an event puts on RSP, if any (R82). -/
def rspOf : Event → Option Response
  | .resp r => some r
  | .accept _ _ => none
  | .cfgReq _ => none
  | .cfgRsp _ => none
  | .wrReq _ => none
  | .wrRsp _ => none
  | .settleStart => none
  | .settleEnd => none
  | .reset => none

/-- The messages sent on TREQ so far, oldest first. -/
def treqMessages (s : State) : List (BitVec 48) := s.events.filterMap treqOf

/-- The messages sent on TDAT so far, oldest first. -/
def tdatMessages (s : State) : List Byte := s.events.flatMap tdatOf

/-- The messages sent on RSP so far, oldest first. -/
def rspMessages (errw : Nat) (s : State) : List (BitVec (errw + 2)) :=
  (s.events.filterMap rspOf).map (responseWord errw)

end Sys2Proof.Machine
end

