-- ==== Sys2Proof/Safety.lean ====
section
/-! DEFINITION. What claims about DMXTX are stated in terms of: the invariant of its registers, the order of events a
trace must keep (R60, R61), the law of the settle wait (R110), and the laws of the line (R109, R187). -/

namespace Sys2Proof.Safety

open Sys2Proof.Machine

/-! ### The registers -/

/-- Whether a phase has transport requests (R25). -/
def isTransportPhase : Phase → Bool
  | .idle => false
  | .brkCfg => true
  | .brkWr => true
  | .settle => false
  | .dataCfg => true
  | .dataWr => true

/-- Whether an opcode's command begins with its data phase (R26): SEND_RAW_DATA. -/
def isRawDataOp (op : BitVec 3) : Bool := decide (op = 2)

/-- Whether a command with this opcode visits this phase (the phase walks of R120, R124, R140, R161). -/
def visits (op : BitVec 3) : Phase → Bool
  | .idle => true
  | .brkCfg => isBreakOp op || isPacketOp op
  | .brkWr => isBreakOp op || isPacketOp op
  | .settle => isPacketOp op
  | .dataCfg => isRawDataOp op || isPacketOp op
  | .dataWr => isRawDataOp op || isPacketOp op

/-- Whether a command with this opcode sends a frame built in FB (R23). -/
def sendsFrame (op : BitVec 3) : Bool := decide (op = 4) || decide (op = 5)

/-- A command is in progress, its Accept complete: PHASE is not IDLE and no payload is still to be consumed. -/
abbrev inProgress (s : State) : Prop := s.phase ≠ .idle ∧ s.taking = none

/-- The registers' invariant: what every rule of the spec may rely on while a command is in progress. -/
structure RegistersInv (s : State) : Prop where
  /-- FB is in canonical form and holds nothing at an index above 512 (R50, R56). -/
  frame_wf : Memory.wf s.fb = true
  /-- `WAITRSP` "is 0 in IDLE and SETTLE" (R25). -/
  wait_only_in_transport_phase : s.waitRsp = true → isTransportPhase s.phase = true
  /-- An Accept that waits has payload still to be consumed, and PHASE is at its command's first phase, no request issued;
  at IDLE if its descriptor is illegal (R26, R75, R203, entry 11). -/
  accepting : ∀ x, s.taking = some x →
    x.got.length < x.desc.len.toNat ∧ s.waitRsp = false ∧ s.phase = (phaseOf x.desc).getD .idle
  /-- The command in progress is one whose phase walk visits PHASE. -/
  command_visits_phase : s.taking = none → visits s.op s.phase = true
  /-- `PB` "has exactly LEN bytes" (R45). -/
  payload_has_len_bytes : inProgress s → s.pb.length = s.len.toNat
  /-- Only SEND_ALT_PACKET has a start code (R72). -/
  start_code_zero : inProgress s → s.op ≠ 5 → s.sc = 0
  /-- `FLEN = min(LEN, 512) + 1` while a frame is being sent (R23). -/
  frame_length : inProgress s → sendsFrame s.op = true → s.flen.toNat = min s.len.toNat 512 + 1
  /-- `FB[0..FLEN)` is the frame of the command in progress (R23, R43). -/
  frame_bytes : inProgress s → sendsFrame s.op = true →
    Memory.readRun s.fb 0 s.flen.toNat = .ok (frameOf s.sc s.pb)

/-! ### The order of events -/

/-- A position in the order of one command's events (R60), between two of them. -/
inductive Spot where
  | idle
  | accepted
  | breakConfiguring
  | breakConfigured
  | breakWriting
  | breakWritten
  | settling
  | settled
  | dataConfiguring
  | dataConfigured
  | dataWriting
  | dataWritten
  /-- A transaction has failed with `e` and the response is due. -/
  | failed (e : TransportError)
deriving DecidableEq, Repr

/-- The position after an event, `none` when the event may not come there: the order of R60 within a command, R61 across
commands, the refusal of R203, the abort of R206, and a reset anywhere (R231). -/
def followOne (p : Spot) (e : Event) : Option Spot :=
  match p, e with
  | _, .reset => some .idle
  | .idle, .accept _ _ => some .accepted
  | .accepted, .resp .illegal => some .idle
  | .accepted, .cfgReq p =>
    if p = breakProfile then some .breakConfiguring else if p = dataProfile then some .dataConfiguring else none
  | .breakConfiguring, .cfgRsp .ok => some .breakConfigured
  | .breakConfiguring, .cfgRsp (.err e) => some (.failed e)
  | .breakConfigured, .wrReq bs => if bs = [0x00] then some .breakWriting else none
  | .breakWriting, .wrRsp .ok => some .breakWritten
  | .breakWriting, .wrRsp (.err e) => some (.failed e)
  | .breakWritten, .resp .ok => some .idle
  | .breakWritten, .settleStart => some .settling
  | .settling, .settleEnd => some .settled
  | .settled, .cfgReq p => if p = dataProfile then some .dataConfiguring else none
  | .dataConfiguring, .cfgRsp .ok => some .dataConfigured
  | .dataConfiguring, .cfgRsp (.err e) => some (.failed e)
  | .dataConfigured, .wrReq _ => some .dataWriting
  | .dataWriting, .wrRsp .ok => some .dataWritten
  | .dataWriting, .wrRsp (.err e) => some (.failed e)
  | .dataWritten, .resp .ok => some .idle
  | .failed e, .resp (.err e') => if e = e' then some .idle else none
  | _, _ => none

/-- Read a sequence of events from a position on. -/
def follow (p : Spot) : List Event → Option Spot
  | [] => some p
  | e :: es => (followOne p e).bind (fun q => follow q es)

/-- The position of a state in which no Accept waits: what PHASE, WAITRSP and OP say of the events so far. -/
def phaseSpot (s : State) : Spot :=
  match s.phase, s.waitRsp with
  | .idle, _ => .idle
  | .brkCfg, false => .accepted
  | .brkCfg, true => .breakConfiguring
  | .brkWr, false => .breakConfigured
  | .brkWr, true => .breakWriting
  | .settle, _ => .settling
  | .dataCfg, false => bif isRawDataOp s.op then .accepted else .settled
  | .dataCfg, true => .dataConfiguring
  | .dataWr, false => .dataConfigured
  | .dataWr, true => .dataWriting

/-- The position a state stands at: between commands while an Accept waits, whose event is still to come. -/
def spotOf (s : State) : Spot :=
  match s.taking with
  | some _ => .idle
  | none => phaseSpot s

/-- The trace so far keeps the order of R60 and R61, and the state stands where it ends. -/
def OrderInv (s : State) : Prop := follow .idle s.events = some (spotOf s)

/-! ### The settle wait -/

/-- What one more event of the trace says of when the settle wait of the command in progress began. -/
def noteSettle (found : Option Nat) (x : Nat × Event) : Option Nat :=
  match x.2 with
  | .settleStart => some x.1
  | .accept _ _ => none
  | .resp _ => none
  | .reset => none
  | .cfgReq _ => found
  | .cfgRsp _ => found
  | .wrReq _ => found
  | .wrRsp _ => found
  | .settleEnd => found

/-- When the settle wait of the command in progress began: the time of its SettleStart, if it has come. -/
def settleBegun (tr : List (Nat × Event)) : Option Nat := tr.foldl noteSettle none

/-- The law of the settle wait (R110, R142): whenever `CfgReq(DATA_PROFILE)` comes after a SettleStart of the same
command, at least SETTLE_CYCLES have passed since then. -/
def SettleLaw (c : Params) (tr : List (Nat × Event)) : Prop :=
  ∀ before after b a, tr = before ++ (b, .cfgReq dataProfile) :: after →
    settleBegun before = some a → a + settleCycles c ≤ b

/-- The trace's times never decrease and none is later than now (R12); the settle law holds so far; and the state is on
its way to keep it: in SETTLE, TMR is the time since SettleStart (R34). -/
structure TimeInv (c : Params) (s : State) : Prop where
  times_sorted : (s.trace.map Prod.fst).Pairwise (· ≤ ·)
  times_past : ∀ x ∈ s.trace, x.1 ≤ s.now
  law : SettleLaw c s.trace
  in_settle : s.phase = .settle → ∃ a, settleBegun s.trace = some a ∧ a + s.tmr = s.now
  before_data : s.phase = .dataCfg → s.waitRsp = false → s.taking = none →
    ∀ a, settleBegun s.trace = some a → a + settleCycles c ≤ s.now

/-! ### The line -/

/-- Each write goes out under the profile of its own command's configure (R109): in the write phases LINEPROF is known. -/
structure ProfileInv (s : State) : Prop where
  break_profile : s.phase = .brkWr → s.line.lineProf = some breakProfile
  data_profile : s.phase = .dataWr → s.line.lineProf = some dataProfile

/-- A profile one of DMXTX's writes can go out at. -/
def isWriteProfile (p : Option SerialProfile) : Prop := p = some breakProfile ∨ p = some dataProfile

/-- What `CFG_APPLY = drain` gives (TA1, TA4, R188): every byte queued and every character sent has a determined profile,
and no character is cut. -/
structure DeterminedInv (s : State) : Prop where
  profiles : ProfileInv s
  /-- Bytes are the transport's to take only while their write is outstanding (R86). -/
  pending_in_a_write : s.line.pend ≠ [] → s.waitRsp = true ∧ (s.phase = .brkWr ∨ s.phase = .dataWr)
  queued : ∀ q ∈ s.line.txq, isWriteProfile q.prof
  sent : ∀ x ∈ s.line.wire, isWriteProfile x.prof ∧ x.cutAt = none
  uncut : ∀ b, s.line.began = some b → b.cutAt = none

/-- A character on the wire is over at cycle `t`: the transport is done with it, and unless it was cut its bit times at a
determined profile have passed (TA3). -/
def endedBy (c : Params) (x : SentChar) (t : Nat) : Prop :=
  x.ended ≤ t ∧ ∀ p, x.prof = some p → x.cutAt = none → charElapsed c p x.start t = true

/-- The times of a character's start, cut and end are in order. -/
def timesInOrder (start : Nat) (cutAt : Option Nat) (stop : Nat) : Prop :=
  start ≤ stop ∧ ∀ m, cutAt = some m → start ≤ m ∧ m ≤ stop

/-- No two characters overlap on the line: each is over before the next begins (TA3, R187). -/
structure LineInv (c : Params) (s : State) : Prop where
  no_overlap : s.line.wire.Pairwise (fun x y => endedBy c x y.start)
  all_ended : ∀ x ∈ s.line.wire, endedBy c x s.now ∧ timesInOrder x.start x.cutAt x.ended
  in_progress : ∀ b, s.line.began = some b →
    timesInOrder b.start b.cutAt s.now ∧ ∀ x ∈ s.line.wire, endedBy c x b.start

/-- The characters on the line so far, the one in progress the last. -/
def charsOf (s : State) : List SentChar := s.line.characters s.now

/-- The level of the line at time `t` in nanoseconds, where it is known; from now on nothing is. -/
def lineLevel (c : Params) (s : State) (t : Rat) : Option Level := levelAt (s.line.waveform c s.now) t

/-! ### Runs -/

/-- `k` steps of this machine, stopping at the first fault or refusal. -/
def run : Nat → State → Host.Outcome State Fault Refusal
  | 0, s => .next s
  | k + 1, s =>
    match step s with
    | .next t => run k t
    | .fault r => .fault r
    | .refused r => .refused r

/-- The turns of a schedule in which no reset comes. -/
def noReset (ts : List Turn) : Bool := ts.all (fun t => decide (t ≠ .rst))

/-- Two states that differ at most in what DMXTX may not remember between commands: the command register, the payload,
the frame buffer and the timer (R21, R43). -/
structure SameButDead (s t : State) : Prop where
  phase : s.phase = t.phase
  waitRsp : s.waitRsp = t.waitRsp
  cmd : s.cmd = t.cmd
  pay : s.pay = t.pay
  taking : s.taking = t.taking
  trsp : s.trsp = t.trsp
  sched : s.sched = t.sched
  now : s.now = t.now
  trace : s.trace = t.trace
  line : s.line = t.line

end Sys2Proof.Safety
end

