-- ==== Sys2Proof/Certificates/Slice0/Obligations.lean ====
section
/-! DEFINITION. The statements for the provers: what the numbered rules of spec/ say DMXTX does. -/

open Sys2Proof Sys2Proof.Machine Sys2Proof.Safety

/-! ### Encoding -/

/-- The descriptor examples of R90, legal and illegal. -/
def Obligations.DescriptorExamplesDecode : Prop :=
  decode 0x00000001 = .ok .sendBreak ∧
  decode 0x00020002 = .ok (.sendRawData 2) ∧
  decode 0x00050003 = .ok (.sendRawPacket 5) ∧
  decode 0x00040004 = .ok (.sendPacket 4) ∧
  decode 0x00000004 = .ok (.sendPacket 0) ∧
  decode 0x02581705 = .ok (.sendAltPacket 600 0x17) ∧
  decode 0x0200CC05 = .ok (.sendAltPacket 512 0xCC) ∧
  decode 0x00000000 = .error (.reservedOpcode 0) ∧
  decode 0x00000006 = .error (.reservedOpcode 6) ∧
  decode 0x00000007 = .error (.reservedOpcode 7) ∧
  decode 0x00000009 = .error (.reservedBits 1) ∧
  decode 0x00001704 = .error (.startCodeNotZero 0x17) ∧
  decode 0x00010001 = .error (.lengthNotZero 1)

/-- Decoding the encoding of a well-formed command gives it back, every operand at every value (R72 to R74). -/
def Obligations.EncodeThenDecodeGivesBack : Prop :=
  ∀ i : Instr, i.wellFormed = true → decode (encode i) = .ok i

/-- What the decoder accepts is the encoding of the well-formed command it answers (R72 to R74). -/
def Obligations.DecodeThenEncodeGivesBack : Prop :=
  ∀ (d : Descriptor) (i : Instr), decode d = .ok i → i.wellFormed = true ∧ encode i = d

/-- R74: a descriptor selects a command exactly when `d AND mask = match`; what matches no pattern is refused, and no
descriptor matches two. -/
def Obligations.DecoderSelectsByMaskAndMatch : Prop :=
  ∀ d : Descriptor,
    (decode d = .ok .sendBreak ↔ d &&& 0xFFFFFFFF = 0x00000001) ∧
    (decode d = .ok (.sendRawData d.len.toNat) ↔ d &&& 0x0000FFFF = 0x00000002) ∧
    (decode d = .ok (.sendRawPacket d.len.toNat) ↔ d &&& 0x0000FFFF = 0x00000003) ∧
    (decode d = .ok (.sendPacket d.len.toNat) ↔ d &&& 0x0000FFFF = 0x00000004) ∧
    (decode d = .ok (.sendAltPacket d.len.toNat d.sc) ↔ d &&& 0x000000FF = 0x00000005) ∧
    ((∃ e, decode d = .error e) ↔
      (d &&& 0xFFFFFFFF ≠ 0x00000001 ∧ d &&& 0x0000FFFF ≠ 0x00000002 ∧ d &&& 0x0000FFFF ≠ 0x00000003 ∧
        d &&& 0x0000FFFF ≠ 0x00000004 ∧ d &&& 0x000000FF ≠ 0x00000005))

/-- R79: which descriptors are ILLEGAL, and the reaction: the LEN payload bytes are consumed, Resp(ILLEGAL) with status 3
and INFO 0 is given, nothing else changes, so no request is issued. -/
def Obligations.IllegalDescriptorIsRefused : Prop :=
  ∀ d : Descriptor,
    ((∃ e, decode d = .error e) ↔
      (d.op = 0 ∨ d.op = 6 ∨ d.op = 7 ∨ d.rsv ≠ 0 ∨ (d.sc ≠ 0 ∧ d.op ≠ 5) ∨ (d.len ≠ 0 ∧ d.op = 1))) ∧
    ∀ (s : State) (rest : List Descriptor), (∃ e, decode d = .error e) → s.acceptReady = true → nextTurn s = .go →
      s.cmd = d :: rest → d.len.toNat ≤ s.pay.length →
      step s = .next
        { s with
          sched := s.sched.tail, cmd := rest, pay := s.pay.drop d.len.toNat,
          trace := s.trace ++
            [(s.now, Event.accept d (s.pay.take d.len.toNat)), (s.now, Event.resp .illegal)] } ∧
      Response.st .illegal = 3 ∧ Response.info .illegal = 0

/-! ### Accepting a command -/

/-- Where an Accept can begin and at the host's turn, a step with a legal descriptor at the head of CMD is `exec` of the
command it decodes to, in the state whose turn has been taken; where an Accept waits for its payload, it is `exec` of that
command in the state in which PHASE is IDLE and descriptor and bytes are back on the channels (entry 11). -/
def Obligations.StepRunsPresentedCommand : Prop :=
  (∀ (s : State) (d : Descriptor) (rest : List Descriptor) (i : Instr), s.acceptReady = true → s.cmd = d :: rest →
    decode d = .ok i → nextTurn s = .go → step s = exec i { s with sched := s.sched.tail }) ∧
  (∀ (s : State) (x : Accepting) (i : Instr), (s.phase = .brkCfg ∨ s.phase = .dataCfg) → s.waitRsp = false →
    s.taking = some x → decode x.desc = .ok i → nextTurn s = .go → step s = exec i
      { s with sched := s.sched.tail, phase := .idle, taking := none, cmd := x.desc :: s.cmd, pay := x.got ++ s.pay })

/-- SEND_BREAK is accepted when an Accept can begin (R120, R26): the command register, the payload (empty), PHASE and WAITRSP are written;
everything else, FB, FLEN and TMR among it, is untouched. -/
def Obligations.SendBreakIsAccepted : Prop :=
  ∀ s : State, s.acceptReady = true →
    exec .sendBreak s = .next
      { s with
        phase := .brkCfg, waitRsp := false, op := 1, sc := 0, len := 0, pb := [], cmd := s.cmd.tail,
        trace := s.trace ++ [(s.now, Event.accept 0x00000001 [])] }

/-- SEND_RAW_DATA is accepted when an Accept can begin with its payload supplied (R124, R26), and goes straight to DATA_CFG. -/
def Obligations.SendRawDataIsAccepted : Prop :=
  ∀ (n : Nat) (s : State), n ≤ 65535 → s.acceptReady = true → n ≤ s.pay.length →
    exec (.sendRawData n) s = .next
      { s with
        phase := .dataCfg, waitRsp := false, op := 2, sc := 0, len := BitVec.ofNat 16 n, pb := s.pay.take n,
        cmd := s.cmd.tail, pay := s.pay.drop n,
        trace := s.trace ++ [(s.now, Event.accept (BitVec.ofNat 32 (n * 65536 + 2)) (s.pay.take n))] }

/-- SEND_RAW_PACKET is accepted when an Accept can begin with its payload supplied (R140, R26), and goes to BRK_CFG. -/
def Obligations.SendRawPacketIsAccepted : Prop :=
  ∀ (n : Nat) (s : State), n ≤ 65535 → s.acceptReady = true → n ≤ s.pay.length →
    exec (.sendRawPacket n) s = .next
      { s with
        phase := .brkCfg, waitRsp := false, op := 3, sc := 0, len := BitVec.ofNat 16 n, pb := s.pay.take n,
        cmd := s.cmd.tail, pay := s.pay.drop n,
        trace := s.trace ++ [(s.now, Event.accept (BitVec.ofNat 32 (n * 65536 + 3)) (s.pay.take n))] }

/-- SEND_PACKET and SEND_ALT_PACKET are accepted when an Accept can begin with their payload supplied (R160, R161, R26): the registers, the
frame in FB[0..FLEN) and FLEN are written, no request is issued before the frame stands, and the rest is untouched. -/
def Obligations.FrameCommandsAreAccepted : Prop :=
  ∀ (i : Instr) (n : Nat) (sc : Byte) (s : State), (i = .sendPacket n ∧ sc = 0 ∨ i = .sendAltPacket n sc) →
    n ≤ 65535 → s.acceptReady = true → n ≤ s.pay.length →
    ∃ t : State, exec i s = .next t ∧
      t.phase = .brkCfg ∧ t.waitRsp = false ∧ t.op = (if i = .sendPacket n then 4 else 5) ∧ t.sc = sc ∧
      t.len.toNat = n ∧ t.pb = s.pay.take n ∧ t.pay = s.pay.drop n ∧ t.cmd = s.cmd.tail ∧
      t.flen.toNat = min n 512 + 1 ∧
      Memory.readRun t.fb 0 (min n 512 + 1) = .ok (sc :: (s.pay.take n).take 512) ∧
      t.trace = s.trace ++ [(s.now, Event.accept (encode i) (s.pay.take n))] ∧
      t.taking = none ∧ t.tmr = s.tmr ∧ t.trsp = s.trsp ∧ t.sched = s.sched ∧ t.now = s.now ∧ t.line = s.line

/-- The frame of the three commands that build no frame: when `exec` gives a next state, every byte of FB reads as
before and FLEN, TRSP, the schedule and the line are unchanged; TMR is unchanged in IDLE. If the payload is not there, the
descriptor and the bytes that are there have left the channels, PHASE is at the command's first phase and a cycle has
passed (entry 11). That `exec` asked where no Accept can begin lets a cycle pass is the model's choice (entry 21). -/
def Obligations.RawCommandFrame : Prop :=
  ∀ (i : Instr) (n : Nat) (s t : State), (i = .sendBreak ∧ n = 0 ∨ i = .sendRawData n ∨ i = .sendRawPacket n) →
    exec i s = .next t →
    (∀ a, Memory.read t.fb a = Memory.read s.fb a) ∧ t.flen = s.flen ∧ t.trsp = s.trsp ∧ t.sched = s.sched ∧
    t.line = s.line ∧ (s.phase = .idle → t.tmr = s.tmr) ∧
    (s.acceptReady = true → s.pay.length < n → t =
      { s with
        now := s.now + 1, phase := if i = .sendRawData n then .dataCfg else .brkCfg, waitRsp := false,
        taking := some { desc := encode i, got := s.pay }, cmd := s.cmd.tail, pay := [] }) ∧
    (s.acceptReady = false → t = { s with now := s.now + 1, tmr := if s.phase = .settle then s.tmr + 1 else s.tmr })

/-- The frame of the two commands that build a frame (R162, R167): they store to FB[0..n+1), `n` the channel count of the
LEN register they load; every index outside reads as before. If the payload is not there, the descriptor and the bytes
that are there have left the channels, PHASE is at the command's first phase and a cycle has passed (entry 11). That
`exec` asked where no Accept can begin lets a cycle pass is the model's choice (entry 21). -/
def Obligations.FrameCommandFrame : Prop :=
  ∀ (i : Instr) (n : Nat) (sc : Byte) (s t : State), (i = .sendPacket n ∨ i = .sendAltPacket n sc) →
    exec i s = .next t →
    (∀ a, ¬a < channelCount (loadCommand i s).len.toNat + 1 → Memory.read t.fb a = Memory.read s.fb a) ∧
    t.trsp = s.trsp ∧ t.sched = s.sched ∧ t.line = s.line ∧ (s.phase = .idle → t.tmr = s.tmr) ∧
    (s.acceptReady = true → s.pay.length < n → t =
      { s with
        now := s.now + 1, phase := .brkCfg, waitRsp := false, taking := some { desc := encode i, got := s.pay },
        cmd := s.cmd.tail, pay := [] }) ∧
    (s.acceptReady = false → t = { s with now := s.now + 1, tmr := if s.phase = .settle then s.tmr + 1 else s.tmr })

/-- A command before whose payload is there begins its Accept and waits with BUSY = 1 (R75, R246), PHASE at its first phase
and no request issued, everything else of DMXTX's registers as it was (how the bytes are held is entry 11). A command
presented where no Accept can begin stays presented and only time passes: that is the model's choice of what `exec`
answers there (entry 21). -/
def Obligations.CommandWaitsWhileNotReady : Prop :=
  ∀ (i : Instr) (s : State),
    (s.acceptReady = true → s.pay.length < i.payloadLen → ∃ t : State, exec i s = .next t ∧ t.busy = true ∧
      t.cmdReady = false ∧
      t = { s with
            now := s.now + 1, phase := if i.opcode = 2 then .dataCfg else .brkCfg, waitRsp := false,
            taking := some { desc := encode i, got := s.pay }, cmd := s.cmd.tail, pay := [] }) ∧
    (s.acceptReady = false →
      exec i s = .next { s with now := s.now + 1, tmr := if s.phase = .settle then s.tmr + 1 else s.tmr })

/-- No command is taken while DMXTX is busy (R26, R71), nor before the descriptor taken last has its payload (R75): a step
from such a state leaves CMD as it is. While a command is in progress, its Accept complete, it leaves PAY, the command
register, the payload, FB and FLEN as they are too. That a reset turn leaves the registers (entry 5) and the channels
(entry 26) is the model's choice, that an illegal descriptor waits in IDLE its reading (entry 11). -/
def Obligations.BusyStepTakesNoCommand : Prop :=
  ∀ s t : State, s.acceptReady = false → step s = .next t →
    t.cmd = s.cmd ∧
    (inProgress s → t.pay = s.pay ∧ t.op = s.op ∧ t.sc = s.sc ∧ t.len = s.len ∧ t.pb = s.pb ∧
      (∀ a, Memory.read t.fb a = Memory.read s.fb a) ∧ t.flen = s.flen)

/-- BUSY is `(PHASE != IDLE)` and CMD.ready is not BUSY (R35, R71); and where an Accept waits for its payload BUSY is 1 for a
legal command (R246) and 0 for an illegal descriptor, for which "`PHASE` stays `IDLE`" (R203). That PHASE stands at the
command's first phase during the wait is the model's reading (entry 11). -/
def Obligations.BusyAndReady : Prop :=
  ∀ s : State, (s.busy = true ↔ s.phase ≠ .idle) ∧ (s.cmdReady = true ↔ s.phase = .idle) ∧
    (RegistersInv s → ∀ x, s.taking = some x → (s.busy = true ↔ ∃ i, decode x.desc = .ok i))

/-! ### The frame builder -/

/-- R162: what `build_frame()` writes, for a payload of LEN bytes. -/
def Obligations.BuildFrameWritesTheFrame : Prop :=
  ∀ s : State, s.pb.length = s.len.toNat →
    (buildFrame s).flen.toNat = min s.len.toNat 512 + 1 ∧
    Memory.read (buildFrame s).fb 0 = .ok s.sc ∧
    (∀ i b, i < min s.len.toNat 512 → s.pb[i]? = some b → Memory.read (buildFrame s).fb (1 + i) = .ok b) ∧
    Memory.readRun (buildFrame s).fb 0 (buildFrame s).flen.toNat = .ok (s.sc :: s.pb.take (min s.len.toNat 512)) ∧
    buildFrame s = { s with fb := (buildFrame s).fb, flen := (buildFrame s).flen } ∧
    (Memory.wf s.fb = true → Memory.wf (buildFrame s).fb = true)

/-! ### The sequencer's steps -/

/-- R27: the request of each transport phase, whatever the line is at; the first request of a command once its Accept is
complete ("all `LEN` bytes are consumed with the descriptor, before the first transport request", D12; entry 11). -/
def Obligations.IssueEmitsThePhasesRequest : Prop :=
  ∀ s : State, s.waitRsp = false → s.taking = none → nextTurn s = .go →
    (s.phase = .brkCfg → step s = .next
      { s with sched := s.sched.tail, waitRsp := true, line := s.line.configureArrives hardwired s.now,
               trace := s.trace ++ [(s.now, Event.cfgReq breakProfile)] }) ∧
    (s.phase = .brkWr → step s = .next
      { s with sched := s.sched.tail, waitRsp := true, line := s.line.writeArrives [0x00],
               trace := s.trace ++ [(s.now, Event.wrReq [0x00])] }) ∧
    (s.phase = .dataCfg → step s = .next
      { s with sched := s.sched.tail, waitRsp := true, line := s.line.configureArrives hardwired s.now,
               trace := s.trace ++ [(s.now, Event.cfgReq dataProfile)] }) ∧
    (s.phase = .dataWr → ∀ bs, transmitData s = .ok bs → step s = .next
      { s with sched := s.sched.tail, waitRsp := true, line := s.line.writeArrives bs,
               trace := s.trace ++ [(s.now, Event.wrReq bs)] })

/-- What DATA_WR writes (R33, R23): the payload for the raw commands, the frame for the packet commands, one request. -/
def Obligations.DataWriteCarriesTheTransmitData : Prop :=
  ∀ s : State, RegistersInv s → s.phase = .dataWr → s.waitRsp = false → nextTurn s = .go →
    ∃ t : State, step s = .next t ∧ t.waitRsp = true ∧ t.phase = .dataWr ∧
      ((s.op = 2 ∨ s.op = 3) → t.events = s.events ++ [Event.wrReq s.pb]) ∧
      ((s.op = 4 ∨ s.op = 5) → t.events = s.events ++ [Event.wrReq (s.sc :: s.pb.take 512)])

/-- R28 and R29: an `ok` answer clears WAITRSP and takes the row of advance() for its phase. -/
def Obligations.OkAnswerAdvances : Prop :=
  ∀ (s : State) (rest : List Answer), s.waitRsp = true → nextTurn s = .go → s.trsp = .ok :: rest →
    (s.phase = .brkCfg → ∃ t : State, step s = .next t ∧ t.phase = .brkWr ∧ t.waitRsp = false ∧ t.tmr = s.tmr ∧ t.trsp = rest ∧
      t.trace = s.trace ++ [(s.now, Event.cfgRsp .ok)]) ∧
    (s.phase = .brkWr → s.op = 1 → ∃ t : State, step s = .next t ∧ t.phase = .idle ∧ t.waitRsp = false ∧ t.tmr = s.tmr ∧
      t.trsp = rest ∧ t.trace = s.trace ++ [(s.now, Event.wrRsp .ok), (s.now, Event.resp .ok)]) ∧
    (s.phase = .brkWr → (s.op = 3 ∨ s.op = 4 ∨ s.op = 5) → ∃ t : State, step s = .next t ∧ t.phase = .settle ∧
      t.waitRsp = false ∧ t.tmr = 0 ∧ t.trsp = rest ∧
      t.trace = s.trace ++ [(s.now, Event.wrRsp .ok), (s.now, Event.settleStart)]) ∧
    (s.phase = .dataCfg → ∃ t : State, step s = .next t ∧ t.phase = .dataWr ∧ t.waitRsp = false ∧ t.tmr = s.tmr ∧ t.trsp = rest ∧
      t.trace = s.trace ++ [(s.now, Event.cfgRsp .ok)]) ∧
    (s.phase = .dataWr → ∃ t : State, step s = .next t ∧ t.phase = .idle ∧ t.waitRsp = false ∧ t.tmr = s.tmr ∧ t.trsp = rest ∧
      t.trace = s.trace ++ [(s.now, Event.wrRsp .ok), (s.now, Event.resp .ok)])

/-- R206: an error answer in any transport phase aborts the command: WAITRSP and PHASE cleared, the error answered
unchanged, nothing else of DMXTX's registers changed. -/
def Obligations.ErrorAnswerAborts : Prop :=
  ∀ (s : State) (e : TransportError) (rest : List Answer), isTransportPhase s.phase = true → s.waitRsp = true →
    nextTurn s = .go → s.trsp = .err e :: rest →
    step s = .next
      { s with
        sched := s.sched.tail, waitRsp := false, phase := .idle, trsp := rest, line := s.line.answered hardwired s.phase (.err e),
        trace := s.trace ++ [(s.now, answerEvent s.phase (.err e)), (s.now, Event.resp (.err e))] } ∧
    Response.st (.err e) = 1 + e.kind.bit ∧ Response.info (.err e) = e.info

/-- R83: for a failing transaction with status word `w` the response word is `1 + w[1]` in bits 1:0 and `w`'s own INFO
above, whatever the phase and whether or not the kind fits the request. -/
def Obligations.ErrorWordIsPassedOnUnchanged : Prop :=
  ∀ (errw : Nat) (w : BitVec (errw + 2)) (s : State) (rest : List Answer), w.getLsbD 0 = true →
    isTransportPhase s.phase = true → s.waitRsp = true → nextTurn s = .go → s.trsp = answerOfStatus errw w :: rest →
    ∃ t v, step s = .next t ∧ rspMessages errw t = rspMessages errw s ++ [v] ∧
      v.toNat % 4 = 1 + (w.getLsbD 1).toNat ∧ v.extractLsb' 2 errw = w.extractLsb' 2 errw

/-- R30: a step of SETTLE ticks until TMR reaches SETTLE_CYCLES and then ends the wait; it never fails. -/
def Obligations.SettleTicksThenEnds : Prop :=
  ∀ (c : Params) (s : State), s.phase = .settle → nextTurn s = .go →
    (s.tmr < settleCycles c → stepWith c s = .next { s with sched := s.sched.tail, now := s.now + 1, tmr := s.tmr + 1 }) ∧
    (settleCycles c ≤ s.tmr → stepWith c s = .next
      { s with sched := s.sched.tail, phase := .dataCfg, waitRsp := false, trace := s.trace ++ [(s.now, Event.settleEnd)] })

/-- The settle wait has no upper bound (R110, R245): it can be prolonged by any number of cycles. -/
def Obligations.SettleMayLastAnyLonger : Prop :=
  ∀ (n : Nat) (s : State), s.phase = .settle → s.sched = List.replicate n .hold →
    run n s = .next { s with now := s.now + n, tmr := s.tmr + n, sched := [] }

/-- No timeout (R246): a request that is never answered, and an Accept whose payload is never supplied, keep DMXTX waiting
with BUSY = 1 for any number of steps and whatever the turns, as long as no reset comes; a reset ends the wait. A payload
that is not there when its command is taken leads into that wait (how the bytes are held is entry 11). -/
def Obligations.NoTimeoutIsImposed : Prop :=
  (∀ (k : Nat) (s : State),
    ((isTransportPhase s.phase = true ∧ s.waitRsp = true ∧ s.trsp = []) ∨
      ((s.phase = .brkCfg ∨ s.phase = .dataCfg) ∧ s.waitRsp = false ∧ ∃ x i, s.taking = some x ∧
        decode x.desc = .ok i ∧ x.got.length + s.pay.length < x.desc.len.toNat)) →
    (noReset s.sched = true → ∃ t : State, run k s = .next t ∧ t.busy = true ∧ t.events = s.events) ∧
    (s.sched.head? = some .rst → ∃ t : State, step s = .next t ∧ t.busy = false ∧ t.taking = none)) ∧
  (∀ (s : State) (d : Descriptor) (rest : List Descriptor) (i : Instr), s.acceptReady = true → nextTurn s = .go →
    s.cmd = d :: rest → decode d = .ok i → s.pay.length < d.len.toNat →
    step s = .next
      { s with
        sched := s.sched.tail, now := s.now + 1, phase := if d.op = 2 then .dataCfg else .brkCfg, waitRsp := false,
        taking := some { desc := d, got := s.pay }, cmd := rest, pay := [] })

/-- An illegal descriptor waits for its payload without bound too (R75), in IDLE (R203): nothing happens for any number of
steps as long as no reset comes, no other descriptor is taken, and a reset ends the wait. How the bytes are held is entry
11. -/
def Obligations.IllegalDescriptorWaitsForItsPayload : Prop :=
  (∀ (k : Nat) (s : State) (x : Accepting) (e : DecodeError), s.phase = .idle → s.taking = some x →
    decode x.desc = .error e → x.got.length + s.pay.length < x.desc.len.toNat →
    (noReset s.sched = true → ∃ t : State, run k s = .next t ∧ t.phase = .idle ∧ t.cmd = s.cmd ∧ t.events = s.events) ∧
    (s.sched.head? = some .rst → ∃ t : State, step s = .next t ∧ t.acceptReady = true)) ∧
  (∀ (s : State) (d : Descriptor) (rest : List Descriptor) (e : DecodeError), s.acceptReady = true → nextTurn s = .go →
    s.cmd = d :: rest → decode d = .error e → s.pay.length < d.len.toNat →
    step s = .next
      { s with
        sched := s.sched.tail, now := s.now + 1, taking := some { desc := d, got := s.pay }, cmd := rest, pay := [] })

/-- PHASE never moves backwards within a command (R24): a step goes to a phase with no smaller code, or to IDLE. -/
def Obligations.PhaseNeverMovesBackwards : Prop :=
  ∀ s t : State, RegistersInv s → step s = .next t → t.phase = .idle ∨ s.phase.code.toNat ≤ t.phase.code.toNat

/-- R31: PHASE returns to IDLE by Resp(ok) from advance(), by Resp(err(e)) from a transport error, or by reset; and the
refusal of an illegal descriptor never leaves IDLE. -/
def Obligations.IdleIsReachedInThreeWays : Prop :=
  (∀ s t : State, RegistersInv s → step s = .next t → s.phase ≠ .idle → t.phase = .idle →
    (s.waitRsp = true ∧ s.trsp.head? = some .ok ∧
      t.events = s.events ++ [answerEvent s.phase .ok, Event.resp .ok]) ∨
    (∃ e, s.waitRsp = true ∧ s.trsp.head? = some (.err e) ∧
      t.events = s.events ++ [answerEvent s.phase (.err e), Event.resp (.err e)]) ∨
    t.events = s.events ++ [Event.reset]) ∧
  (∀ (d : Descriptor) (s t : State), refuseIllegal d s = .next t → s.phase = .idle → t.phase = .idle)

/-! ### Reset -/

/-- Reset beats every step (R211, R230): PHASE, WAITRSP and TMR take their reset values, no response and no request is
emitted (R231); LINEPROF is unknown from then on, and the transport's queue and line are not reached (R232). That the
answer to an outstanding request is dropped with it (entry 6), that it takes one clock cycle (entry 25) and that what the
host presents stays on CMD and PAY (entry 26) are the model's choices. -/
def Obligations.ResetAbandonsTheCommand : Prop :=
  ∀ (s : State) (ts : List Turn), s.sched = .rst :: ts →
    ∃ t : State, step s = .next t ∧ t.phase = .idle ∧ t.waitRsp = false ∧ t.tmr = 0 ∧ t.busy = false ∧ t.cmdReady = true ∧
      t.taking = none ∧ t.acceptReady = true ∧ t.now = s.now + 1 ∧ t.sched = ts ∧ t.events = s.events ++ [Event.reset] ∧ t.events.filterMap rspOf = s.events.filterMap rspOf ∧
      treqMessages t = treqMessages s ∧ tdatMessages t = tdatMessages s ∧
      t.line.lineProf = none ∧ t.line.txq = s.line.txq ∧ t.line.began = s.line.began ∧
      t.line.wire = s.line.wire ∧ t.cmd = s.cmd ∧ t.pay = s.pay ∧
      t.trsp = (if s.waitRsp then s.trsp.tail else s.trsp)

/-- What the spec gives of the state after reset (R20, R230; LINEPROF unknown: R40, R232), and that every invariant holds
there. That the trace, TXQ and the wire are empty, on which the invariants of the events and of the line rest, is the
model's choice (entry 22). -/
def Obligations.ResetStateMeetsTheInvariants : Prop :=
  State.reset.phase = .idle ∧ State.reset.waitRsp = false ∧ State.reset.tmr = 0 ∧ State.reset.busy = false ∧
  State.reset.cmdReady = true ∧ State.reset.taking = none ∧ State.reset.line.lineProf = none ∧
  RegistersInv State.reset ∧ OrderInv State.reset ∧ ProfileInv State.reset ∧ DeterminedInv State.reset ∧
  ∀ c : Params, TimeInv c State.reset ∧ LineInv c State.reset

/-! ### Whole-machine invariants -/

/-- Every step keeps the registers' invariant (R20, R23, R25, R45, R50). -/
def Obligations.StepKeepsRegistersInv : Prop :=
  ∀ s t : State, RegistersInv s → step s = .next t → RegistersInv t

/-- From a state that meets the registers' invariant no step faults or refuses: DMXTX goes on for ever. -/
def Obligations.StepNeverStops : Prop :=
  ∀ s : State, RegistersInv s → ∃ t : State, step s = .next t

/-- Every step keeps the order of events (R60 within a command, R61 across commands, R203, R206, R231). -/
def Obligations.StepKeepsTheOrderOfEvents : Prop :=
  ∀ s t : State, RegistersInv s → OrderInv s → step s = .next t → OrderInv t

/-- Every step keeps the law of the settle wait (R110, R142), for every value of the parameters. -/
def Obligations.StepKeepsTheSettleLaw : Prop :=
  ∀ (c : Params) (s t : State), TimeInv c s → stepWith c s = .next t → TimeInv c t

/-- Every step keeps this: when a write is due or outstanding, the line is at its command's profile (R109, R40). -/
def Obligations.StepKeepsTheWriteProfile : Prop :=
  ∀ s t : State, ProfileInv s → step s = .next t → ProfileInv t

/-- With a transport that drains (TA4), every step keeps this: each byte queued or sent has a determined profile and no
character is cut (R188). And the profile is that of the byte's own command (R109, TA1): a byte that a step takes into TXQ in
BRK_WR has BREAK_PROFILE and one it takes in DATA_WR has DATA_PROFILE, no queued byte changes, and a character goes onto
the line with the byte and the profile of the oldest one. -/
def Obligations.StepKeepsProfilesDetermined : Prop :=
  ∀ (c : Params) (s t : State), c.cfgApply = .drain → DeterminedInv s → stepWith c s = .next t →
    DeterminedInv t ∧
    (∀ q ∈ t.line.txq, q ∈ s.line.txq ∨ (s.phase = .brkWr ∧ q.prof = some breakProfile) ∨
      (s.phase = .dataWr ∧ q.prof = some dataProfile)) ∧
    (∀ x ∈ t.line.wire, x ∈ s.line.wire ∨
      ∃ q, s.line.txq.head? = some q ∧ x.byte = q.byte ∧ x.prof = q.prof)

/-- Every step keeps this: characters on the line do not overlap (R186 TA3, R187), for every value of the parameters. -/
def Obligations.StepKeepsCharactersApart : Prop :=
  ∀ (c : Params) (s t : State), LineInv c s → stepWith c s = .next t → LineInv c t

/-! ### Runs of a command -/

/-- Every command, once accepted, runs to its response and its events are those of its big-step pseudocode (R120, R124,
R140, R160, R161, R169), for every answer the transport gives. -/
def Obligations.CommandRunsToItsResponse : Prop :=
  ∀ (i : Instr) (s : State), i.wellFormed = true → s.acceptReady = true → s.sched = [] → i.payloadLen ≤ s.pay.length →
    transactionCount i ≤ s.trsp.length →
    ∃ t : State, exec i s = .next t ∧
      ∃ (k : Nat) (u : State), run k t = .next u ∧ u.phase = .idle ∧ u.waitRsp = false ∧
        u.events = s.events ++ Event.accept (encode i) (s.pay.take i.payloadLen) ::
          commandEvents i (s.pay.take i.payloadLen) s.trsp

/-- R141: the transport trace of a successful SEND_RAW_PACKET is exactly four requests and one wait, in this order. -/
def Obligations.SuccessfulRawPacketTrace : Prop :=
  ∀ (n : Nat) (s : State) (rest : List Answer), n ≤ 65535 → s.acceptReady = true → s.sched = [] → n ≤ s.pay.length →
    s.trsp = .ok :: .ok :: .ok :: .ok :: rest →
    ∃ t : State, exec (.sendRawPacket n) s = .next t ∧
      ∃ (k : Nat) (u : State), run k t = .next u ∧ u.phase = .idle ∧ u.trsp = rest ∧
        u.events = t.events ++
          [Event.cfgReq breakProfile, Event.cfgRsp .ok, Event.wrReq [0x00], Event.wrRsp .ok, Event.settleStart, Event.settleEnd,
           Event.cfgReq dataProfile, Event.cfgRsp .ok, Event.wrReq (s.pay.take n), Event.wrRsp .ok, Event.resp .ok]

/-- The data write of a packet command carries the start code and at most 512 channels (R163, R164, R165): exactly
`min(L, 512) + 1` bytes, and a longer channel list is no error. -/
def Obligations.SuccessfulFrameCommandTrace : Prop :=
  ∀ (i : Instr) (n : Nat) (sc : Byte) (s : State) (rest : List Answer),
    (i = .sendPacket n ∧ sc = 0 ∨ i = .sendAltPacket n sc) → n ≤ 65535 → s.acceptReady = true → s.sched = [] →
    n ≤ s.pay.length → s.trsp = .ok :: .ok :: .ok :: .ok :: rest →
    ∃ t : State, exec i s = .next t ∧
      ∃ (k : Nat) (u : State) (bs : List Byte), run k t = .next u ∧ u.phase = .idle ∧ u.trsp = rest ∧ bs = sc :: (s.pay.take n).take 512 ∧
        bs.length = min n 512 + 1 ∧
        u.events = t.events ++
          [Event.cfgReq breakProfile, Event.cfgRsp .ok, Event.wrReq [0x00], Event.wrRsp .ok, Event.settleStart, Event.settleEnd,
           Event.cfgReq dataProfile, Event.cfgRsp .ok, Event.wrReq bs, Event.wrRsp .ok, Event.resp .ok]

/-- SEND_BREAK does not wait (R120, R122) and SEND_RAW_DATA adds no framing and writes any length, the empty one too
(R124, R126, R108): their successful traces. -/
def Obligations.SuccessfulBreakAndRawDataTraces : Prop :=
  ∀ (s : State) (rest : List Answer), s.acceptReady = true → s.sched = [] → s.trsp = .ok :: .ok :: rest →
    (∃ t : State, exec .sendBreak s = .next t ∧ ∃ (k : Nat) (u : State), run k t = .next u ∧ u.phase = .idle ∧ u.trsp = rest ∧
      u.events = t.events ++
        [Event.cfgReq breakProfile, Event.cfgRsp .ok, Event.wrReq [0x00], Event.wrRsp .ok, Event.resp .ok]) ∧
    (∀ n, n ≤ 65535 → n ≤ s.pay.length →
      ∃ t : State, exec (.sendRawData n) s = .next t ∧ ∃ (k : Nat) (u : State), run k t = .next u ∧ u.phase = .idle ∧ u.trsp = rest ∧
        u.events = t.events ++
          [Event.cfgReq dataProfile, Event.cfgRsp .ok, Event.wrReq (s.pay.take n), Event.wrRsp .ok, Event.resp .ok])

/-- R207: if the answers before it are `ok` and the `j+1`-th is an error, exactly `j+1` requests are issued, the error is
the response, and no later phase runs: an error of the break phase starts no settle wait, an error of a configure hands
no data byte over. -/
def Obligations.FirstErrorEndsTheCommand : Prop :=
  ∀ (i : Instr) (s : State) (j : Nat) (e : TransportError) (rest : List Answer), i.wellFormed = true →
    s.acceptReady = true → s.sched = [] → i.payloadLen ≤ s.pay.length → j < transactionCount i →
    s.trsp = List.replicate j .ok ++ .err e :: rest →
    ∃ t : State, exec i s = .next t ∧
      ∃ (k : Nat) (u : State), run k t = .next u ∧ u.phase = .idle ∧ u.trsp = rest ∧
        (treqMessages u).length = (treqMessages s).length + (j + 1) ∧
        u.events.filterMap rspOf = s.events.filterMap rspOf ++ [.err e] ∧
        (j < 2 → (∃ n, i = .sendRawPacket n ∨ i = .sendPacket n ∨ ∃ sc, i = .sendAltPacket n sc) →
          u.events.count Event.settleStart = s.events.count Event.settleStart) ∧
        (j = 0 → tdatMessages u = tdatMessages s) ∧
        (j = 2 → tdatMessages u = tdatMessages s ++ [0x00])

/-- R160: SEND_PACKET and SEND_ALT_PACKET with start code 0x00 are observably equivalent: however long both run, the
events after Accept, their times, PHASE and the line are the same. -/
def Obligations.SendPacketEqualsAltPacketZero : Prop :=
  ∀ (n k : Nat) (s t u t' : State), exec (.sendPacket n) s = .next t → exec (.sendAltPacket n 0) s = .next u →
    run k t = .next t' →
    ∃ u' : State, run k u = .next u' ∧ t'.phase = u'.phase ∧ t'.now = u'.now ∧ t'.line = u'.line ∧
      t'.trace.drop (s.trace.length + 1) = u'.trace.drop (s.trace.length + 1)

/-- No cross-call state (R21, R43): two idle machines that differ in the command register, the payload, the frame buffer
and the timer behave alike for ever. -/
def Obligations.DeadRegistersDoNotMatter : Prop :=
  ∀ (k : Nat) (s s' t : State), s.phase = .idle → SameButDead s s' → run k s = .next t →
    ∃ t' : State, run k s' = .next t' ∧ SameButDead t t'

/-- R32: the sequence of events is a function of the inputs alone: whatever the turns (without reset), of two runs from
one state one's events continue the other's. -/
def Obligations.TurnsDoNotChangeTheEvents : Prop :=
  ∀ (k l : Nat) (a b : List Turn) (s t u : State), noReset a = true → noReset b = true →
    run k { s with sched := a } = .next t → run l { s with sched := b } = .next u →
    t.events <+: u.events ∨ u.events <+: t.events

/-! ### The constants, the formats, the clock -/

/-- The two profiles (R36, R37): every field. -/
def Obligations.ProfilesAreHardwired : Prop :=
  breakProfile = ⟨.standard 57600, 7, .none, .one, .none⟩ ∧
  dataProfile = ⟨.custom 250000, 8, .none, .two, .none⟩ ∧
  bitsPerSecond breakProfile ≠ bitsPerSecond dataProfile

/-- R85: the only two CONFIGURE headers DMXTX emits, and the WRITE headers of common lengths. -/
def Obligations.RequestHeadersOfTheSpec : Prop :=
  configureHeader breakProfile = 0x001C0001C200 ∧ configureHeader dataProfile = 0x01220007A120 ∧
  writeHeader 0 = 0x000000000001 ∧ writeHeader 1 = 0x000000000003 ∧ writeHeader 5 = 0x00000000000B ∧
  writeHeader 513 = 0x000000000403 ∧
  ∀ (s : State) (p : SerialProfile), requestOf s = .ok (.cfg p) →
    configureHeader p = 0x001C0001C200 ∨ configureHeader p = 0x01220007A120

/-- The status word of an answer carries it without loss when the error information fits ERRW (R87); `ok` is told from
`err` by bit 0, the kind by bit 1. -/
def Obligations.StatusWordCarriesTheAnswer : Prop :=
  ∀ (errw : Nat) (a : Answer), (∀ e, a = .err e → e.info < 2 ^ errw) →
    answerOfStatus errw (statusWord errw a) = a ∧
    (statusWord errw a).getLsbD 0 = decide (a ≠ .ok) ∧
    (∀ e, a = .err e → (statusWord errw a).getLsbD 1 = decide (e.kind = .writeError))

/-- SETTLE_CYCLES is the least number of cycles that lasts SETTLE_NS (R8, D6): the wait covers the settle duration and
overshoots it by less than one clock period (R245). -/
def Obligations.SettleCyclesCoverTheSettleDuration : Prop :=
  ∀ c : Params, 0 < c.fClk →
    (c.settleNs : Rat) ≤ timeNs c (settleCycles c) ∧
    ∀ k, k < settleCycles c → timeNs c k < (c.settleNs : Rat)

/-! ### The line -/

/-- R184: the bit time of a profile, and of the two profiles. -/
def Obligations.BitTimes : Prop :=
  (∀ p : SerialProfile, bitTimeNs p = 10 ^ 9 / (bitsPerSecond p : Rat)) ∧
  bitTimeNs breakProfile = 10 ^ 9 / 57600 ∧ 173610 < 10 * bitTimeNs breakProfile ∧
  10 * bitTimeNs breakProfile < 173612 ∧ bitTimeNs dataProfile = 4000

/-- R185: the byte 0x00 at BREAK_PROFILE is 8 bit times low and one stop bit high, 156,250 ns in all. -/
def Obligations.BreakCharacterOnTheLine : Prop :=
  charLevels breakProfile 0x00 = List.replicate 8 .low ++ [.high] ∧
  lowNs breakProfile 0x00 = 8 * (10 ^ 9 / 57600) ∧ stopNs breakProfile = 10 ^ 9 / 57600 ∧
  charNs breakProfile = 156250

/-- R190: every byte at DATA_PROFILE is a start bit, its 8 data bits least significant first, and 2 stop bits, 44,000 ns;
513 of them last 22,572,000 ns. -/
def Obligations.DataCharacterOnTheLine : Prop :=
  (∀ b : Byte, charLevels dataProfile b =
    [.low, levelOfBit (b.getLsbD 0), levelOfBit (b.getLsbD 1), levelOfBit (b.getLsbD 2), levelOfBit (b.getLsbD 3),
     levelOfBit (b.getLsbD 4), levelOfBit (b.getLsbD 5), levelOfBit (b.getLsbD 6), levelOfBit (b.getLsbD 7), .high, .high]) ∧
  charBits dataProfile = 11 ∧ charNs dataProfile = 44000 ∧ 513 * charNs dataProfile = 22572000

/-- The computed times: what the protocol's minimums ask, two lower bounds and no maximum, and that the break and its stop bit
meet them (R191); the settle duration not shorter than the least break but shorter than this one (R189); and the sum R193
gives for a packet. The framing of a character is general knowledge the spec adopts
(R183, entry 15). -/
def Obligations.PacketTimesOnTheLine : Prop :=
  (∀ b m : Rat, meetsMinimums b m = true ↔ 92000 ≤ b ∧ 8000 ≤ m) ∧
  meetsMinimums (lowNs breakProfile 0x00) (stopNs breakProfile) = true ∧ minBreakNs ≤ (hardwired.settleNs : Rat) ∧
  (hardwired.settleNs : Rat) < lowNs breakProfile 0x00 ∧ lowNs breakProfile 0x00 < charNs breakProfile ∧
  (∀ n : Nat, packetNs n = 156250 + 44000 * (n : Rat)) ∧ packetNs 513 = 22728250 ∧ packetNs 1 = 200250

/-- When a character of determined profile may end, its duration has passed in nanoseconds: with the law that characters
do not overlap, the first data character begins at least 156,250 ns after the break does (R187). -/
def Obligations.ElapsedCharacterHasLastedItsTime : Prop :=
  (∀ (c : Params) (p : SerialProfile) (t now : Nat), 0 < c.fClk → 0 < bitsPerSecond p →
    (charElapsed c p t now = true ↔ timeNs c t + charNs p ≤ timeNs c now)) ∧
  (∀ (c : Params) (s : State) (x y : SentChar) (l m r : List SentChar), 0 < c.fClk → LineInv c s →
    s.line.wire = l ++ x :: (m ++ y :: r) → x.prof = some breakProfile → x.cutAt = none →
    timeNs c x.start + 156250 ≤ timeNs c y.start)

/-- Where every profile is determined the line has a known level at every time so far (R195), and a break on it is eight bit
times low and one high from its start bit on (R187). -/
def Obligations.DeterminedLineHasAWaveform : Prop :=
  ∀ (c : Params) (s : State), 0 < c.fClk → DeterminedInv s → LineInv c s →
    (∀ u : Rat, 0 ≤ u → u < timeNs c s.now → ∃ l : Level, lineLevel c s u = some l) ∧
    (∀ (x : SentChar) (u : Rat), x ∈ s.line.wire → x.prof = some breakProfile → x.byte = breakByte →
      (timeNs c x.start ≤ u → u < timeNs c x.start + 8 * bitTimeNs breakProfile → lineLevel c s u = some .low) ∧
      (timeNs c x.start + 8 * bitTimeNs breakProfile ≤ u → u < timeNs c x.start + 156250 →
        lineLevel c s u = some .high))

/-- R182, TA2, R194: at every time so far at which no character is on the line, before, between and after them, it is
high. -/
def Obligations.IdleLineIsHigh : Prop :=
  ∀ (c : Params) (s : State) (u : Rat), 0 < c.fClk → LineInv c s → 0 ≤ u → u < timeNs c s.now →
    (∀ x ∈ charsOf s, u < timeNs c x.start ∨ charEndNs c x ≤ u) → lineLevel c s u = some .high

/-- R183, TA3: while a character of determined profile is on the line, completed or in progress, the line has in its `k`-th
bit time the level of its `k`-th bit, up to a configure that cuts it. -/
def Obligations.CharacterLevelsOnTheLine : Prop :=
  ∀ (c : Params) (s : State) (x : SentChar) (p : SerialProfile) (k : Nat) (l : Level) (u : Rat), 0 < c.fClk →
    LineInv c s → x ∈ charsOf s → x.prof = some p → 0 < bitsPerSecond p → (charLevels p x.byte)[k]? = some l →
    timeNs c x.start + k * bitTimeNs p ≤ u → u < timeNs c x.start + (k + 1) * bitTimeNs p → u < timeNs c s.now →
    (∀ m, x.cutAt = some m → u < timeNs c m) → lineLevel c s u = some l

/-- R187, R191, R193: an uncut break and the data characters after it on the line meet the wire contract. Low for 138,888.9 ns from the break's start,
then high up to the first data character, which begins at least 156,250 ns after the break did; from the break's start to
the end of the last stop bit it is at least 156,250 + 44,000 n ns. -/
def Obligations.PacketOnTheLine : Prop :=
  ∀ (c : Params) (s : State) (before after zs : List SentChar) (x y z : SentChar), 0 < c.fClk → LineInv c s →
    s.line.wire = before ++ x :: ((y :: zs) ++ after) → x.prof = some breakProfile → x.byte = breakByte →
    x.cutAt = none → (∀ w ∈ y :: zs, w.prof = some dataProfile ∧ w.cutAt = none) → (y :: zs).getLast? = some z →
    (∀ u : Rat, timeNs c x.start ≤ u → u < timeNs c x.start + 8 * (10 ^ 9 / 57600) → lineLevel c s u = some .low) ∧
    (∀ u : Rat, timeNs c x.start + 8 * (10 ^ 9 / 57600) ≤ u → u < timeNs c y.start → lineLevel c s u = some .high) ∧
    timeNs c x.start + 156250 ≤ timeNs c y.start ∧
    wireContract (s.line.waveform c s.now) (timeNs c x.start) (timeNs c y.start) ∧
    timeNs c x.start + packetNs (y :: zs).length ≤ timeNs c z.start + 44000

/-- R189: a break character cut by a configure that came no sooner than SETTLE_CYCLES after its start has been low for the
settle duration, as far as that is shorter than the break. What the line does from the cut on is unknown. -/
def Obligations.CutBreakHasBeenLow : Prop :=
  ∀ (c : Params) (s : State) (x : SentChar) (m : Nat) (u : Rat), 0 < c.fClk → LineInv c s → x ∈ charsOf s →
    x.prof = some breakProfile → x.byte = breakByte → x.cutAt = some m →
    (x.start + settleCycles c ≤ m → timeNs c x.start ≤ u → u < timeNs c x.start + (c.settleNs : Rat) →
      u < timeNs c x.start + 8 * bitTimeNs breakProfile → lineLevel c s u = some .low) ∧
    (timeNs c m ≤ u → u < timeNs c x.ended → lineLevel c s u = none)

/-- What the transport's answer to a write leaves in TXQ (R86, R107, R109): on `ok` all bytes, at the profile in force; on
`err` the part taken before, which can be any. -/
def Obligations.AnsweredWriteFillsTheQueue : Prop :=
  ∀ (s : State) (bs : List Byte) (rest : List Answer), (s.phase = .brkWr ∨ s.phase = .dataWr) → s.waitRsp = true →
    s.line.pend = bs →
    (nextTurn s = .go → s.trsp = .ok :: rest → ∀ t, step s = .next t →
      t.line.pend = [] ∧ t.line.txq = s.line.txq ++ bs.map (fun b => ⟨s.line.lineProf, b⟩)) ∧
    (∀ (n : Nat) (e : TransportError), n ≤ bs.length → s.sched = List.replicate n .takeByte → s.trsp = .err e :: rest →
      ∃ t : State, run (n + 1) s = .next t ∧ t.phase = .idle ∧ t.line.pend = [] ∧
        t.line.txq = s.line.txq ++ (bs.take n).map (fun b => ⟨s.line.lineProf, b⟩))

/-- What a configure does to the line (R103, R104, R188): on `ok` LINEPROF is the profile, on `err` it is unknown; with
`drain` the accepted bytes keep their profile, with the default `unspecified` nothing is assumed of them; with `immediate`
a character in progress is cut where it stands and keeps the profile it has gone out at, and on `ok` the bytes not yet
begun have the new profile. -/
def Obligations.ConfigureSetsTheLine : Prop :=
  ∀ (c : Params) (p : SerialProfile) (a : Answer) (now : Nat) (t : Transport),
    (((t.configureArrives c now).configureAnswered c p .ok).lineProf = some p) ∧
    (∀ e, ((t.configureArrives c now).configureAnswered c p (.err e)).lineProf = none) ∧
    (c.cfgApply = .drain → ((t.configureArrives c now).configureAnswered c p a).txq = t.txq) ∧
    (c.cfgApply = .unspecified → ∀ q ∈ ((t.configureArrives c now).configureAnswered c p a).txq, q.prof = none) ∧
    (c.cfgApply = .immediate → t.began = none →
      ∀ q ∈ ((t.configureArrives c now).configureAnswered c p .ok).txq, q.prof = some p) ∧
    (∀ (b : Started) (q : QueuedByte) (qs : List QueuedByte), c.cfgApply = .immediate → t.began = some b →
      t.txq = q :: qs →
      ((t.configureArrives c now).configureAnswered c p .ok).txq = q :: qs.map (fun x => { x with prof := some p }) ∧
      (charMayEnd c q.prof b now = false →
        (t.configureArrives c now).began = some { b with cutAt := some now }) ∧
      (charMayEnd c q.prof b now = true → (t.configureArrives c now).began = some b))
end

