-- ==== Sys2Proof/Laws/Fields.lean ====
section
/-! SUPPORT. The fields of a descriptor as arithmetic on its value, and the fields of an encoded command. -/

namespace Sys2Proof

theorem Descriptor.op_toNat (d : Descriptor) : (Descriptor.op d).toNat = d.toNat % 8 := by
  simp [Descriptor.op, BitVec.extractLsb'_toNat]

theorem Descriptor.rsv_toNat (d : Descriptor) : (Descriptor.rsv d).toNat = d.toNat / 8 % 32 := by
  simp [Descriptor.rsv, BitVec.extractLsb'_toNat, Nat.shiftRight_eq_div_pow]

theorem Descriptor.sc_toNat (d : Descriptor) : (Descriptor.sc d).toNat = d.toNat / 256 % 256 := by
  simp [Descriptor.sc, BitVec.extractLsb'_toNat, Nat.shiftRight_eq_div_pow]

theorem Descriptor.len_toNat (d : Descriptor) : (Descriptor.len d).toNat = d.toNat / 65536 := by
  have := d.isLt
  simp only [Descriptor.len, BitVec.extractLsb'_toNat, Nat.shiftRight_eq_div_pow]
  omega

/-- A well-formed command's length fits the LEN field. -/
theorem Instr.payloadLen_lt {i : Instr} (h : i.wellFormed = true) : i.payloadLen < 65536 := by
  cases i <;> simp [Instr.wellFormed, Instr.payloadLen, maxLen] at h ⊢ <;> omega

/-- The value of an encoded command. -/
theorem encode_toNat {i : Instr} (h : i.wellFormed = true) :
    (encode i).toNat = i.payloadLen * 65536 + i.startCode.toNat * 256 + i.opcode.toNat := by
  have h1 := Instr.payloadLen_lt h
  have h2 := i.startCode.isLt
  have h3 := i.opcode.isLt
  simp only [encode, BitVec.toNat_ofNat]
  omega

/-- A descriptor masked to its low bits. -/
theorem and_low_toNat (d : Descriptor) (k : Nat) (hk : k ≤ 32) :
    (d &&& BitVec.ofNat 32 (2 ^ k - 1)).toNat = d.toNat % 2 ^ k := by
  have h : 2 ^ k ≤ 2 ^ 32 := Nat.pow_le_pow_right (by decide) hk
  have hp : 0 < 2 ^ k := Nat.pow_pos (by decide)
  rw [BitVec.toNat_and, BitVec.toNat_ofNat, Nat.mod_eq_of_lt (show 2 ^ k - 1 < 2 ^ 32 by omega)]
  exact Nat.and_two_pow_sub_one_eq_mod _ _

/-- The checks of a row answer the command they were given, or refuse. -/
theorem needZeroStartCode_ok {d : Descriptor} {i j : Instr} (h : needZeroStartCode d i = .ok j) : j = i := by
  unfold needZeroStartCode at h
  split at h
  · injection h with h; exact h.symm
  · cases h

theorem needZeroLength_ok {d : Descriptor} {i j : Instr} (h : needZeroLength d i = .ok j) : j = i := by
  unfold needZeroLength at h
  split at h
  · injection h with h; exact h.symm
  · cases h

/-- What the decoder answers is well formed: its length comes from a 16-bit field. -/
theorem decode_wellFormed {d : Descriptor} {i : Instr} (h : decode d = .ok i) : i.wellFormed = true := by
  have hl := (Descriptor.len d).isLt
  unfold decode at h
  split at h
  · unfold decodeByOpcode at h
    split at h
    · cases hz : needZeroStartCode d .sendBreak with
      | error e => rw [hz] at h; cases h
      | ok j =>
        rw [hz] at h
        rw [needZeroLength_ok h, needZeroStartCode_ok hz]
        rfl
    · rw [needZeroStartCode_ok h]; simp [Instr.wellFormed, maxLen]; omega
    · rw [needZeroStartCode_ok h]; simp [Instr.wellFormed, maxLen]; omega
    · rw [needZeroStartCode_ok h]; simp [Instr.wellFormed, maxLen]; omega
    · injection h with h; subst h; simp [Instr.wellFormed, maxLen]; omega
    · cases h
  · cases h

/-- A decoded command announces as many payload bytes as its descriptor's LEN field says. -/
theorem decode_payloadLen {d : Descriptor} {i : Instr} (h : decode d = .ok i) : i.payloadLen = d.len.toNat := by
  unfold decode at h
  split at h
  · unfold decodeByOpcode at h
    split at h
    · cases hz : needZeroStartCode d .sendBreak with
      | error e => rw [hz] at h; cases h
      | ok j =>
        rw [hz] at h
        rw [needZeroLength_ok h, needZeroStartCode_ok hz]
        change needZeroLength d j = .ok i at h
        unfold needZeroLength at h
        split at h
        · rename_i k; rw [k]; rfl
        · cases h
    · rw [needZeroStartCode_ok h]; rfl
    · rw [needZeroStartCode_ok h]; rfl
    · rw [needZeroStartCode_ok h]; rfl
    · injection h with h; subst h; rfl
    · cases h
  · cases h

end Sys2Proof
end

