-- ==== Sys2Proof/Laws/Line.lean ====
section
/-! SUPPORT. What the line does at a time: the waveform's parts taken together, and what the laws of the line say of its
characters. Later proofs about levels cite `levelAt_cutOff`, `levelAt_lineFrom_idle` and `lineLevel_char` and never unfold a waveform. -/

namespace Sys2Proof.Machine

open Sys2Proof.Safety

/-! ### Time -/

theorem timeNs_mono {c : Params} (hf : 0 < c.fClk) {m n : Nat} (h : m ≤ n) : timeNs c m ≤ timeNs c n := by
  have : (m : Rat) ≤ n := by exact_mod_cast h
  have : (0 : Rat) < c.fClk := by exact_mod_cast hf
  unfold timeNs
  gcongr

theorem timeNs_nonneg (c : Params) (n : Nat) : 0 ≤ timeNs c n := by
  unfold timeNs
  positivity

theorem bitTimeNs_nonneg (p : SerialProfile) : 0 ≤ bitTimeNs p := by
  unfold bitTimeNs
  positivity

theorem charNs_nonneg (p : SerialProfile) : 0 ≤ charNs p :=
  mul_nonneg (Nat.cast_nonneg _) (bitTimeNs_nonneg p)

/-- A character lasts as many bit times as it has levels. -/
theorem charLevels_length (p : SerialProfile) (b : Byte) : (charLevels p b).length = charBits p := by
  unfold charLevels charBits
  cases h : p.parity <;> simp [dataBits, parityBits, h] <;> omega

/-- When a character at profile `p` may be over, its duration has passed (TA3). -/
theorem charElapsed_time {c : Params} {p : SerialProfile} {t now : Nat} (hf : 0 < c.fClk)
    (h : charElapsed c p t now = true) : timeNs c t + charNs p ≤ timeNs c now := by
  simp only [charElapsed, decide_eq_true_eq] at h
  have hb : 0 < charBits p := by unfold charBits; omega
  have hpos : 0 < charBits p * c.fClk := Nat.mul_pos hb hf
  have hr : 0 < bitsPerSecond p := by
    rcases Nat.eq_zero_or_pos (bitsPerSecond p) with k | k
    · simp [k] at h; omega
    · exact k
  have hle : t ≤ now := by
    by_contra k
    have : now - t = 0 := by omega
    simp [this] at h; omega
  have hf' : (0 : Rat) < c.fClk := by exact_mod_cast hf
  have hr' : (0 : Rat) < bitsPerSecond p := by exact_mod_cast hr
  have h' : ((charBits p : Rat) * c.fClk) ≤ ((now : Rat) - t) * bitsPerSecond p := by
    rw [← Nat.cast_sub hle]; exact_mod_cast h
  unfold timeNs charNs bitTimeNs
  rw [← sub_nonneg]
  have : (now : Rat) * 10 ^ 9 / c.fClk - (t * 10 ^ 9 / c.fClk + charBits p * (10 ^ 9 / bitsPerSecond p)) =
      ((now - t) * bitsPerSecond p - charBits p * c.fClk) * (10 ^ 9 / (c.fClk * bitsPerSecond p)) := by
    field_simp
    ring
  rw [this]
  exact mul_nonneg (sub_nonneg.mpr h') (by positivity)

/-! ### The level at a time -/

/-- A segment holds time `t`. -/
abbrev Segment.Holds (x : Segment) (t : Rat) : Prop := x.fromNs ≤ t ∧ t < x.fromNs + x.lenNs

theorem levelAt_none {w : List Segment} {t : Rat} (h : ∀ x ∈ w, ¬x.Holds t) : levelAt w t = none := by
  unfold levelAt
  rw [List.find?_eq_none.mpr (by simpa using h)]
  rfl

theorem levelAt_append_right {v w : List Segment} {t : Rat} (h : ∀ x ∈ v, ¬x.Holds t) :
    levelAt (v ++ w) t = levelAt w t := by
  unfold levelAt
  rw [List.find?_append, List.find?_eq_none.mpr (by simpa using h)]
  rfl

theorem levelAt_append_left {v w : List Segment} {t : Rat} (h : ∀ x ∈ w, ¬x.Holds t) :
    levelAt (v ++ w) t = levelAt v t := by
  unfold levelAt
  rw [List.find?_append, (List.find?_eq_none (l := w)).mpr (by simpa using h), Option.or_none]

theorem levelAt_append_of_some {v w : List Segment} {t : Rat} {l : Level} (h : levelAt v t = some l) :
    levelAt (v ++ w) t = some l := by
  unfold levelAt at h ⊢
  rw [List.find?_append]
  cases k : v.find? (fun x => decide (x.fromNs ≤ t ∧ t < x.fromNs + x.lenNs)) with
  | none => rw [k] at h; cases h
  | some y => rw [k] at h; exact h

theorem mem_stretch {l : Option Level} {t u : Rat} {x : Segment} (h : x ∈ stretch l t u) :
    x.fromNs = t ∧ x.fromNs + x.lenNs = u := by
  unfold stretch at h
  split at h
  · simp at h; subst h; exact ⟨rfl, by simp⟩
  · cases h

theorem levelAt_stretch {l : Option Level} {t u v : Rat} (h : t ≤ v) (k : v < u) : levelAt (stretch l t u) v = l := by
  unfold stretch levelAt
  rw [if_pos (lt_of_le_of_lt h k), List.find?_cons_of_pos]
  · rfl
  · simp [h, k]

/-- Where a waveform is cut off, nothing before changes. -/
theorem levelAt_cutOff {u t : Rat} (h : t < u) (w : List Segment) : levelAt (cutOff u w) t = levelAt w t := by
  induction w with
  | nil => rfl
  | cons x xs ih =>
    unfold cutOff
    split
    · rename_i hx
      by_cases hh : x.Holds t
      · have : x.fromNs ≤ t ∧ t < x.fromNs + min x.lenNs (u - x.fromNs) :=
          ⟨hh.1, by rcases min_choice x.lenNs (u - x.fromNs) with k | k <;> rw [k] <;> [exact hh.2; linarith]⟩
        unfold levelAt
        rw [List.find?_cons_of_pos (by simpa using this), List.find?_cons_of_pos (by simpa using hh)]
        rfl
      · have : ¬(x.fromNs ≤ t ∧ t < x.fromNs + min x.lenNs (u - x.fromNs)) := by
          rintro ⟨a, b⟩
          exact hh ⟨a, lt_of_lt_of_le b (by gcongr; exact min_le_left _ _)⟩
        rw [show (x :: xs) = [x] ++ xs from rfl, levelAt_append_right (v := [x]) (by simpa using hh), ← ih]
        exact levelAt_append_right (v := [_]) (by simpa using this)
    · rename_i hx
      rw [ih, show (x :: xs) = [x] ++ xs from rfl, levelAt_append_right]
      intro y hy
      simp at hy
      subst hy
      rintro ⟨a, _⟩
      exact hx (lt_of_le_of_lt a h)

/-- A cut-off waveform has no stretch beyond the cut. -/
theorem mem_cutOff {u : Rat} {w : List Segment} {x : Segment} (h : x ∈ cutOff u w) :
    x.fromNs + x.lenNs ≤ u ∧ ∃ y ∈ w, x.fromNs = y.fromNs ∧ x.lenNs ≤ y.lenNs := by
  induction w with
  | nil => cases h
  | cons y ys ih =>
    unfold cutOff at h
    split at h
    · rcases List.mem_cons.mp h with rfl | h
      · refine ⟨?_, y, by simp, rfl, min_le_left _ _⟩
        have := min_le_right y.lenNs (u - y.fromNs)
        simp only
        linarith
      · obtain ⟨a, z, hz, b⟩ := ih h
        exact ⟨a, z, by simp [hz], b⟩
    · obtain ⟨a, z, hz, b⟩ := ih h
      exact ⟨a, z, by simp [hz], b⟩

/-! ### One character -/

/-- The bits of a character stand between its start and as many bit times later as it has levels. -/
theorem mem_charSegments {p : SerialProfile} {t : Rat} {ls : List Level} {x : Segment} (h : x ∈ charSegments p t ls) :
    t ≤ x.fromNs ∧ x.fromNs + x.lenNs ≤ t + ls.length * bitTimeNs p := by
  induction ls generalizing t with
  | nil => cases h
  | cons l ls ih =>
    have hb := bitTimeNs_nonneg p
    have hl : (0 : Rat) ≤ ls.length * bitTimeNs p := by positivity
    rcases List.mem_cons.mp h with rfl | h
    · refine ⟨le_rfl, ?_⟩
      push_cast [List.length_cons]
      linarith
    · obtain ⟨a, b⟩ := ih h
      refine ⟨by linarith, ?_⟩
      push_cast [List.length_cons]
      linarith

/-- In the `k`-th bit time of a character stands its `k`-th level. -/
theorem levelAt_charSegments {p : SerialProfile} {t u : Rat} {ls : List Level} {k : Nat} {l : Level}
    (hk : ls[k]? = some l) (h1 : t + k * bitTimeNs p ≤ u) (h2 : u < t + (k + 1) * bitTimeNs p) :
    levelAt (charSegments p t ls) u = some l := by
  induction ls generalizing t k with
  | nil => simp at hk
  | cons m ls ih =>
    have hb := bitTimeNs_nonneg p
    cases k with
    | zero =>
      simp at hk h1 h2
      unfold charSegments levelAt
      rw [List.find?_cons_of_pos (by simp [h1, h2]), hk]
      rfl
    | succ k =>
      push_cast at h1 h2
      have hk0 : (0 : Rat) ≤ k * bitTimeNs p := by positivity
      rw [charSegments, ← List.singleton_append, levelAt_append_right]
      · exact ih (by simpa using hk) (by linarith) (by linarith)
      · simp only [List.mem_singleton]
        rintro _ rfl ⟨_, b⟩
        simp only at b
        linarith

/-- Where a character stands on the line: nothing of it outside its time. -/
theorem mem_charWave {c : Params} {x : SentChar} {y : Segment} (hf : 0 < c.fClk)
    (ht : timesInOrder x.start x.cutAt x.ended) (h : y ∈ charWave c x) :
    timeNs c x.start ≤ y.fromNs ∧ y.fromNs + y.lenNs ≤ charEndNs c x := by
  unfold charWave at h
  unfold charEndNs
  cases hp : x.prof with
  | none =>
    simp only [hp] at h ⊢
    obtain ⟨a, b⟩ := mem_stretch h
    exact ⟨a.ge, b.le⟩
  | some p =>
    cases hm : x.cutAt with
    | none =>
      simp only [hp, hm] at h ⊢
      obtain ⟨a, b⟩ := mem_charSegments h
      rw [charLevels_length] at b
      exact ⟨a, b⟩
    | some m =>
      obtain ⟨h1, h2⟩ := ht.2 m hm
      simp only [hp, hm] at h ⊢
      rcases List.mem_append.mp h with h | h
      · obtain ⟨a, z, hz, b, _⟩ := mem_cutOff h
        exact ⟨b ▸ (mem_charSegments hz).1, a.trans (timeNs_mono hf h2)⟩
      · obtain ⟨a, b⟩ := mem_stretch h
        exact ⟨a ▸ timeNs_mono hf h1, b.le⟩

theorem start_le_charEnd {c : Params} {x : SentChar} (hf : 0 < c.fClk)
    (ht : timesInOrder x.start x.cutAt x.ended) : timeNs c x.start ≤ charEndNs c x := by
  have := timeNs_mono (c := c) hf ht.1
  unfold charEndNs
  split
  · exact le_add_of_nonneg_right (charNs_nonneg _)
  · exact this
  · exact this

/-- A character of determined profile has in its `k`-th bit time its `k`-th level, up to a cut. -/
theorem levelAt_charWave {c : Params} {x : SentChar} {p : SerialProfile} {k : Nat} {l : Level} {u : Rat}
    (hp : x.prof = some p) (hk : (charLevels p x.byte)[k]? = some l)
    (h1 : timeNs c x.start + k * bitTimeNs p ≤ u) (h2 : u < timeNs c x.start + (k + 1) * bitTimeNs p)
    (hcut : ∀ m, x.cutAt = some m → u < timeNs c m) : levelAt (charWave c x) u = some l := by
  unfold charWave
  cases hm : x.cutAt with
  | none =>
    simp only [hp]
    exact levelAt_charSegments hk h1 h2
  | some m =>
    simp only [hp]
    apply levelAt_append_of_some
    rw [levelAt_cutOff (hcut m hm)]
    exact levelAt_charSegments hk h1 h2

/-- From a cut on nothing is known of a character. -/
theorem levelAt_charWave_cut {c : Params} {x : SentChar} {m : Nat} {u : Rat} (hm : x.cutAt = some m)
    (h : timeNs c m ≤ u) : levelAt (charWave c x) u = none := by
  have dark : ∀ t v, levelAt (stretch none t v) u = none := by
    intro t v
    unfold stretch levelAt
    split
    · rw [List.find?_cons]; split <;> rfl
    · rfl
  unfold charWave
  cases hp : x.prof with
  | none => exact dark _ _
  | some p =>
    simp only [hm]
    rw [levelAt_append_right, dark]
    rintro y hy ⟨_, b⟩
    linarith [(mem_cutOff hy).1]

/-! ### All characters -/

/-- Characters that stand one after the other, from time `t` on. -/
structure InTurn (c : Params) (t : Rat) (xs : List SentChar) : Prop where
  from_start : ∀ x ∈ xs, t ≤ timeNs c x.start
  one_by_one : xs.Pairwise (fun x y => charEndNs c x ≤ timeNs c y.start)
  in_order : ∀ x ∈ xs, timesInOrder x.start x.cutAt x.ended

theorem InTurn.tail {c : Params} {t : Rat} {x : SentChar} {xs : List SentChar} (h : InTurn c t (x :: xs)) :
    InTurn c (charEndNs c x) xs where
  from_start := fun _ hy => List.rel_of_pairwise_cons h.one_by_one hy
  one_by_one := h.one_by_one.of_cons
  in_order := fun y hy => h.in_order y (List.mem_cons_of_mem _ hy)

/-- No part of the line from `t` on begins before `t`. -/
theorem mem_lineFrom {c : Params} {t v : Rat} {xs : List SentChar} {y : Segment} (hf : 0 < c.fClk)
    (h : InTurn c t xs) (hy : y ∈ lineFrom c t xs v) : t ≤ y.fromNs := by
  induction xs generalizing t with
  | nil => exact (mem_stretch hy).1.ge
  | cons x xs ih =>
    have hx := h.from_start x (by simp)
    have ho := h.in_order x (by simp)
    rcases List.mem_append.mp hy with k | k
    · exact (mem_stretch k).1.ge
    · rcases List.mem_append.mp k with k | k
      · exact hx.trans (mem_charWave hf ho k).1
      · exact (hx.trans (start_le_charEnd hf ho)).trans (ih h.tail k)

/-- While a character stands on the line, the line is what the character makes of it. -/
theorem levelAt_lineFrom_char {c : Params} {t u v : Rat} {x : SentChar} {xs : List SentChar} (hf : 0 < c.fClk)
    (h : InTurn c t xs) (hx : x ∈ xs) (h1 : timeNs c x.start ≤ u) (h2 : u < charEndNs c x) :
    levelAt (lineFrom c t xs v) u = levelAt (charWave c x) u := by
  induction xs generalizing t with
  | nil => cases hx
  | cons y ys ih =>
    have ho := h.in_order y (by simp)
    rcases List.mem_cons.mp hx with rfl | hx
    · rw [lineFrom, levelAt_append_right, levelAt_append_left]
      · rintro z hz ⟨a, _⟩
        linarith [mem_lineFrom hf h.tail hz]
      · rintro z hz ⟨_, b⟩
        linarith [(mem_stretch hz).2]
    · have hy : charEndNs c y ≤ timeNs c x.start := h.tail.from_start x hx
      rw [lineFrom, levelAt_append_right, levelAt_append_right]
      · exact ih h.tail hx
      · rintro z hz ⟨_, b⟩
        linarith [(mem_charWave hf ho hz).2]
      · rintro z hz ⟨_, b⟩
        linarith [(mem_stretch hz).2, start_le_charEnd hf ho]

/-- While no character stands on the line it is high (R182, TA2). -/
theorem levelAt_lineFrom_idle {c : Params} {t u v : Rat} {xs : List SentChar} (hf : 0 < c.fClk) (h : InTurn c t xs)
    (h1 : t ≤ u) (h2 : u < v) (hx : ∀ x ∈ xs, u < timeNs c x.start ∨ charEndNs c x ≤ u) :
    levelAt (lineFrom c t xs v) u = some .high := by
  induction xs generalizing t with
  | nil => exact levelAt_stretch h1 h2
  | cons y ys ih =>
    have ho := h.in_order y (by simp)
    rw [lineFrom]
    rcases hx y (by simp) with k | k
    · exact levelAt_append_of_some (levelAt_stretch h1 k)
    · rw [levelAt_append_right, levelAt_append_right]
      · exact ih h.tail k (fun x hx' => hx x (List.mem_cons_of_mem _ hx'))
      · rintro z hz ⟨_, b⟩
        linarith [(mem_charWave hf ho hz).2]
      · rintro z hz ⟨_, b⟩
        linarith [(mem_stretch hz).2, start_le_charEnd hf ho]

/-! ### The line of a state -/

/-- A character that is over by cycle `n` has ended by its time. -/
theorem charEnd_of_endedBy {c : Params} {x : SentChar} {n : Nat} (hf : 0 < c.fClk) (h : endedBy c x n) :
    charEndNs c x ≤ timeNs c n := by
  have ht := timeNs_mono (c := c) hf h.1
  unfold charEndNs
  cases hp : x.prof with
  | none => simpa using ht
  | some p =>
    cases hm : x.cutAt with
    | none => simpa using charElapsed_time hf (h.2 p hp hm)
    | some m => simpa using ht

/-- The characters of a state that keeps the laws of the line stand one after the other. -/
theorem lineInv_inTurn {c : Params} {s : State} (hf : 0 < c.fClk) (h : LineInv c s) : InTurn c 0 (charsOf s) := by
  have wire : InTurn c 0 s.line.wire :=
    ⟨fun x _ => timeNs_nonneg c _, h.no_overlap.imp (fun k => charEnd_of_endedBy hf k), fun x hx => (h.all_ended x hx).2⟩
  unfold charsOf Transport.characters
  split
  · rename_i b q qs hb _
    obtain ⟨ho, he⟩ := h.in_progress b hb
    refine ⟨fun x _ => timeNs_nonneg c _, ?_, ?_⟩
    · rw [List.pairwise_append]
      refine ⟨wire.one_by_one, List.pairwise_singleton _ _, ?_⟩
      intro x hx y hy
      simp at hy
      subst hy
      exact charEnd_of_endedBy hf (he x hx)
    · intro x hx
      rcases List.mem_append.mp hx with k | k
      · exact wire.in_order x k
      · simp at k
        subst k
        exact ho
  · exact wire

/-- The level of the line while a character stands on it. -/
theorem lineLevel_char {c : Params} {s : State} {x : SentChar} {u : Rat} (hf : 0 < c.fClk) (h : LineInv c s)
    (hx : x ∈ charsOf s) (h1 : timeNs c x.start ≤ u) (h2 : u < charEndNs c x) (hn : u < timeNs c s.now) :
    lineLevel c s u = levelAt (charWave c x) u := by
  unfold lineLevel Transport.waveform
  rw [levelAt_cutOff hn]
  exact levelAt_lineFrom_char hf (lineInv_inTurn hf h) hx h1 h2

/-! ### The wire contract -/

theorem meetsMinimums_iff (b m : Rat) : meetsMinimums b m = true ↔ 92000 ≤ b ∧ 8000 ≤ m :=
  decide_eq_true_iff

/-- A longer break and a longer mark-after-break meet the protocol too: neither has a maximum. -/
theorem meetsMinimums_mono {b b' m m' : Rat} (h : meetsMinimums b m = true) (hb : b ≤ b') (hm : m ≤ m') :
    meetsMinimums b' m' = true := by
  rw [meetsMinimums_iff] at h ⊢
  exact ⟨h.1.trans hb, h.2.trans hm⟩

/-- A line that is low from `t` to `m` and high from `m` to `u` meets the wire contract if both last long enough. -/
theorem wireContract_of_levels {w : List Segment} {t m u : Rat}
    (hl : ∀ v, t ≤ v → v < m → levelAt w v = some .low) (hh : ∀ v, m ≤ v → v < u → levelAt w v = some .high)
    (hb : 92000 ≤ m - t) (hm : 8000 ≤ u - m) : wireContract w t u :=
  ⟨m, hl, hh, (meetsMinimums_iff _ _).mpr ⟨hb, hm⟩⟩

end Sys2Proof.Machine
end

