-- ==== Sys2Proof/Laws/Memory.lean ====
section
/-! SUPPORT. The laws of the frame buffer: what a read finds after a write, and that every operation keeps the canonical form. -/

namespace Sys2Proof.Machine

/-! ### What is stored after a write -/

theorem Memory.cells_lookup (bs : List Byte) : ∀ (i a : Nat),
    (Memory.cells i bs).lookup a = if i ≤ a then bs[a - i]? else none := by
  induction bs with
  | nil => intro i a; simp [Memory.cells]
  | cons b bs ih =>
    intro i a
    simp only [Memory.cells, List.lookup_cons]
    rcases Nat.lt_trichotomy a i with h | h | h
    · have : (a == i) = false := by simp; omega
      simp [this, ih, show ¬ i + 1 ≤ a by omega, show ¬ i ≤ a by omega]
    · subst h; simp
    · have : (a == i) = false := by simp; omega
      have e : a - i = (a - (i + 1)) + 1 := by omega
      simp [this, ih, e, show i + 1 ≤ a by omega, show i ≤ a by omega]

/-- Reading past a filter on the index: a kept index finds what it found. -/
theorem Memory.lookup_filter (m : Memory) (keep : Nat → Bool) (a : Nat) :
    (m.filter (fun x => keep x.1)).lookup a = if keep a then m.lookup a else none := by
  induction m with
  | nil => simp
  | cons x m ih =>
    obtain ⟨i, b⟩ := x
    by_cases h : a = i
    · subst h; by_cases k : keep a <;> simp [k, ih]
    · have : (a == i) = false := by simp [h]
      by_cases k : keep i <;> simp [k, ih, List.lookup_cons, this]

/-- What is stored at each index after a run of bytes is written: the run's byte inside it, the old contents outside. -/
theorem Memory.stored_writeRun (m : Memory) (i : Nat) (bs : List Byte) (a : Nat) :
    (m.writeRun i bs).stored a = if i ≤ a ∧ a < i + bs.length then bs[a - i]? else m.stored a := by
  simp only [Memory.stored, Memory.writeRun, List.lookup_append, Memory.cells_lookup]
  rw [Memory.lookup_filter m (fun k => decide (k < i)), Memory.lookup_filter m (fun k => decide (i + bs.length ≤ k))]
  by_cases h1 : a < i
  · have : ¬ i ≤ a := by omega
    have h3 : ¬ i + bs.length ≤ a := by omega
    simp [h1, this, h3]
  · by_cases h2 : a < i + bs.length
    · have h3 : ¬ i + bs.length ≤ a := by omega
      have h4 : i ≤ a := by omega
      have h5 : a - i < bs.length := by omega
      simp [h1, h2, h3, h4, h5]
    · have h3 : i + bs.length ≤ a := by omega
      have h4 : i ≤ a := by omega
      have h5 : bs[a - i]? = none := by simp; omega
      simp [h1, h2, h3, h4, h5]

/-- Outside the bytes written, every index reads as before. -/
theorem Memory.read_writeRun_outside (m : Memory) (i : Nat) (bs : List Byte) (a : Nat)
    (h : a < i ∨ i + bs.length ≤ a) : (m.writeRun i bs).read a = m.read a := by
  have : ¬ (i ≤ a ∧ a < i + bs.length) := by omega
  simp [Memory.read, Memory.stored_writeRun, this]

/-- A byte of the run reads as written. -/
theorem Memory.read_writeRun_inside (m : Memory) (i k : Nat) (bs : List Byte) (b : Byte)
    (h : bs[k]? = some b) (hi : i + k < fbSize) : (m.writeRun i bs).read (i + k) = .ok b := by
  obtain ⟨hk, -⟩ := List.getElem?_eq_some_iff.mp h
  have : i ≤ i + k ∧ i + k < i + bs.length := by omega
  simp [Memory.read, Memory.stored_writeRun, this, hi, h]

/-- A run of reads depends on the bytes of the run alone. -/
theorem Memory.readRun_congr (m m' : Memory) (n : Nat) : ∀ i,
    (∀ a, i ≤ a → a < i + n → m.read a = m'.read a) → m.readRun i n = m'.readRun i n := by
  induction n with
  | zero => intro i _; rfl
  | succ n ih =>
    intro i h
    have h0 := h i (by omega) (by omega)
    have h1 := ih (i + 1) (fun a h1 h2 => h a (by omega) (by omega))
    simp [Memory.readRun, h0, h1]

/-- A run of reads answers `bs` when every byte of it reads as `bs` has it. -/
theorem Memory.readRun_of_reads (m : Memory) (bs : List Byte) : ∀ i,
    (∀ k b, bs[k]? = some b → m.read (i + k) = .ok b) → m.readRun i bs.length = .ok bs := by
  induction bs with
  | nil => intro i _; rfl
  | cons b bs ih =>
    intro i h
    have h0 := h 0 b (by simp)
    have h1 := ih (i + 1) (fun k c hk => by
      have := h (k + 1) c (by simpa using hk)
      rw [← this]; congr 1; omega)
    simp only [Nat.add_zero] at h0
    simp [Memory.readRun, h0, h1]

/-! ### The canonical form is kept -/

theorem Memory.cells_keys (bs : List Byte) : ∀ i, (Memory.cells i bs).map Prod.fst = List.range' i bs.length := by
  induction bs with
  | nil => intro i; rfl
  | cons b bs ih => intro i; simp [Memory.cells, ih, List.range'_succ]

theorem Memory.wf_iff (m : Memory) :
    Memory.wf m = true ↔ (m.map Prod.fst).Pairwise (· < ·) ∧ ∀ x ∈ m, x.1 < fbSize := by
  simp [Memory.wf, List.all_eq_true]

/-- The empty frame buffer is in canonical form. -/
theorem Memory.wf_nil : Memory.wf [] = true := by decide

/-- Writing a run inside FB keeps the canonical form. -/
theorem Memory.writeRun_wf (m : Memory) (i : Nat) (bs : List Byte) (hm : Memory.wf m = true)
    (hb : i + bs.length ≤ fbSize) : Memory.wf (m.writeRun i bs) = true := by
  obtain ⟨hs, hr⟩ := (Memory.wf_iff m).mp hm
  have keys : ∀ x ∈ Memory.cells i bs, i ≤ x.1 ∧ x.1 < i + bs.length := by
    intro x hx
    have : x.1 ∈ (Memory.cells i bs).map Prod.fst := List.mem_map_of_mem hx
    rw [Memory.cells_keys] at this
    simpa [List.mem_range'_1] using this
  have sub : ∀ p : Host.Cell → Bool, ((m.filter p).map Prod.fst).Pairwise (· < ·) := fun p =>
    hs.sublist ((List.filter_sublist (p := p) (l := m)).map Prod.fst)
  refine (Memory.wf_iff _).mpr ⟨?_, ?_⟩
  · simp only [Memory.writeRun, List.map_append, List.pairwise_append, Memory.cells_keys]
    refine ⟨sub _, ⟨List.pairwise_lt_range', sub _, ?_⟩, ?_⟩
    · intro a ha b hb
      simp only [List.mem_range'_1, List.mem_map, List.mem_filter, decide_eq_true_eq] at ha hb
      obtain ⟨x, ⟨-, hx⟩, rfl⟩ := hb
      omega
    · intro a ha b hb
      simp only [List.mem_append, List.mem_range'_1, List.mem_map, List.mem_filter, decide_eq_true_eq] at ha hb
      obtain ⟨x, ⟨-, hx⟩, rfl⟩ := ha
      rcases hb with hb | ⟨y, ⟨-, hy⟩, rfl⟩ <;> omega
  · intro x hx
    simp only [Memory.writeRun, List.mem_append, List.mem_filter] at hx
    rcases hx with ⟨hx, -⟩ | hx | ⟨hx, -⟩
    · exact hr x hx
    · have := keys x hx; omega
    · exact hr x hx

/-- The frame builder writes below index 513 (R56). -/
theorem channelCount_le (n : Nat) : channelCount n ≤ 512 := Nat.min_le_right _ _

/-- The frame builder keeps the canonical form. -/
theorem buildFrame_wf (s : State) (h : Memory.wf s.fb = true) : Memory.wf (buildFrame s).fb = true := by
  have hn : (s.pb.take (channelCount s.len.toNat)).length ≤ 512 :=
    (List.length_take_le _ _).trans (channelCount_le _)
  refine Memory.writeRun_wf _ _ _ (Memory.writeRun_wf _ _ _ h ?_) ?_
  · simp [fbSize, maxCh]
  · simp only [fbSize, maxCh]; omega

/-- What is stored in FB after the frame is built: the start code, the channels, and beyond them the old contents. -/
theorem buildFrame_stored (s : State) (a : Nat) :
    Memory.stored (buildFrame s).fb a =
      if a = 0 then some s.sc
      else if a < 1 + (s.pb.take (channelCount s.len.toNat)).length
        then (s.pb.take (channelCount s.len.toNat))[a - 1]? else s.fb.stored a := by
  show ((s.fb.writeRun 0 [s.sc]).writeRun 1 (s.pb.take (channelCount s.len.toNat))).stored a = _
  rw [Memory.stored_writeRun, Memory.stored_writeRun]
  rcases Nat.eq_zero_or_pos a with rfl | h
  · simp
  · have h1 : a ≠ 0 := by omega
    have h2 : ¬ a < 1 := by omega
    have h3 : 1 ≤ a := h
    simp [h1, h2, h3]

/-- A payload cut to the channel count is the payload cut to 512 bytes. -/
theorem take_channelCount {s : State} (h : s.pb.length = s.len.toNat) :
    s.pb.take (channelCount s.len.toNat) = s.pb.take maxCh := by
  simp only [channelCount]
  rcases Nat.le_total s.len.toNat maxCh with q | q
  · rw [Nat.min_eq_left q, List.take_of_length_le (by omega), List.take_of_length_le (by omega)]
  · rw [Nat.min_eq_right q]

/-- FLEN after the frame is built (R23). -/
theorem buildFrame_flen_toNat (s : State) : (buildFrame s).flen.toNat = channelCount s.len.toNat + 1 := by
  have := channelCount_le s.len.toNat
  show (BitVec.ofNat 10 (channelCount s.len.toNat + 1)).toNat = _
  rw [BitVec.toNat_ofNat]
  omega

/-- The length of the frame of a payload of LEN bytes is FLEN. -/
theorem frameOf_length {s : State} (h : s.pb.length = s.len.toNat) :
    (frameOf s.sc s.pb).length = (buildFrame s).flen.toNat := by
  rw [buildFrame_flen_toNat]
  simp only [frameOf, channelCount, List.length_cons, List.length_take, h, Nat.min_comm]

/-- The frame builder leaves the frame of the start code and the payload in `FB[0..FLEN)` (R162). -/
theorem buildFrame_readRun (s : State) (h : s.pb.length = s.len.toNat) :
    Memory.readRun (buildFrame s).fb 0 (buildFrame s).flen.toNat = .ok (frameOf s.sc s.pb) := by
  rw [← frameOf_length h]
  apply Memory.readRun_of_reads
  intro k b hk
  have hlt : k < (frameOf s.sc s.pb).length := (List.getElem?_eq_some_iff.mp hk).1
  have hfb : k < fbSize := by
    have := channelCount_le s.len.toNat
    rw [frameOf_length h, buildFrame_flen_toNat] at hlt
    simp only [fbSize, maxCh]; omega
  have hs : Memory.stored (buildFrame s).fb k = some b := by
    rw [buildFrame_stored, take_channelCount h]
    rcases k with _ | k
    · simpa [frameOf] using hk
    · simp only [frameOf, List.length_cons, List.getElem?_cons_succ] at hk hlt
      rw [if_neg (by omega), if_pos (by omega)]
      simpa using hk
  unfold Memory.read
  rw [Nat.zero_add, if_pos hfb, hs]

end Sys2Proof.Machine
end

