-- ==== Sys2Proof/Laws/PerInstr.lean ====
section
/-! SUPPORT. One lemma per command: its descriptor matches its own row of the opcode table (R74), whatever its operands. -/

namespace Sys2Proof.Laws.MatchesRow

open Sys2Proof

/-- The encoder's word is selected by the row of its command: `d AND mask = match` (R74). -/
def Statement (i : Instr) : Prop := i.wellFormed = true → encode i &&& i.rowMask = i.rowMatch

/-- A command whose start-code field is zero matches by its low 16 bits. -/
theorem low_sixteen {i : Instr} (h : i.wellFormed = true) (hs : i.startCode = 0) :
    encode i &&& (0x0000FFFF : Descriptor) = BitVec.ofNat 32 i.opcode.toNat := by
  have h1 := and_low_toNat (encode i) 16 (by decide)
  have h2 := i.opcode.isLt
  rw [encode_toNat h, hs, show (0 : Byte).toNat = 0 from rfl] at h1
  apply BitVec.eq_of_toNat_eq
  simp only [BitVec.toNat_ofNat] at h1 ⊢
  refine Eq.trans h1 ?_
  omega

/-- Any command matches by its low 8 bits. -/
theorem low_eight {i : Instr} (h : i.wellFormed = true) :
    encode i &&& (0x000000FF : Descriptor) = BitVec.ofNat 32 i.opcode.toNat := by
  have h1 := and_low_toNat (encode i) 8 (by decide)
  have h2 := i.opcode.isLt
  rw [encode_toNat h] at h1
  apply BitVec.eq_of_toNat_eq
  simp only [BitVec.toNat_ofNat] at h1 ⊢
  refine Eq.trans h1 ?_
  omega

theorem sendBreak : Statement .sendBreak := fun _ => by decide

theorem sendRawData (len : Nat) : Statement (.sendRawData len) := fun h => low_sixteen h rfl

theorem sendRawPacket (len : Nat) : Statement (.sendRawPacket len) := fun h => low_sixteen h rfl

theorem sendPacket (len : Nat) : Statement (.sendPacket len) := fun h => low_sixteen h rfl

theorem sendAltPacket (len : Nat) (sc : Byte) : Statement (.sendAltPacket len sc) := fun h => low_eight h

end Sys2Proof.Laws.MatchesRow
end

