-- ==== Sys2Proof/Laws/State.lean ====
section
/-! SUPPORT. What each named update does to each field of State, one lemma per field, so that no later proof unfolds a
record update. -/

namespace Sys2Proof.Machine

/-! ### gotoPhase -/

@[simp] theorem gotoPhase_phase (p : Phase) (s : State) : (gotoPhase p s).phase = p := rfl
@[simp] theorem gotoPhase_waitRsp (p : Phase) (s : State) : (gotoPhase p s).waitRsp = s.waitRsp := rfl
@[simp] theorem gotoPhase_op (p : Phase) (s : State) : (gotoPhase p s).op = s.op := rfl
@[simp] theorem gotoPhase_sc (p : Phase) (s : State) : (gotoPhase p s).sc = s.sc := rfl
@[simp] theorem gotoPhase_len (p : Phase) (s : State) : (gotoPhase p s).len = s.len := rfl
@[simp] theorem gotoPhase_pb (p : Phase) (s : State) : (gotoPhase p s).pb = s.pb := rfl
@[simp] theorem gotoPhase_fb (p : Phase) (s : State) : (gotoPhase p s).fb = s.fb := rfl
@[simp] theorem gotoPhase_flen (p : Phase) (s : State) : (gotoPhase p s).flen = s.flen := rfl
@[simp] theorem gotoPhase_tmr (p : Phase) (s : State) : (gotoPhase p s).tmr = s.tmr := rfl
@[simp] theorem gotoPhase_cmd (p : Phase) (s : State) : (gotoPhase p s).cmd = s.cmd := rfl
@[simp] theorem gotoPhase_pay (p : Phase) (s : State) : (gotoPhase p s).pay = s.pay := rfl
@[simp] theorem gotoPhase_taking (p : Phase) (s : State) : (gotoPhase p s).taking = s.taking := rfl
@[simp] theorem gotoPhase_trsp (p : Phase) (s : State) : (gotoPhase p s).trsp = s.trsp := rfl
@[simp] theorem gotoPhase_sched (p : Phase) (s : State) : (gotoPhase p s).sched = s.sched := rfl
@[simp] theorem gotoPhase_now (p : Phase) (s : State) : (gotoPhase p s).now = s.now := rfl
@[simp] theorem gotoPhase_trace (p : Phase) (s : State) : (gotoPhase p s).trace = s.trace := rfl
@[simp] theorem gotoPhase_line (p : Phase) (s : State) : (gotoPhase p s).line = s.line := rfl

/-! ### emit -/

@[simp] theorem emit_phase (e : Event) (s : State) : (emit e s).phase = s.phase := rfl
@[simp] theorem emit_waitRsp (e : Event) (s : State) : (emit e s).waitRsp = s.waitRsp := rfl
@[simp] theorem emit_op (e : Event) (s : State) : (emit e s).op = s.op := rfl
@[simp] theorem emit_sc (e : Event) (s : State) : (emit e s).sc = s.sc := rfl
@[simp] theorem emit_len (e : Event) (s : State) : (emit e s).len = s.len := rfl
@[simp] theorem emit_pb (e : Event) (s : State) : (emit e s).pb = s.pb := rfl
@[simp] theorem emit_fb (e : Event) (s : State) : (emit e s).fb = s.fb := rfl
@[simp] theorem emit_flen (e : Event) (s : State) : (emit e s).flen = s.flen := rfl
@[simp] theorem emit_tmr (e : Event) (s : State) : (emit e s).tmr = s.tmr := rfl
@[simp] theorem emit_cmd (e : Event) (s : State) : (emit e s).cmd = s.cmd := rfl
@[simp] theorem emit_pay (e : Event) (s : State) : (emit e s).pay = s.pay := rfl
@[simp] theorem emit_taking (e : Event) (s : State) : (emit e s).taking = s.taking := rfl
@[simp] theorem emit_trsp (e : Event) (s : State) : (emit e s).trsp = s.trsp := rfl
@[simp] theorem emit_sched (e : Event) (s : State) : (emit e s).sched = s.sched := rfl
@[simp] theorem emit_now (e : Event) (s : State) : (emit e s).now = s.now := rfl
@[simp] theorem emit_trace (e : Event) (s : State) : (emit e s).trace = s.trace ++ [(s.now, e)] := rfl
@[simp] theorem emit_line (e : Event) (s : State) : (emit e s).line = s.line := rfl

/-! ### passCycle -/

@[simp] theorem passCycle_phase (s : State) : (passCycle s).phase = s.phase := rfl
@[simp] theorem passCycle_waitRsp (s : State) : (passCycle s).waitRsp = s.waitRsp := rfl
@[simp] theorem passCycle_op (s : State) : (passCycle s).op = s.op := rfl
@[simp] theorem passCycle_sc (s : State) : (passCycle s).sc = s.sc := rfl
@[simp] theorem passCycle_len (s : State) : (passCycle s).len = s.len := rfl
@[simp] theorem passCycle_pb (s : State) : (passCycle s).pb = s.pb := rfl
@[simp] theorem passCycle_fb (s : State) : (passCycle s).fb = s.fb := rfl
@[simp] theorem passCycle_flen (s : State) : (passCycle s).flen = s.flen := rfl
@[simp] theorem passCycle_tmr (s : State) : (passCycle s).tmr = if s.phase = .settle then s.tmr + 1 else s.tmr := rfl
@[simp] theorem passCycle_cmd (s : State) : (passCycle s).cmd = s.cmd := rfl
@[simp] theorem passCycle_pay (s : State) : (passCycle s).pay = s.pay := rfl
@[simp] theorem passCycle_taking (s : State) : (passCycle s).taking = s.taking := rfl
@[simp] theorem passCycle_trsp (s : State) : (passCycle s).trsp = s.trsp := rfl
@[simp] theorem passCycle_sched (s : State) : (passCycle s).sched = s.sched := rfl
@[simp] theorem passCycle_now (s : State) : (passCycle s).now = s.now + 1 := rfl
@[simp] theorem passCycle_trace (s : State) : (passCycle s).trace = s.trace := rfl
@[simp] theorem passCycle_line (s : State) : (passCycle s).line = s.line := rfl

/-! ### respond -/

@[simp] theorem respond_phase (r : Response) (s : State) : (respond r s).phase = .idle := rfl
@[simp] theorem respond_waitRsp (r : Response) (s : State) : (respond r s).waitRsp = s.waitRsp := rfl
@[simp] theorem respond_op (r : Response) (s : State) : (respond r s).op = s.op := rfl
@[simp] theorem respond_sc (r : Response) (s : State) : (respond r s).sc = s.sc := rfl
@[simp] theorem respond_len (r : Response) (s : State) : (respond r s).len = s.len := rfl
@[simp] theorem respond_pb (r : Response) (s : State) : (respond r s).pb = s.pb := rfl
@[simp] theorem respond_fb (r : Response) (s : State) : (respond r s).fb = s.fb := rfl
@[simp] theorem respond_flen (r : Response) (s : State) : (respond r s).flen = s.flen := rfl
@[simp] theorem respond_tmr (r : Response) (s : State) : (respond r s).tmr = s.tmr := rfl
@[simp] theorem respond_cmd (r : Response) (s : State) : (respond r s).cmd = s.cmd := rfl
@[simp] theorem respond_pay (r : Response) (s : State) : (respond r s).pay = s.pay := rfl
@[simp] theorem respond_taking (r : Response) (s : State) : (respond r s).taking = s.taking := rfl
@[simp] theorem respond_trsp (r : Response) (s : State) : (respond r s).trsp = s.trsp := rfl
@[simp] theorem respond_sched (r : Response) (s : State) : (respond r s).sched = s.sched := rfl
@[simp] theorem respond_now (r : Response) (s : State) : (respond r s).now = s.now := rfl
@[simp] theorem respond_trace (r : Response) (s : State) : (respond r s).trace = s.trace ++ [(s.now, .resp r)] := rfl
@[simp] theorem respond_line (r : Response) (s : State) : (respond r s).line = s.line := rfl

/-! ### raiseTransportError -/

@[simp] theorem raiseTransportError_phase (e : TransportError) (s : State) : (raiseTransportError e s).phase = .idle := rfl
@[simp] theorem raiseTransportError_waitRsp (e : TransportError) (s : State) : (raiseTransportError e s).waitRsp = false := rfl
@[simp] theorem raiseTransportError_op (e : TransportError) (s : State) : (raiseTransportError e s).op = s.op := rfl
@[simp] theorem raiseTransportError_sc (e : TransportError) (s : State) : (raiseTransportError e s).sc = s.sc := rfl
@[simp] theorem raiseTransportError_len (e : TransportError) (s : State) : (raiseTransportError e s).len = s.len := rfl
@[simp] theorem raiseTransportError_pb (e : TransportError) (s : State) : (raiseTransportError e s).pb = s.pb := rfl
@[simp] theorem raiseTransportError_fb (e : TransportError) (s : State) : (raiseTransportError e s).fb = s.fb := rfl
@[simp] theorem raiseTransportError_flen (e : TransportError) (s : State) : (raiseTransportError e s).flen = s.flen := rfl
@[simp] theorem raiseTransportError_tmr (e : TransportError) (s : State) : (raiseTransportError e s).tmr = s.tmr := rfl
@[simp] theorem raiseTransportError_cmd (e : TransportError) (s : State) : (raiseTransportError e s).cmd = s.cmd := rfl
@[simp] theorem raiseTransportError_pay (e : TransportError) (s : State) : (raiseTransportError e s).pay = s.pay := rfl
@[simp] theorem raiseTransportError_taking (e : TransportError) (s : State) : (raiseTransportError e s).taking = s.taking := rfl
@[simp] theorem raiseTransportError_trsp (e : TransportError) (s : State) : (raiseTransportError e s).trsp = s.trsp := rfl
@[simp] theorem raiseTransportError_sched (e : TransportError) (s : State) : (raiseTransportError e s).sched = s.sched := rfl
@[simp] theorem raiseTransportError_now (e : TransportError) (s : State) : (raiseTransportError e s).now = s.now := rfl
@[simp] theorem raiseTransportError_trace (e : TransportError) (s : State) : (raiseTransportError e s).trace = s.trace ++ [(s.now, .resp (.err e))] := rfl
@[simp] theorem raiseTransportError_line (e : TransportError) (s : State) : (raiseTransportError e s).line = s.line := rfl

/-! ### raiseIllegalCommand -/

@[simp] theorem raiseIllegalCommand_phase (d : Descriptor) (s : State) : (raiseIllegalCommand d s).phase = s.phase := rfl
@[simp] theorem raiseIllegalCommand_waitRsp (d : Descriptor) (s : State) : (raiseIllegalCommand d s).waitRsp = s.waitRsp := rfl
@[simp] theorem raiseIllegalCommand_op (d : Descriptor) (s : State) : (raiseIllegalCommand d s).op = s.op := rfl
@[simp] theorem raiseIllegalCommand_sc (d : Descriptor) (s : State) : (raiseIllegalCommand d s).sc = s.sc := rfl
@[simp] theorem raiseIllegalCommand_len (d : Descriptor) (s : State) : (raiseIllegalCommand d s).len = s.len := rfl
@[simp] theorem raiseIllegalCommand_pb (d : Descriptor) (s : State) : (raiseIllegalCommand d s).pb = s.pb := rfl
@[simp] theorem raiseIllegalCommand_fb (d : Descriptor) (s : State) : (raiseIllegalCommand d s).fb = s.fb := rfl
@[simp] theorem raiseIllegalCommand_flen (d : Descriptor) (s : State) : (raiseIllegalCommand d s).flen = s.flen := rfl
@[simp] theorem raiseIllegalCommand_tmr (d : Descriptor) (s : State) : (raiseIllegalCommand d s).tmr = s.tmr := rfl
@[simp] theorem raiseIllegalCommand_cmd (d : Descriptor) (s : State) : (raiseIllegalCommand d s).cmd = s.cmd.tail := rfl
@[simp] theorem raiseIllegalCommand_pay (d : Descriptor) (s : State) : (raiseIllegalCommand d s).pay = s.pay.drop d.len.toNat := rfl
@[simp] theorem raiseIllegalCommand_taking (d : Descriptor) (s : State) : (raiseIllegalCommand d s).taking = s.taking := rfl
@[simp] theorem raiseIllegalCommand_trsp (d : Descriptor) (s : State) : (raiseIllegalCommand d s).trsp = s.trsp := rfl
@[simp] theorem raiseIllegalCommand_sched (d : Descriptor) (s : State) : (raiseIllegalCommand d s).sched = s.sched := rfl
@[simp] theorem raiseIllegalCommand_now (d : Descriptor) (s : State) : (raiseIllegalCommand d s).now = s.now := rfl
@[simp] theorem raiseIllegalCommand_trace (d : Descriptor) (s : State) : (raiseIllegalCommand d s).trace = (s.trace ++ [(s.now, .accept d (s.pay.take d.len.toNat))]) ++ [(s.now, .resp .illegal)] := rfl
@[simp] theorem raiseIllegalCommand_line (d : Descriptor) (s : State) : (raiseIllegalCommand d s).line = s.line := rfl

/-! ### resetPulse -/

@[simp] theorem resetPulse_phase (s : State) : (resetPulse s).phase = .idle := rfl
@[simp] theorem resetPulse_waitRsp (s : State) : (resetPulse s).waitRsp = false := rfl
@[simp] theorem resetPulse_op (s : State) : (resetPulse s).op = s.op := rfl
@[simp] theorem resetPulse_sc (s : State) : (resetPulse s).sc = s.sc := rfl
@[simp] theorem resetPulse_len (s : State) : (resetPulse s).len = s.len := rfl
@[simp] theorem resetPulse_pb (s : State) : (resetPulse s).pb = s.pb := rfl
@[simp] theorem resetPulse_fb (s : State) : (resetPulse s).fb = s.fb := rfl
@[simp] theorem resetPulse_flen (s : State) : (resetPulse s).flen = s.flen := rfl
@[simp] theorem resetPulse_tmr (s : State) : (resetPulse s).tmr = 0 := rfl
@[simp] theorem resetPulse_cmd (s : State) : (resetPulse s).cmd = s.cmd := rfl
@[simp] theorem resetPulse_pay (s : State) : (resetPulse s).pay = s.pay := rfl
@[simp] theorem resetPulse_taking (s : State) : (resetPulse s).taking = none := rfl
@[simp] theorem resetPulse_trsp (s : State) : (resetPulse s).trsp = if s.waitRsp then s.trsp.tail else s.trsp := rfl
@[simp] theorem resetPulse_sched (s : State) : (resetPulse s).sched = s.sched := rfl
@[simp] theorem resetPulse_now (s : State) : (resetPulse s).now = s.now + 1 := rfl
@[simp] theorem resetPulse_trace (s : State) : (resetPulse s).trace = s.trace ++ [(s.now, .reset)] := rfl
@[simp] theorem resetPulse_line (s : State) : (resetPulse s).line = { s.line with lineProf := none, pend := [] } := rfl

/-! ### loadCommand -/

@[simp] theorem loadCommand_phase (i : Instr) (s : State) : (loadCommand i s).phase = s.phase := rfl
@[simp] theorem loadCommand_waitRsp (i : Instr) (s : State) : (loadCommand i s).waitRsp = false := rfl
@[simp] theorem loadCommand_op (i : Instr) (s : State) : (loadCommand i s).op = i.opcode := rfl
@[simp] theorem loadCommand_sc (i : Instr) (s : State) : (loadCommand i s).sc = i.startCode := rfl
@[simp] theorem loadCommand_len (i : Instr) (s : State) : (loadCommand i s).len = BitVec.ofNat 16 i.payloadLen := rfl
@[simp] theorem loadCommand_pb (i : Instr) (s : State) : (loadCommand i s).pb = s.pay.take i.payloadLen := rfl
@[simp] theorem loadCommand_fb (i : Instr) (s : State) : (loadCommand i s).fb = s.fb := rfl
@[simp] theorem loadCommand_flen (i : Instr) (s : State) : (loadCommand i s).flen = s.flen := rfl
@[simp] theorem loadCommand_tmr (i : Instr) (s : State) : (loadCommand i s).tmr = s.tmr := rfl
@[simp] theorem loadCommand_cmd (i : Instr) (s : State) : (loadCommand i s).cmd = s.cmd.tail := rfl
@[simp] theorem loadCommand_pay (i : Instr) (s : State) : (loadCommand i s).pay = s.pay.drop i.payloadLen := rfl
@[simp] theorem loadCommand_taking (i : Instr) (s : State) : (loadCommand i s).taking = s.taking := rfl
@[simp] theorem loadCommand_trsp (i : Instr) (s : State) : (loadCommand i s).trsp = s.trsp := rfl
@[simp] theorem loadCommand_sched (i : Instr) (s : State) : (loadCommand i s).sched = s.sched := rfl
@[simp] theorem loadCommand_now (i : Instr) (s : State) : (loadCommand i s).now = s.now := rfl
@[simp] theorem loadCommand_trace (i : Instr) (s : State) : (loadCommand i s).trace = s.trace ++ [(s.now, .accept (encode i) (s.pay.take i.payloadLen))] := rfl
@[simp] theorem loadCommand_line (i : Instr) (s : State) : (loadCommand i s).line = s.line := rfl

/-! ### buildFrame -/

@[simp] theorem buildFrame_phase (s : State) : (buildFrame s).phase = s.phase := rfl
@[simp] theorem buildFrame_waitRsp (s : State) : (buildFrame s).waitRsp = s.waitRsp := rfl
@[simp] theorem buildFrame_op (s : State) : (buildFrame s).op = s.op := rfl
@[simp] theorem buildFrame_sc (s : State) : (buildFrame s).sc = s.sc := rfl
@[simp] theorem buildFrame_len (s : State) : (buildFrame s).len = s.len := rfl
@[simp] theorem buildFrame_pb (s : State) : (buildFrame s).pb = s.pb := rfl
@[simp] theorem buildFrame_fb (s : State) : (buildFrame s).fb = (Memory.writeRun s.fb 0 [s.sc]).writeRun 1 (s.pb.take (channelCount s.len.toNat)) := rfl
@[simp] theorem buildFrame_flen (s : State) : (buildFrame s).flen = BitVec.ofNat 10 (channelCount s.len.toNat + 1) := rfl
@[simp] theorem buildFrame_tmr (s : State) : (buildFrame s).tmr = s.tmr := rfl
@[simp] theorem buildFrame_cmd (s : State) : (buildFrame s).cmd = s.cmd := rfl
@[simp] theorem buildFrame_pay (s : State) : (buildFrame s).pay = s.pay := rfl
@[simp] theorem buildFrame_taking (s : State) : (buildFrame s).taking = s.taking := rfl
@[simp] theorem buildFrame_trsp (s : State) : (buildFrame s).trsp = s.trsp := rfl
@[simp] theorem buildFrame_sched (s : State) : (buildFrame s).sched = s.sched := rfl
@[simp] theorem buildFrame_now (s : State) : (buildFrame s).now = s.now := rfl
@[simp] theorem buildFrame_trace (s : State) : (buildFrame s).trace = s.trace := rfl
@[simp] theorem buildFrame_line (s : State) : (buildFrame s).line = s.line := rfl

/-! ### sendRequest -/

@[simp] theorem sendRequest_phase (c : Params) (r : Request) (s : State) : (sendRequest c r s).phase = s.phase := rfl
@[simp] theorem sendRequest_waitRsp (c : Params) (r : Request) (s : State) : (sendRequest c r s).waitRsp = true := rfl
@[simp] theorem sendRequest_op (c : Params) (r : Request) (s : State) : (sendRequest c r s).op = s.op := rfl
@[simp] theorem sendRequest_sc (c : Params) (r : Request) (s : State) : (sendRequest c r s).sc = s.sc := rfl
@[simp] theorem sendRequest_len (c : Params) (r : Request) (s : State) : (sendRequest c r s).len = s.len := rfl
@[simp] theorem sendRequest_pb (c : Params) (r : Request) (s : State) : (sendRequest c r s).pb = s.pb := rfl
@[simp] theorem sendRequest_fb (c : Params) (r : Request) (s : State) : (sendRequest c r s).fb = s.fb := rfl
@[simp] theorem sendRequest_flen (c : Params) (r : Request) (s : State) : (sendRequest c r s).flen = s.flen := rfl
@[simp] theorem sendRequest_tmr (c : Params) (r : Request) (s : State) : (sendRequest c r s).tmr = s.tmr := rfl
@[simp] theorem sendRequest_cmd (c : Params) (r : Request) (s : State) : (sendRequest c r s).cmd = s.cmd := rfl
@[simp] theorem sendRequest_pay (c : Params) (r : Request) (s : State) : (sendRequest c r s).pay = s.pay := rfl
@[simp] theorem sendRequest_taking (c : Params) (r : Request) (s : State) : (sendRequest c r s).taking = s.taking := rfl
@[simp] theorem sendRequest_trsp (c : Params) (r : Request) (s : State) : (sendRequest c r s).trsp = s.trsp := rfl
@[simp] theorem sendRequest_sched (c : Params) (r : Request) (s : State) : (sendRequest c r s).sched = s.sched := rfl
@[simp] theorem sendRequest_now (c : Params) (r : Request) (s : State) : (sendRequest c r s).now = s.now := rfl
@[simp] theorem sendRequest_trace (c : Params) (r : Request) (s : State) : (sendRequest c r s).trace = s.trace ++ [(s.now, r.event)] := rfl
@[simp] theorem sendRequest_line (c : Params) (r : Request) (s : State) : (sendRequest c r s).line = s.line.receive c s.now r := rfl

/-! ### takeAnswer -/

@[simp] theorem takeAnswer_phase (c : Params) (a : Answer) (s : State) : (takeAnswer c a s).phase = s.phase := rfl
@[simp] theorem takeAnswer_waitRsp (c : Params) (a : Answer) (s : State) : (takeAnswer c a s).waitRsp = false := rfl
@[simp] theorem takeAnswer_op (c : Params) (a : Answer) (s : State) : (takeAnswer c a s).op = s.op := rfl
@[simp] theorem takeAnswer_sc (c : Params) (a : Answer) (s : State) : (takeAnswer c a s).sc = s.sc := rfl
@[simp] theorem takeAnswer_len (c : Params) (a : Answer) (s : State) : (takeAnswer c a s).len = s.len := rfl
@[simp] theorem takeAnswer_pb (c : Params) (a : Answer) (s : State) : (takeAnswer c a s).pb = s.pb := rfl
@[simp] theorem takeAnswer_fb (c : Params) (a : Answer) (s : State) : (takeAnswer c a s).fb = s.fb := rfl
@[simp] theorem takeAnswer_flen (c : Params) (a : Answer) (s : State) : (takeAnswer c a s).flen = s.flen := rfl
@[simp] theorem takeAnswer_tmr (c : Params) (a : Answer) (s : State) : (takeAnswer c a s).tmr = s.tmr := rfl
@[simp] theorem takeAnswer_cmd (c : Params) (a : Answer) (s : State) : (takeAnswer c a s).cmd = s.cmd := rfl
@[simp] theorem takeAnswer_pay (c : Params) (a : Answer) (s : State) : (takeAnswer c a s).pay = s.pay := rfl
@[simp] theorem takeAnswer_taking (c : Params) (a : Answer) (s : State) : (takeAnswer c a s).taking = s.taking := rfl
@[simp] theorem takeAnswer_trsp (c : Params) (a : Answer) (s : State) : (takeAnswer c a s).trsp = s.trsp.tail := rfl
@[simp] theorem takeAnswer_sched (c : Params) (a : Answer) (s : State) : (takeAnswer c a s).sched = s.sched := rfl
@[simp] theorem takeAnswer_now (c : Params) (a : Answer) (s : State) : (takeAnswer c a s).now = s.now := rfl
@[simp] theorem takeAnswer_trace (c : Params) (a : Answer) (s : State) : (takeAnswer c a s).trace = s.trace ++ [(s.now, answerEvent s.phase a)] := rfl
@[simp] theorem takeAnswer_line (c : Params) (a : Answer) (s : State) : (takeAnswer c a s).line = s.line.answered c s.phase a := rfl

/-! ### startSettle -/

@[simp] theorem startSettle_phase (s : State) : (startSettle s).phase = .settle := rfl
@[simp] theorem startSettle_waitRsp (s : State) : (startSettle s).waitRsp = s.waitRsp := rfl
@[simp] theorem startSettle_op (s : State) : (startSettle s).op = s.op := rfl
@[simp] theorem startSettle_sc (s : State) : (startSettle s).sc = s.sc := rfl
@[simp] theorem startSettle_len (s : State) : (startSettle s).len = s.len := rfl
@[simp] theorem startSettle_pb (s : State) : (startSettle s).pb = s.pb := rfl
@[simp] theorem startSettle_fb (s : State) : (startSettle s).fb = s.fb := rfl
@[simp] theorem startSettle_flen (s : State) : (startSettle s).flen = s.flen := rfl
@[simp] theorem startSettle_tmr (s : State) : (startSettle s).tmr = 0 := rfl
@[simp] theorem startSettle_cmd (s : State) : (startSettle s).cmd = s.cmd := rfl
@[simp] theorem startSettle_pay (s : State) : (startSettle s).pay = s.pay := rfl
@[simp] theorem startSettle_taking (s : State) : (startSettle s).taking = s.taking := rfl
@[simp] theorem startSettle_trsp (s : State) : (startSettle s).trsp = s.trsp := rfl
@[simp] theorem startSettle_sched (s : State) : (startSettle s).sched = s.sched := rfl
@[simp] theorem startSettle_now (s : State) : (startSettle s).now = s.now := rfl
@[simp] theorem startSettle_trace (s : State) : (startSettle s).trace = s.trace ++ [(s.now, .settleStart)] := rfl
@[simp] theorem startSettle_line (s : State) : (startSettle s).line = s.line := rfl

/-! ### endSettle -/

@[simp] theorem endSettle_phase (s : State) : (endSettle s).phase = .dataCfg := rfl
@[simp] theorem endSettle_waitRsp (s : State) : (endSettle s).waitRsp = false := rfl
@[simp] theorem endSettle_op (s : State) : (endSettle s).op = s.op := rfl
@[simp] theorem endSettle_sc (s : State) : (endSettle s).sc = s.sc := rfl
@[simp] theorem endSettle_len (s : State) : (endSettle s).len = s.len := rfl
@[simp] theorem endSettle_pb (s : State) : (endSettle s).pb = s.pb := rfl
@[simp] theorem endSettle_fb (s : State) : (endSettle s).fb = s.fb := rfl
@[simp] theorem endSettle_flen (s : State) : (endSettle s).flen = s.flen := rfl
@[simp] theorem endSettle_tmr (s : State) : (endSettle s).tmr = s.tmr := rfl
@[simp] theorem endSettle_cmd (s : State) : (endSettle s).cmd = s.cmd := rfl
@[simp] theorem endSettle_pay (s : State) : (endSettle s).pay = s.pay := rfl
@[simp] theorem endSettle_taking (s : State) : (endSettle s).taking = s.taking := rfl
@[simp] theorem endSettle_trsp (s : State) : (endSettle s).trsp = s.trsp := rfl
@[simp] theorem endSettle_sched (s : State) : (endSettle s).sched = s.sched := rfl
@[simp] theorem endSettle_now (s : State) : (endSettle s).now = s.now := rfl
@[simp] theorem endSettle_trace (s : State) : (endSettle s).trace = s.trace ++ [(s.now, .settleEnd)] := rfl
@[simp] theorem endSettle_line (s : State) : (endSettle s).line = s.line := rfl

/-! ### dropTurn -/

@[simp] theorem dropTurn_phase (s : State) : (dropTurn s).phase = s.phase := rfl
@[simp] theorem dropTurn_waitRsp (s : State) : (dropTurn s).waitRsp = s.waitRsp := rfl
@[simp] theorem dropTurn_op (s : State) : (dropTurn s).op = s.op := rfl
@[simp] theorem dropTurn_sc (s : State) : (dropTurn s).sc = s.sc := rfl
@[simp] theorem dropTurn_len (s : State) : (dropTurn s).len = s.len := rfl
@[simp] theorem dropTurn_pb (s : State) : (dropTurn s).pb = s.pb := rfl
@[simp] theorem dropTurn_fb (s : State) : (dropTurn s).fb = s.fb := rfl
@[simp] theorem dropTurn_flen (s : State) : (dropTurn s).flen = s.flen := rfl
@[simp] theorem dropTurn_tmr (s : State) : (dropTurn s).tmr = s.tmr := rfl
@[simp] theorem dropTurn_cmd (s : State) : (dropTurn s).cmd = s.cmd := rfl
@[simp] theorem dropTurn_pay (s : State) : (dropTurn s).pay = s.pay := rfl
@[simp] theorem dropTurn_taking (s : State) : (dropTurn s).taking = s.taking := rfl
@[simp] theorem dropTurn_trsp (s : State) : (dropTurn s).trsp = s.trsp := rfl
@[simp] theorem dropTurn_sched (s : State) : (dropTurn s).sched = s.sched.tail := rfl
@[simp] theorem dropTurn_now (s : State) : (dropTurn s).now = s.now := rfl
@[simp] theorem dropTurn_trace (s : State) : (dropTurn s).trace = s.trace := rfl
@[simp] theorem dropTurn_line (s : State) : (dropTurn s).line = s.line := rfl

/-! ### enterPhase -/

@[simp] theorem enterPhase_op (p : Option Phase) (s : State) : (enterPhase p s).op = s.op := by
  cases p <;> rfl
@[simp] theorem enterPhase_sc (p : Option Phase) (s : State) : (enterPhase p s).sc = s.sc := by
  cases p <;> rfl
@[simp] theorem enterPhase_len (p : Option Phase) (s : State) : (enterPhase p s).len = s.len := by
  cases p <;> rfl
@[simp] theorem enterPhase_pb (p : Option Phase) (s : State) : (enterPhase p s).pb = s.pb := by
  cases p <;> rfl
@[simp] theorem enterPhase_fb (p : Option Phase) (s : State) : (enterPhase p s).fb = s.fb := by
  cases p <;> rfl
@[simp] theorem enterPhase_flen (p : Option Phase) (s : State) : (enterPhase p s).flen = s.flen := by
  cases p <;> rfl
@[simp] theorem enterPhase_tmr (p : Option Phase) (s : State) : (enterPhase p s).tmr = s.tmr := by
  cases p <;> rfl
@[simp] theorem enterPhase_cmd (p : Option Phase) (s : State) : (enterPhase p s).cmd = s.cmd := by
  cases p <;> rfl
@[simp] theorem enterPhase_pay (p : Option Phase) (s : State) : (enterPhase p s).pay = s.pay := by
  cases p <;> rfl
@[simp] theorem enterPhase_taking (p : Option Phase) (s : State) : (enterPhase p s).taking = s.taking := by
  cases p <;> rfl
@[simp] theorem enterPhase_trsp (p : Option Phase) (s : State) : (enterPhase p s).trsp = s.trsp := by
  cases p <;> rfl
@[simp] theorem enterPhase_sched (p : Option Phase) (s : State) : (enterPhase p s).sched = s.sched := by
  cases p <;> rfl
@[simp] theorem enterPhase_now (p : Option Phase) (s : State) : (enterPhase p s).now = s.now := by
  cases p <;> rfl
@[simp] theorem enterPhase_trace (p : Option Phase) (s : State) : (enterPhase p s).trace = s.trace := by
  cases p <;> rfl
@[simp] theorem enterPhase_line (p : Option Phase) (s : State) : (enterPhase p s).line = s.line := by
  cases p <;> rfl
@[simp] theorem enterPhase_phase (p : Option Phase) (s : State) : (enterPhase p s).phase = p.getD s.phase := by
  cases p <;> rfl
@[simp] theorem enterPhase_some_waitRsp (p : Phase) (s : State) : (enterPhase (some p) s).waitRsp = false := rfl
@[simp] theorem enterPhase_none (s : State) : enterPhase none s = s := rfl

/-! ### beginAccept -/

@[simp] theorem beginAccept_phase (p : Option Phase) (d : Descriptor) (got : List Byte) (s : State) :
    (beginAccept p d got s).phase = p.getD s.phase := by simp [beginAccept]
@[simp] theorem beginAccept_op (p : Option Phase) (d : Descriptor) (got : List Byte) (s : State) :
    (beginAccept p d got s).op = s.op := by simp [beginAccept]
@[simp] theorem beginAccept_sc (p : Option Phase) (d : Descriptor) (got : List Byte) (s : State) :
    (beginAccept p d got s).sc = s.sc := by simp [beginAccept]
@[simp] theorem beginAccept_len (p : Option Phase) (d : Descriptor) (got : List Byte) (s : State) :
    (beginAccept p d got s).len = s.len := by simp [beginAccept]
@[simp] theorem beginAccept_pb (p : Option Phase) (d : Descriptor) (got : List Byte) (s : State) :
    (beginAccept p d got s).pb = s.pb := by simp [beginAccept]
@[simp] theorem beginAccept_fb (p : Option Phase) (d : Descriptor) (got : List Byte) (s : State) :
    (beginAccept p d got s).fb = s.fb := by simp [beginAccept]
@[simp] theorem beginAccept_flen (p : Option Phase) (d : Descriptor) (got : List Byte) (s : State) :
    (beginAccept p d got s).flen = s.flen := by simp [beginAccept]
@[simp] theorem beginAccept_tmr (p : Option Phase) (d : Descriptor) (got : List Byte) (s : State) :
    (beginAccept p d got s).tmr = s.tmr := by simp [beginAccept]
@[simp] theorem beginAccept_cmd (p : Option Phase) (d : Descriptor) (got : List Byte) (s : State) :
    (beginAccept p d got s).cmd = s.cmd.tail := by simp [beginAccept]
@[simp] theorem beginAccept_pay (p : Option Phase) (d : Descriptor) (got : List Byte) (s : State) :
    (beginAccept p d got s).pay = s.pay.drop got.length := by simp [beginAccept]
@[simp] theorem beginAccept_taking (p : Option Phase) (d : Descriptor) (got : List Byte) (s : State) :
    (beginAccept p d got s).taking = some { desc := d, got := got } := by simp [beginAccept]
@[simp] theorem beginAccept_trsp (p : Option Phase) (d : Descriptor) (got : List Byte) (s : State) :
    (beginAccept p d got s).trsp = s.trsp := by simp [beginAccept]
@[simp] theorem beginAccept_sched (p : Option Phase) (d : Descriptor) (got : List Byte) (s : State) :
    (beginAccept p d got s).sched = s.sched := by simp [beginAccept]
@[simp] theorem beginAccept_now (p : Option Phase) (d : Descriptor) (got : List Byte) (s : State) :
    (beginAccept p d got s).now = s.now := by simp [beginAccept]
@[simp] theorem beginAccept_trace (p : Option Phase) (d : Descriptor) (got : List Byte) (s : State) :
    (beginAccept p d got s).trace = s.trace := by simp [beginAccept]
@[simp] theorem beginAccept_line (p : Option Phase) (d : Descriptor) (got : List Byte) (s : State) :
    (beginAccept p d got s).line = s.line := by simp [beginAccept]
@[simp] theorem beginAccept_some_waitRsp (p : Phase) (d : Descriptor) (got : List Byte) (s : State) :
    (beginAccept (some p) d got s).waitRsp = false := rfl
@[simp] theorem beginAccept_none_waitRsp (d : Descriptor) (got : List Byte) (s : State) :
    (beginAccept none d got s).waitRsp = s.waitRsp := rfl

/-! ### awaitPayload -/

@[simp] theorem awaitPayload_phase (p : Option Phase) (d : Descriptor) (s : State) :
    (awaitPayload p d s).phase = p.getD s.phase := by simp [awaitPayload]
@[simp] theorem awaitPayload_op (p : Option Phase) (d : Descriptor) (s : State) :
    (awaitPayload p d s).op = s.op := by simp [awaitPayload]
@[simp] theorem awaitPayload_sc (p : Option Phase) (d : Descriptor) (s : State) :
    (awaitPayload p d s).sc = s.sc := by simp [awaitPayload]
@[simp] theorem awaitPayload_len (p : Option Phase) (d : Descriptor) (s : State) :
    (awaitPayload p d s).len = s.len := by simp [awaitPayload]
@[simp] theorem awaitPayload_pb (p : Option Phase) (d : Descriptor) (s : State) :
    (awaitPayload p d s).pb = s.pb := by simp [awaitPayload]
@[simp] theorem awaitPayload_fb (p : Option Phase) (d : Descriptor) (s : State) :
    (awaitPayload p d s).fb = s.fb := by simp [awaitPayload]
@[simp] theorem awaitPayload_flen (p : Option Phase) (d : Descriptor) (s : State) :
    (awaitPayload p d s).flen = s.flen := by simp [awaitPayload]
@[simp] theorem awaitPayload_tmr (p : Option Phase) (d : Descriptor) (s : State) :
    (awaitPayload p d s).tmr = if s.phase = .settle then s.tmr + 1 else s.tmr := by simp [awaitPayload]
@[simp] theorem awaitPayload_cmd (p : Option Phase) (d : Descriptor) (s : State) :
    (awaitPayload p d s).cmd = s.cmd.tail := by simp [awaitPayload]
@[simp] theorem awaitPayload_pay (p : Option Phase) (d : Descriptor) (s : State) :
    (awaitPayload p d s).pay = [] := by simp [awaitPayload]
@[simp] theorem awaitPayload_taking (p : Option Phase) (d : Descriptor) (s : State) :
    (awaitPayload p d s).taking = some { desc := d, got := s.pay } := by simp [awaitPayload]
@[simp] theorem awaitPayload_trsp (p : Option Phase) (d : Descriptor) (s : State) :
    (awaitPayload p d s).trsp = s.trsp := by simp [awaitPayload]
@[simp] theorem awaitPayload_sched (p : Option Phase) (d : Descriptor) (s : State) :
    (awaitPayload p d s).sched = s.sched := by simp [awaitPayload]
@[simp] theorem awaitPayload_now (p : Option Phase) (d : Descriptor) (s : State) :
    (awaitPayload p d s).now = s.now + 1 := by simp [awaitPayload]
@[simp] theorem awaitPayload_trace (p : Option Phase) (d : Descriptor) (s : State) :
    (awaitPayload p d s).trace = s.trace := by simp [awaitPayload]
@[simp] theorem awaitPayload_line (p : Option Phase) (d : Descriptor) (s : State) :
    (awaitPayload p d s).line = s.line := by simp [awaitPayload]
@[simp] theorem awaitPayload_some_waitRsp (p : Phase) (d : Descriptor) (s : State) :
    (awaitPayload (some p) d s).waitRsp = false := rfl
@[simp] theorem awaitPayload_none_waitRsp (d : Descriptor) (s : State) :
    (awaitPayload none d s).waitRsp = s.waitRsp := rfl

/-! ### offered -/

theorem offered_phase_of_idle {s : State} (h : s.phase = .idle) : s.offered.phase = .idle := by
  cases k : s.taking <;> simp [State.offered, h, k]
theorem offered_phase_of_some {s : State} {x : Accepting} (h : s.taking = some x) : s.offered.phase = .idle := by
  simp [State.offered, h]
@[simp] theorem offered_waitRsp (s : State) : s.offered.waitRsp = s.waitRsp := by
  cases h : s.taking <;> simp [State.offered, h]
@[simp] theorem offered_op (s : State) : s.offered.op = s.op := by
  cases h : s.taking <;> simp [State.offered, h]
@[simp] theorem offered_sc (s : State) : s.offered.sc = s.sc := by
  cases h : s.taking <;> simp [State.offered, h]
@[simp] theorem offered_len (s : State) : s.offered.len = s.len := by
  cases h : s.taking <;> simp [State.offered, h]
@[simp] theorem offered_pb (s : State) : s.offered.pb = s.pb := by
  cases h : s.taking <;> simp [State.offered, h]
@[simp] theorem offered_fb (s : State) : s.offered.fb = s.fb := by
  cases h : s.taking <;> simp [State.offered, h]
@[simp] theorem offered_flen (s : State) : s.offered.flen = s.flen := by
  cases h : s.taking <;> simp [State.offered, h]
@[simp] theorem offered_tmr (s : State) : s.offered.tmr = s.tmr := by
  cases h : s.taking <;> simp [State.offered, h]
@[simp] theorem offered_taking (s : State) : s.offered.taking = none := by
  cases h : s.taking <;> simp [State.offered, h]
@[simp] theorem offered_trsp (s : State) : s.offered.trsp = s.trsp := by
  cases h : s.taking <;> simp [State.offered, h]
@[simp] theorem offered_sched (s : State) : s.offered.sched = s.sched := by
  cases h : s.taking <;> simp [State.offered, h]
@[simp] theorem offered_now (s : State) : s.offered.now = s.now := by
  cases h : s.taking <;> simp [State.offered, h]
@[simp] theorem offered_trace (s : State) : s.offered.trace = s.trace := by
  cases h : s.taking <;> simp [State.offered, h]
@[simp] theorem offered_line (s : State) : s.offered.line = s.line := by
  cases h : s.taking <;> simp [State.offered, h]

/-- With no Accept waiting, what is presented is what stands on the channels. -/
theorem offered_of_none {s : State} (h : s.taking = none) : s.offered = s := by
  simp [State.offered, h]

/-- An Accept that waits: its descriptor and the bytes taken come first. -/
theorem offered_of_some {s : State} {x : Accepting} (h : s.taking = some x) :
    s.offered = { s with taking := none, phase := .idle, cmd := x.desc :: s.cmd, pay := x.got ++ s.pay } := by
  simp [State.offered, h]

/-! ### offerDescriptor -/

/-- What an offer turn can do: nothing, or begin the Accept of the oldest descriptor, which announces a payload. -/
theorem offerDescriptor_cases (s : State) :
    offerDescriptor s = s ∨ ∃ d ds, s.acceptReady = true ∧ s.cmd = d :: ds ∧ d.len ≠ 0 ∧
      offerDescriptor s = beginAccept (phaseOf d) d [] s := by
  unfold offerDescriptor
  split
  · split
    · exact .inl rfl
    · rename_i d ds hr hc hl
      exact .inr ⟨d, ds, hr, hc, hl, rfl⟩
  · exact .inl rfl
  · exact .inl rfl

@[simp] theorem offerDescriptor_op (s : State) : (offerDescriptor s).op = s.op := by
  rcases offerDescriptor_cases s with h | ⟨d, ds, -, -, -, h⟩ <;> simp [h]
@[simp] theorem offerDescriptor_sc (s : State) : (offerDescriptor s).sc = s.sc := by
  rcases offerDescriptor_cases s with h | ⟨d, ds, -, -, -, h⟩ <;> simp [h]
@[simp] theorem offerDescriptor_len (s : State) : (offerDescriptor s).len = s.len := by
  rcases offerDescriptor_cases s with h | ⟨d, ds, -, -, -, h⟩ <;> simp [h]
@[simp] theorem offerDescriptor_pb (s : State) : (offerDescriptor s).pb = s.pb := by
  rcases offerDescriptor_cases s with h | ⟨d, ds, -, -, -, h⟩ <;> simp [h]
@[simp] theorem offerDescriptor_fb (s : State) : (offerDescriptor s).fb = s.fb := by
  rcases offerDescriptor_cases s with h | ⟨d, ds, -, -, -, h⟩ <;> simp [h]
@[simp] theorem offerDescriptor_flen (s : State) : (offerDescriptor s).flen = s.flen := by
  rcases offerDescriptor_cases s with h | ⟨d, ds, -, -, -, h⟩ <;> simp [h]
@[simp] theorem offerDescriptor_tmr (s : State) : (offerDescriptor s).tmr = s.tmr := by
  rcases offerDescriptor_cases s with h | ⟨d, ds, -, -, -, h⟩ <;> simp [h]
@[simp] theorem offerDescriptor_pay (s : State) : (offerDescriptor s).pay = s.pay := by
  rcases offerDescriptor_cases s with h | ⟨d, ds, -, -, -, h⟩ <;> simp [h]
@[simp] theorem offerDescriptor_trsp (s : State) : (offerDescriptor s).trsp = s.trsp := by
  rcases offerDescriptor_cases s with h | ⟨d, ds, -, -, -, h⟩ <;> simp [h]
@[simp] theorem offerDescriptor_sched (s : State) : (offerDescriptor s).sched = s.sched := by
  rcases offerDescriptor_cases s with h | ⟨d, ds, -, -, -, h⟩ <;> simp [h]
@[simp] theorem offerDescriptor_now (s : State) : (offerDescriptor s).now = s.now := by
  rcases offerDescriptor_cases s with h | ⟨d, ds, -, -, -, h⟩ <;> simp [h]
@[simp] theorem offerDescriptor_trace (s : State) : (offerDescriptor s).trace = s.trace := by
  rcases offerDescriptor_cases s with h | ⟨d, ds, -, -, -, h⟩ <;> simp [h]
@[simp] theorem offerDescriptor_line (s : State) : (offerDescriptor s).line = s.line := by
  rcases offerDescriptor_cases s with h | ⟨d, ds, -, -, -, h⟩ <;> simp [h]

end Sys2Proof.Machine
end

