-- ==== Sys2Proof/Laws/Steps.lean ====
section
/-! SUPPORT. What each shared operation of the sequencer can answer, and what one step can do: inversion lemmas that later
proofs cite instead of unfolding the step. -/

namespace Sys2Proof.Machine

open Sys2Proof.Safety

/-! ### ACCEPT -/

theorem suppliesBytes_iff (n : Nat) (bs : List Byte) : suppliesBytes n bs = true ↔ n ≤ bs.length := by
  induction n generalizing bs with
  | zero => simp [suppliesBytes]
  | succ n ih => cases bs <;> simp [suppliesBytes, ih]

theorem cmdReady_iff (s : State) : s.cmdReady = true ↔ s.phase = .idle := by
  simp [State.cmdReady, State.busy]

theorem acceptReady_iff (s : State) : s.acceptReady = true ↔ s.phase = .idle ∧ s.taking = none := by
  simp [State.acceptReady, cmdReady_iff]

/-- Where an Accept can begin, what is presented is what stands on the channels. -/
theorem offered_of_ready {s : State} (h : s.acceptReady = true) : s.offered = s :=
  offered_of_none ((acceptReady_iff s).mp h).2

/-- What is presented in IDLE can be taken. -/
theorem offered_ready_of_idle {s : State} (h : s.phase = .idle) : s.offered.acceptReady = true :=
  (acceptReady_iff _).mpr ⟨offered_phase_of_idle h, offered_taking s⟩

/-- What an Accept waits for can be taken. -/
theorem offered_ready_of_some {s : State} {x : Accepting} (h : s.taking = some x) : s.offered.acceptReady = true :=
  (acceptReady_iff _).mpr ⟨offered_phase_of_some h, offered_taking s⟩

/-- A descriptor whose payload is there is taken. -/
theorem takeDescriptor_taken (d : Descriptor) (p : Option Phase) (n : Nat) (f : State → State) (s : State)
    (hr : s.acceptReady = true) (hn : n ≤ s.pay.length) : takeDescriptor d p n f s = .next (f s) := by
  simp [takeDescriptor, hr, (suppliesBytes_iff n s.pay).mpr hn]

/-- A descriptor whose payload is not there begins its Accept. -/
theorem takeDescriptor_awaits (d : Descriptor) (p : Option Phase) (n : Nat) (f : State → State) (s : State)
    (hr : s.acceptReady = true) (hn : s.pay.length < n) :
    takeDescriptor d p n f s = .next (awaitPayload p d s) := by
  have : suppliesBytes n s.pay = false := by
    rw [Bool.eq_false_iff, ne_eq, suppliesBytes_iff]; omega
  simp [takeDescriptor, hr, this]

/-- No descriptor is taken where no Accept can begin. -/
theorem takeDescriptor_waits (d : Descriptor) (p : Option Phase) (n : Nat) (f : State → State) (s : State)
    (hr : s.acceptReady = false) : takeDescriptor d p n f s = .next (passCycle s) := by
  simp [takeDescriptor, hr]

/-- What the taking of a descriptor can answer. -/
theorem takeDescriptor_cases {d : Descriptor} {p : Option Phase} {n : Nat} {f : State → State} {s t : State}
    (h : takeDescriptor d p n f s = .next t) :
    (s.acceptReady = true ∧ n ≤ s.pay.length ∧ t = f s) ∨
    (s.acceptReady = true ∧ s.pay.length < n ∧ t = awaitPayload p d s) ∨
    (s.acceptReady = false ∧ t = passCycle s) := by
  cases hr : s.acceptReady with
  | false =>
    rw [takeDescriptor_waits _ _ _ _ _ hr] at h
    exact .inr (.inr ⟨rfl, by injection h with h; exact h.symm⟩)
  | true =>
    by_cases hn : n ≤ s.pay.length
    · rw [takeDescriptor_taken _ _ _ _ _ hr hn] at h
      exact .inl ⟨rfl, hn, by injection h with h; exact h.symm⟩
    · rw [takeDescriptor_awaits _ _ _ _ _ hr (by omega)] at h
      exact .inr (.inl ⟨rfl, by omega, by injection h with h; exact h.symm⟩)

/-- How a command is loaded: the packet commands that send a frame build it (R161). -/
def loadOf : Instr → State → State
  | .sendBreak => loadCommand .sendBreak
  | .sendRawData n => loadCommand (.sendRawData n)
  | .sendRawPacket n => loadCommand (.sendRawPacket n)
  | .sendPacket n => loadFrameCommand (.sendPacket n)
  | .sendAltPacket n sc => loadFrameCommand (.sendAltPacket n sc)

/-- A command begins in a phase that has a configure. -/
theorem firstPhase_cases (i : Instr) : firstPhase i = .brkCfg ∨ firstPhase i = .dataCfg := by
  cases i <;> simp [firstPhase]

/-- Every command's meaning is ACCEPT with its own load. -/
theorem exec_eq (i : Instr) (s : State) : exec i s = accept i (loadOf i) s := by
  cases i <;> rfl

/-- ACCEPT of a command whose payload is there. -/
theorem exec_accepted (i : Instr) (s : State) (hr : s.acceptReady = true) (hn : i.payloadLen ≤ s.pay.length) :
    exec i s = .next (gotoPhase (firstPhase i) (loadOf i s)) := by
  rw [exec_eq]; exact takeDescriptor_taken _ _ _ _ _ hr hn

/-- ACCEPT of a command whose payload is not there: it begins and waits. -/
theorem exec_awaits (i : Instr) (s : State) (hr : s.acceptReady = true) (hn : s.pay.length < i.payloadLen) :
    exec i s = .next (awaitPayload (some (firstPhase i)) (encode i) s) := by
  rw [exec_eq]; exact takeDescriptor_awaits _ _ _ _ _ hr hn

/-- ACCEPT where none can begin: the command stays presented. -/
theorem exec_waits (i : Instr) (s : State) (hr : s.acceptReady = false) : exec i s = .next (passCycle s) := by
  rw [exec_eq]; exact takeDescriptor_waits _ _ _ _ _ hr

/-- What `exec` can answer: the command is accepted, or its Accept waits for the payload, or it stays presented. -/
theorem exec_cases {i : Instr} {s t : State} (h : exec i s = .next t) :
    (s.acceptReady = true ∧ i.payloadLen ≤ s.pay.length ∧ t = gotoPhase (firstPhase i) (loadOf i s)) ∨
    (s.acceptReady = true ∧ s.pay.length < i.payloadLen ∧
      t = awaitPayload (some (firstPhase i)) (encode i) s) ∨
    (s.acceptReady = false ∧ t = passCycle s) := by
  rw [exec_eq] at h; exact takeDescriptor_cases h

/-- No command faults or is refused at Accept. -/
theorem exec_next (i : Instr) (s : State) : ∃ t, exec i s = .next t := by
  rw [exec_eq]
  unfold accept takeDescriptor
  split <;> exact ⟨_, rfl⟩

theorem phaseOf_ok {d : Descriptor} {i : Instr} (h : decode d = .ok i) : phaseOf d = some (firstPhase i) := by
  simp [phaseOf, h]

theorem phaseOf_error {d : Descriptor} {e : DecodeError} (h : decode d = .error e) : phaseOf d = none := by
  simp [phaseOf, h]

/-- What the refusal of an illegal descriptor can answer. -/
theorem refuseIllegal_cases {d : Descriptor} {s t : State} (h : refuseIllegal d s = .next t) :
    (s.acceptReady = true ∧ d.len.toNat ≤ s.pay.length ∧ t = raiseIllegalCommand d s) ∨
    (s.acceptReady = true ∧ s.pay.length < d.len.toNat ∧ t = awaitPayload none d s) ∨
    (s.acceptReady = false ∧ t = passCycle s) :=
  takeDescriptor_cases h

/-! ### ISSUE, ANSWER, advance() -/

/-- What ISSUE can answer: the request of the phase has been emitted. -/
theorem issue_cases {c : Params} {s t : State} (h : issue c s = .next t) :
    ∃ r, requestOf s = .ok r ∧ t = sendRequest c r s := by
  unfold issue at h
  split at h
  · rename_i r hr
    exact ⟨r, hr, by injection h with h; exact h.symm⟩
  · cases h

/-- What advance() can answer: one of the rows of R29. -/
theorem advance_cases {s t : State} (h : advance s = .next t) :
    (s.phase = .brkCfg ∧ t = gotoPhase .brkWr s) ∨
    (s.phase = .brkWr ∧ isBreakOp s.op = true ∧ t = respond .ok s) ∨
    (s.phase = .brkWr ∧ isBreakOp s.op = false ∧ isPacketOp s.op = true ∧ t = startSettle s) ∨
    (s.phase = .dataCfg ∧ t = gotoPhase .dataWr s) ∨
    (s.phase = .dataWr ∧ t = respond .ok s) := by
  unfold advance at h
  cases hp : s.phase <;> rw [hp] at h <;> simp only at h
  case idle => cases h
  case settle => cases h
  case brkCfg => injection h with h; exact .inl ⟨rfl, h.symm⟩
  case dataCfg => injection h with h; exact .inr (.inr (.inr (.inl ⟨rfl, h.symm⟩)))
  case dataWr => injection h with h; exact .inr (.inr (.inr (.inr ⟨rfl, h.symm⟩)))
  case brkWr =>
    split at h
    · rename_i k; injection h with h; exact .inr (.inl ⟨rfl, k, h.symm⟩)
    · rename_i k k'; injection h with h; exact .inr (.inr (.inl ⟨rfl, k, k', h.symm⟩))
    · cases h

/-- What ANSWER can answer: the transport is silent, or it says `ok`, or it says `err`. -/
theorem answer_cases {c : Params} {s t : State} (h : answer c s = .next t) :
    (s.trsp = [] ∧ t = passCycle s) ∨
    (∃ rest, s.trsp = .ok :: rest ∧ advance (takeAnswer c .ok s) = .next t) ∨
    (∃ e rest, s.trsp = .err e :: rest ∧ t = raiseTransportError e (takeAnswer c (.err e) s)) := by
  unfold answer at h
  split at h
  · rename_i k; injection h with h; exact .inl ⟨k, h.symm⟩
  · rename_i rest k; exact .inr (.inl ⟨rest, k, h⟩)
  · rename_i e rest k; injection h with h; exact .inr (.inr ⟨e, rest, k, h.symm⟩)

/-! ### One step -/

/-- The host may move: in IDLE, or in the first phase of a command whose Accept waits for its payload. -/
def hostTurn (s : State) : Prop :=
  s.phase = .idle ∨ ((s.phase = .brkCfg ∨ s.phase = .dataCfg) ∧ s.waitRsp = false ∧ s.taking ≠ none)

/-- In both, what is presented can be taken. -/
theorem offered_ready {s : State} (h : hostTurn s) : s.offered.acceptReady = true := by
  rcases h with h | ⟨-, -, h⟩
  · exact offered_ready_of_idle h
  · obtain ⟨x, hx⟩ := Option.ne_none_iff_exists'.mp h
    exact offered_ready_of_some hx

/-- Everything one step can do to `s`, the state whose turn has been taken. -/
inductive StepTo (c : Params) (s : State) : State → Prop where
  | passes : StepTo c s (passCycle s)
  | accepts (i : Instr) (hi : i.wellFormed = true) (hp : hostTurn s) (hn : i.payloadLen ≤ s.offered.pay.length)
      (d : Descriptor) (rest : List Descriptor) (hc : s.offered.cmd = d :: rest) (hd : decode d = .ok i) :
      StepTo c s (gotoPhase (firstPhase i) (loadOf i s.offered))
  | refuses (d : Descriptor) (rest : List Descriptor) (hp : hostTurn s) (hc : s.offered.cmd = d :: rest)
      (e : DecodeError) (hd : decode d = .error e) (hn : d.len.toNat ≤ s.offered.pay.length) :
      StepTo c s (raiseIllegalCommand d s.offered)
  | awaits (d : Descriptor) (rest : List Descriptor) (hp : hostTurn s) (hc : s.offered.cmd = d :: rest)
      (i : Instr) (hd : decode d = .ok i) (hn : s.offered.pay.length < d.len.toNat) :
      StepTo c s (awaitPayload (some (firstPhase i)) (encode i) s.offered)
  | awaitsIllegal (d : Descriptor) (rest : List Descriptor) (hp : hostTurn s) (hc : s.offered.cmd = d :: rest)
      (e : DecodeError) (hd : decode d = .error e) (hn : s.offered.pay.length < d.len.toNat) :
      StepTo c s (awaitPayload none d s.offered)
  | issues (r : Request) (hr : requestOf s = .ok r) (hw : s.waitRsp = false)
      (hk : (s.phase = .brkCfg ∨ s.phase = .dataCfg) → s.taking = none) : StepTo c s (sendRequest c r s)
  | advances (t : State) (rest : List Answer) (hp : isTransportPhase s.phase = true) (hw : s.waitRsp = true)
      (ht : s.trsp = .ok :: rest) (ha : advance (takeAnswer c .ok s) = .next t) : StepTo c s t
  | aborts (e : TransportError) (rest : List Answer) (hp : isTransportPhase s.phase = true) (hw : s.waitRsp = true)
      (ht : s.trsp = .err e :: rest) : StepTo c s (raiseTransportError e (takeAnswer c (.err e) s))
  | settles (hp : s.phase = .settle) (hc : settleCycles c ≤ s.tmr) : StepTo c s (endSettle s)
  | resets : StepTo c s (resetPulse s)
  | takes : StepTo c s { s with line := s.line.takeByte }
  | starts : StepTo c s { s with line := s.line.startChar s.now }
  | finishes : StepTo c s { s with line := s.line.finishChar c s.now }
  | offers : StepTo c s (offerDescriptor s)

theorem hostMove_cases {c : Params} {s t : State} (hp : hostTurn s) (h : hostMove s = .next t) :
    StepTo c s t := by
  have hr := offered_ready hp
  unfold hostMove at h
  split at h
  · injection h with h; exact h ▸ .passes
  · rename_i d rest hc
    split at h
    · rename_i i hd
      rcases exec_cases h with ⟨_, hn, rfl⟩ | ⟨_, hn, rfl⟩ | ⟨hf, _⟩
      · exact .accepts i (decode_wellFormed hd) hp hn d rest hc hd
      · exact .awaits d rest hp hc i hd (decode_payloadLen hd ▸ hn)
      · rw [hr] at hf; cases hf
    · rename_i e hd
      rcases refuseIllegal_cases h with ⟨_, hn, rfl⟩ | ⟨_, hn, rfl⟩ | ⟨hf, _⟩
      · exact .refuses d rest hp hc e hd hn
      · exact .awaitsIllegal d rest hp hc e hd hn
      · rw [hr] at hf; cases hf

theorem answerMove_cases {c : Params} {s t : State} (hp : isTransportPhase s.phase = true) (hw : s.waitRsp = true)
    (h : answer c s = .next t) : StepTo c s t := by
  rcases answer_cases h with ⟨_, rfl⟩ | ⟨rest, ht, ha⟩ | ⟨e, rest, ht, rfl⟩
  · exact .passes
  · exact .advances t rest hp hw ht ha
  · exact .aborts e rest hp hw ht

theorem issueMove_cases {c : Params} {s t : State} (hw : s.waitRsp = false)
    (hk : (s.phase = .brkCfg ∨ s.phase = .dataCfg) → s.taking = none) (h : issue c s = .next t) : StepTo c s t := by
  obtain ⟨r, hr, rfl⟩ := issue_cases h
  exact .issues r hr hw hk

theorem firstPhaseMove_cases {c : Params} {s t : State} (hp : s.phase = .brkCfg ∨ s.phase = .dataCfg)
    (h : firstPhaseMove c s = .next t) : StepTo c s t := by
  unfold firstPhaseMove at h
  split at h
  · rename_i hw
    exact answerMove_cases (by rcases hp with k | k <;> rw [k] <;> rfl) hw h
  · rename_i hw hk
    exact issueMove_cases hw (fun _ => hk) h
  · rename_i x hw hk
    exact hostMove_cases (.inr ⟨hp, hw, by simp [hk]⟩) h

theorem writePhaseMove_cases {c : Params} {s t : State} (hp : s.phase = .brkWr ∨ s.phase = .dataWr)
    (h : (if s.waitRsp then answer c s else issue c s) = .next t) : StepTo c s t := by
  split at h
  · rename_i hw
    exact answerMove_cases (by rcases hp with k | k <;> rw [k] <;> rfl) hw h
  · rename_i hw
    refine issueMove_cases (by simpa using hw) (fun k => ?_) h
    rcases hp with a | a <;> rcases k with b | b <;> rw [a] at b <;> cases b

theorem agentMove_cases {c : Params} {s t : State} (h : agentMove c s = .next t) : StepTo c s t := by
  unfold agentMove at h
  cases hp : s.phase <;> rw [hp] at h <;> simp only at h
  case idle => exact hostMove_cases (.inl hp) h
  case settle =>
    injection h with h
    subst h
    unfold settleStep
    split
    · rename_i hc; exact .settles hp hc
    · exact .passes
  case brkCfg => exact firstPhaseMove_cases (.inl hp) h
  case dataCfg => exact firstPhaseMove_cases (.inr hp) h
  case brkWr => exact writePhaseMove_cases (.inl hp) h
  case dataWr => exact writePhaseMove_cases (.inr hp) h

/-- One step, inverted: the turn is taken off the schedule and one of the cases of `StepTo` holds. -/
theorem stepWith_cases {c : Params} {s t : State} (h : stepWith c s = .next t) :
    StepTo c (dropTurn s) t := by
  unfold stepWith takeTurn at h
  split at h
  · exact agentMove_cases h
  all_goals (injection h with h; subst h)
  · exact .passes
  · exact .resets
  · exact .takes
  · exact .starts
  · exact .finishes
  · exact .offers

/-- The same for a step of this hardware. -/
theorem step_cases {s t : State} (h : step s = .next t) : StepTo hardwired (dropTurn s) t :=
  stepWith_cases h

/-! ### Runs -/

theorem run_zero (s : State) : run 0 s = .next s := rfl

/-- A run of one more step, when the first goes on. -/
theorem run_step {k : Nat} {s t : State} (h : step s = .next t) : run (k + 1) s = run k t := by
  simp [run, h]

/-- A run that answers a next state after its first step: that step goes on. -/
theorem run_succ_cases {k : Nat} {s u : State} (h : run (k + 1) s = .next u) :
    ∃ t, step s = .next t ∧ run k t = .next u := by
  cases hs : step s with
  | next t => exact ⟨t, rfl, by rw [← run_step hs]; exact h⟩
  | fault r => simp [run, hs] at h
  | refused r => simp [run, hs] at h

/-- Runs compose. -/
theorem run_add {j k : Nat} {s t : State} (h : run j s = .next t) : run (j + k) s = run k t := by
  induction j generalizing s with
  | zero => injection h with h; subst h; simp
  | succ j ih =>
    obtain ⟨m, hm, hr⟩ := run_succ_cases h
    rw [show j + 1 + k = (j + k) + 1 by omega, run_step hm, ih hr]

end Sys2Proof.Machine
end

