-- ==== Sys2Proof/Laws/Trace.lean ====
section
/-! SUPPORT. How the readers of a trace read one more event. -/

namespace Sys2Proof.Safety

open Sys2Proof.Machine

/-- One more event at the end of a trace. -/
theorem settleBegun_append (tr : List (Nat × Event)) (x : Nat × Event) :
    settleBegun (tr ++ [x]) = noteSettle (settleBegun tr) x := by
  simp [settleBegun]

/-- Reading a sequence of events in two parts. -/
theorem follow_append (es fs : List Event) : ∀ p, follow p (es ++ fs) = (follow p es).bind (fun q => follow q fs) := by
  induction es with
  | nil => intro p; rfl
  | cons e es ih =>
    intro p
    simp only [List.cons_append, follow]
    cases followOne p e with
    | none => rfl
    | some q => simp [ih]

/-- One more event at the end, from a position reached. -/
theorem follow_append_one {p q : Spot} {es : List Event} (h : follow p es = some q) (e : Event) :
    follow p (es ++ [e]) = followOne q e := by
  rw [follow_append, h]
  simp [follow]

/-- The law of the settle wait for one more event. -/
theorem settleLaw_append {c : Params} {tr : List (Nat × Event)} {t : Nat} {e : Event} (h : SettleLaw c tr)
    (he : e = .cfgReq dataProfile → ∀ a, settleBegun tr = some a → a + settleCycles c ≤ t) :
    SettleLaw c (tr ++ [(t, e)]) := by
  intro before after b a heq hb
  rcases List.eq_nil_or_concat after with rfl | ⟨af, z, rfl⟩
  · obtain ⟨rfl, h2⟩ := List.append_inj' heq rfl
    simp only [List.cons.injEq, Prod.mk.injEq, and_true] at h2
    obtain ⟨rfl, rfl⟩ := h2
    exact he rfl a hb
  · have h1 : tr ++ [(t, e)] = (before ++ (b, Event.cfgReq dataProfile) :: af) ++ [z] := by rw [heq]; simp
    obtain ⟨h2, -⟩ := List.append_inj' h1 rfl
    exact h before af b a h2 hb

/-- The events of the named updates that emit one. -/
@[simp] theorem emit_events (e : Event) (s : State) : (emit e s).events = s.events ++ [e] := by
  simp [State.events]

@[simp] theorem gotoPhase_events (p : Phase) (s : State) : (gotoPhase p s).events = s.events := rfl

@[simp] theorem dropTurn_events (s : State) : (dropTurn s).events = s.events := rfl

@[simp] theorem startSettle_events (s : State) : (startSettle s).events = s.events ++ [.settleStart] := by
  simp [State.events]

@[simp] theorem endSettle_events (s : State) : (endSettle s).events = s.events ++ [.settleEnd] := by
  simp [State.events]

@[simp] theorem resetPulse_events (s : State) : (resetPulse s).events = s.events ++ [.reset] := by
  simp [State.events]

@[simp] theorem buildFrame_events (s : State) : (buildFrame s).events = s.events := rfl

@[simp] theorem passCycle_events (s : State) : (passCycle s).events = s.events := rfl

@[simp] theorem raiseTransportError_events (e : TransportError) (s : State) :
    (raiseTransportError e s).events = s.events ++ [.resp (.err e)] := by
  simp [State.events]

@[simp] theorem raiseIllegalCommand_events (d : Descriptor) (s : State) :
    (raiseIllegalCommand d s).events = (s.events ++ [.accept d (s.pay.take d.len.toNat)]) ++ [.resp .illegal] := by
  simp [State.events]

@[simp] theorem respond_events (r : Response) (s : State) : (respond r s).events = s.events ++ [.resp r] := by
  simp [State.events]

@[simp] theorem sendRequest_events (c : Params) (r : Request) (s : State) :
    (sendRequest c r s).events = s.events ++ [r.event] := by
  simp [State.events]

@[simp] theorem takeAnswer_events (c : Params) (a : Answer) (s : State) :
    (takeAnswer c a s).events = s.events ++ [answerEvent s.phase a] := by
  simp [State.events]

@[simp] theorem loadCommand_events (i : Instr) (s : State) :
    (loadCommand i s).events = s.events ++ [.accept (encode i) (s.pay.take i.payloadLen)] := by
  simp [State.events]

@[simp] theorem loadOf_events (i : Instr) (s : State) :
    (loadOf i s).events = s.events ++ [.accept (encode i) (s.pay.take i.payloadLen)] := by
  cases i <;> exact loadCommand_events _ _

end Sys2Proof.Safety
end

