-- ==== Sys2Proof/Tests/Slice0.lean ====
section
/-! SUPPORT. Tests of the model's own on values of the spec (95_test_vectors.md unless another rule is named), and for
every statement with hypotheses a witness that meets them. -/

namespace Sys2Proof.Tests

open Sys2Proof.Machine Sys2Proof.Safety

/-! ### Helpers -/

/-- Whether a step goes on, to a state of which `p` holds. -/
def goesOn (o : StepResult) (p : State → Bool) : Bool :=
  match o with
  | .next t => p t
  | .fault _ => false
  | .refused _ => false

/-- DMXTX idle, with this presented to it and these answers to come. -/
def presented (cmd : List Descriptor) (pay : List Byte) (trsp : List Answer) : State :=
  { State.reset with cmd := cmd, pay := pay, trsp := trsp }

/-- A SEND_RAW_PACKET of two bytes in progress. -/
def busyIn (p : Phase) (w : Bool) (trsp : List Answer) : State :=
  { State.reset with phase := p, waitRsp := w, op := 3, len := 2, pb := [0x00, 0xFF], trsp := trsp }

/-- A packet command in progress at its data write, its frame built. -/
def frameReady (op : BitVec 3) (sc : Byte) : State :=
  { buildFrame { State.reset with op := op, sc := sc, len := 2, pb := [0x11, 0x20] } with phase := .dataWr }

/-- A DMXTX with a 50 MHz clock and this CFG_APPLY. -/
def at50MHz (a : CfgApply) : Params := { settleNs := 136000, fClk := 50000000, cfgApply := a, errw := 8 }

/-- Some error of the transport. -/
def someError : TransportError := { kind := .writeError, info := 0x44 }

/-! ### Decoding: words written out from R72 to R74, fields LEN, SC, RSV, OP from the left -/

theorem test_decode_send_break : decode 0b0000000000000000_00000000_00000_001 = .ok .sendBreak := by rfl
theorem test_decode_send_raw_data : decode 0b0000000000000010_00000000_00000_010 = .ok (.sendRawData 2) := by rfl
theorem test_decode_send_raw_packet : decode 0b0000000000000101_00000000_00000_011 = .ok (.sendRawPacket 5) := by rfl
theorem test_decode_send_packet : decode 0b0000001000000001_00000000_00000_100 = .ok (.sendPacket 513) := by rfl
theorem test_decode_send_alt_packet :
    decode 0b0000001001011000_00010111_00000_101 = .ok (.sendAltPacket 600 0x17) := by rfl
theorem test_decode_every_free_bit_set : decode 0xFFFFFF05 = .ok (.sendAltPacket 65535 0xFF) := by rfl
theorem test_decode_largest_raw_data : decode 0xFFFF0002 = .ok (.sendRawData 65535) := by rfl

/-- The ILLEGAL rows of the decoder's table. -/
theorem test_decode_illegal :
    decode 0x00000000 = .error (.reservedOpcode 0) ∧ decode 0x00000006 = .error (.reservedOpcode 6) ∧
    decode 0x00000007 = .error (.reservedOpcode 7) ∧ decode 0x00000009 = .error (.reservedBits 1) ∧
    decode 0x00010001 = .error (.lengthNotZero 1) ∧ decode 0x00000101 = .error (.startCodeNotZero 1) ∧
    decode 0x00000102 = .error (.startCodeNotZero 1) ∧ decode 0x00000103 = .error (.startCodeNotZero 1) ∧
    decode 0x00001704 = .error (.startCodeNotZero 0x17) ∧ decode 0x00030006 = .error (.reservedOpcode 6) :=
  ⟨rfl, rfl, rfl, rfl, rfl, rfl, rfl, rfl, rfl, rfl⟩

theorem test_decodeTableWord :
    decodeTableWord 32 0x00000001 = some .sendBreak ∧ decodeTableWord 32 0x00035505 = some (.sendAltPacket 3 0x55) ∧
    decodeTableWord 32 0x00000006 = none := by decide

theorem test_withFetchWord_runs_it :
    goesOn (step (State.reset.withFetchWord 32 0x00020004)) (fun t => t.phase = .brkCfg ∧ t.op = 4 ∧ t.flen = 3) := by
  decide

/-! ### Well-formedness: a length that cannot be presented is refused (R76) -/

theorem test_wellFormed_send_raw_data :
    (Instr.sendRawData 65536).wellFormed = false ∧ (Instr.sendRawData 65535).wellFormed = true := by decide
theorem test_wellFormed_send_raw_packet :
    (Instr.sendRawPacket 65536).wellFormed = false ∧ (Instr.sendRawPacket 65535).wellFormed = true := by decide
theorem test_wellFormed_send_packet :
    (Instr.sendPacket 65536).wellFormed = false ∧ (Instr.sendPacket 65535).wellFormed = true := by decide
theorem test_wellFormed_send_alt_packet :
    (Instr.sendAltPacket 65536 0).wellFormed = false ∧ (Instr.sendAltPacket 65535 0xFF).wellFormed = true := by decide

/-! ### Accepting each command -/

theorem test_send_break_enters_brk_cfg :
    goesOn (step (presented [0x00000001] [0xAA] [])) (fun t => t.phase = .brkCfg ∧ t.op = 1 ∧ t.pay = [0xAA]) := by
  decide

theorem test_send_raw_data_enters_data_cfg :
    goesOn (step (presented [0x00020002] [0x00, 0xFF, 0xAA] []))
      (fun t => t.phase = .dataCfg ∧ t.pb = [0x00, 0xFF] ∧ t.pay = [0xAA] ∧ t.fb = []) := by decide

theorem test_send_raw_packet_builds_no_frame :
    goesOn (step (presented [0x00050003] [0, 1, 2, 3, 4] []))
      (fun t => t.phase = .brkCfg ∧ t.pb = [0, 1, 2, 3, 4] ∧ t.fb = [] ∧ t.flen = 0) := by decide

/-- Scenario S1. -/
theorem test_send_packet_builds_the_frame :
    goesOn (step (presented [0x00040004] [0xE4, 0xE4, 0x00, 0xCA] []))
      (fun t => t.flen = 5 ∧ t.fb = [(0, 0x00), (1, 0xE4), (2, 0xE4), (3, 0x00), (4, 0xCA)]) := by decide

/-- Scenario S2: an empty channel list. -/
theorem test_send_alt_packet_empty :
    goesOn (step (presented [0x00001705] [] [])) (fun t => t.phase = .brkCfg ∧ t.flen = 1 ∧ t.fb = [(0, 0x17)]) := by
  decide

/-- Scenario S3: 600 channels, of which 512 are kept; `FB[512] = FC`. -/
theorem test_send_alt_packet_truncates :
    goesOn (step (presented [0x02581705] ((List.range 600).map fun i => BitVec.ofNat 8 (7 * i + 3)) []))
      (fun t => t.flen = 513 ∧ t.pay = [] ∧ t.fb.length = 513 ∧ t.fb[2]? = some (2, 0x0A) ∧ t.fb[512]? = some (512, 0xFC)) := by
  decide +kernel

/-- A shorter frame leaves the bytes beyond it as they were (R167). -/
theorem test_shorter_frame_keeps_the_rest :
    goesOn (step { presented [0x00010005] [0xFF] [] with fb := [(0, 0x55), (1, 1), (2, 2), (3, 3)] })
      (fun t => t.flen = 2 ∧ t.fb = [(0, 0x00), (1, 0xFF), (2, 2), (3, 3)]) := by decide

/-- Program P5: an illegal descriptor drains its payload and changes no register. -/
theorem test_illegal_descriptor :
    goesOn (step { presented [0x00030006, 0x00000001] [0xAA, 0xBB, 0xCC] [] with op := 5, flen := 513 })
      (fun t => t.phase = .idle ∧ t.pay = [] ∧ t.cmd = [0x00000001] ∧ t.op = 5 ∧ t.flen = 513 ∧
        t.events = [.accept 0x00030006 [0xAA, 0xBB, 0xCC], .resp .illegal]) := by decide

/-- Accepting: the descriptor of a SEND_PACKET of two bytes taken, one byte of it taken, and `pay` on PAY. -/
def accepting (pay : List Byte) : State :=
  { presented [] pay [] with phase := .brkCfg, taking := some ⟨0x00020004, [0x11]⟩ }

/-- A command whose payload is short: BUSY is 1 and CMD.ready 0, no request is issued (R246), and reset ends it. -/
theorem test_short_payload_waits_busy :
    goesOn (step (presented [0x00020004] [0x11] []))
      (fun t => t.busy ∧ ¬t.cmdReady ∧ t.phase = .brkCfg ∧ t.events = [] ∧
        goesOn (step t) (fun u => u.busy ∧ u.events = [])) ∧
    goesOn (step { accepting [] with sched := [.rst] }) (fun t => ¬t.busy ∧ t.events = [.reset]) := by decide

/-- An illegal descriptor whose payload is short waits in IDLE (R203), and the next one waits behind it. -/
theorem test_illegal_descriptor_waits_in_idle :
    goesOn (step (presented [0x00030006, 0x00000001] [0xAA] []))
      (fun t => t.phase = .idle ∧ ¬t.busy ∧ t.cmd = [0x00000001] ∧
        goesOn (step t) (fun u => u.cmd = [0x00000001] ∧ u.events = [])) := by decide

/-- The descriptor is taken before its payload (R75), which then makes the Accept one step; SEND_BREAK has none to wait for. -/
theorem test_descriptor_before_its_payload :
    goesOn (step { presented [0x00020004, 0x00000001] [0x11, 0x20] [] with sched := [.offer] })
      (fun t => t.busy ∧ t.cmd = [0x00000001] ∧
        goesOn (step t) (fun u => u.phase = .brkCfg ∧ u.cmd = [0x00000001] ∧ u.pb = [0x11, 0x20] ∧
          u.taking = none)) ∧
    goesOn (step { presented [0x00000001] [] [] with sched := [.offer] })
      (fun t => ¬t.busy ∧ t.cmd = [0x00000001]) := by decide

/-! ### The sequencer -/

theorem test_break_write_is_one_zero_byte :
    goesOn (step (busyIn .brkWr false [])) (fun t => t.waitRsp ∧ tdatMessages t = [0x00] ∧ treqMessages t = [3]) := by
  decide

theorem test_data_write_of_a_frame :
    goesOn (step (frameReady 5 0x55)) (fun t => t.events = [.wrReq [0x55, 0x11, 0x20]]) := by decide

theorem test_break_write_answered_starts_the_wait :
    goesOn (step { busyIn .brkWr true [.ok] with tmr := 9 }) (fun t => t.phase = .settle ∧ t.tmr = 0 ∧ ¬t.waitRsp) := by
  decide

/-- Row `ok, ok, ok, err(ConfigurationError, 0x55)` of 2.5: passed on unchanged. -/
theorem test_unfitting_error_is_passed_on :
    goesOn (step (busyIn .dataWr true [.err ⟨.configurationError, 0x55⟩]))
      (fun t => t.phase = .idle ∧ ¬t.waitRsp ∧ t.events.getLast? = some (.resp (.err ⟨.configurationError, 0x55⟩))) := by
  decide

theorem test_settle_cycles :
    settleCycles { at50MHz .drain with fClk := 50000000 } = 6800 ∧
    settleCycles { at50MHz .drain with fClk := 48000000 } = 6528 ∧
    settleCycles { at50MHz .drain with fClk := 16000000 } = 2176 ∧
    settleCycles { at50MHz .drain with fClk := 14745600 } = 2006 := by decide +kernel

theorem test_settle_ends_at_settle_cycles :
    goesOn (stepWith (at50MHz .drain) { busyIn .settle false [] with tmr := 6799 })
      (fun t => t.phase = .settle ∧ t.tmr = 6800 ∧ t.now = 1) ∧
    goesOn (stepWith (at50MHz .drain) { busyIn .settle false [] with tmr := 6800 })
      (fun t => t.phase = .dataCfg ∧ t.now = 0) := by decide +kernel

/-- Reset in SETTLE with `TMR = 3,000`, and in DATA_WR before the write. -/
theorem test_reset_in_a_command :
    goesOn (step { busyIn .settle false [] with tmr := 3000, sched := [.rst] })
      (fun t => t.phase = .idle ∧ t.tmr = 0 ∧ t.events = [.reset]) ∧
    goesOn (step { busyIn .dataWr false [.ok] with sched := [.rst] })
      (fun t => t.phase = .idle ∧ t.trsp = [.ok] ∧ t.events = [.reset]) := by decide

/-- A byte nothing has written, and an index that does not exist, fault (R19, R50). -/
theorem test_read_faults :
    Memory.read [(0, 0x17)] 0 = .ok 0x17 ∧ Memory.read [(0, 0x17)] 1 = .error (.frameUnwritten 1) ∧
    Memory.read [(513, 0x17)] 513 = .error (.frameIndex 513) := ⟨rfl, rfl, rfl⟩

/-! ### Formats and the line -/

theorem test_status_and_response_words :
    statusWord 8 (.err ⟨.configurationError, 0x11⟩) = 0x045 ∧ responseWord 8 (.err ⟨.configurationError, 0x11⟩) = 0x045 ∧
    statusWord 8 (.err ⟨.writeError, 0x44⟩) = 0x113 ∧ responseWord 8 (.err ⟨.writeError, 0x44⟩) = 0x112 ∧
    statusWord 8 .ok = 0 ∧ responseWord 8 .illegal = 3 := by decide

/-- The form of R88 on a command of P3. -/
theorem test_command_text :
    commandText .sendBreak [] = "SEND_BREAK" ∧
    commandText (.sendAltPacket 3 0x55) [1, 2, 3] = "SEND_ALT_PACKET [1, 2, 3], 85" := by decide +kernel

theorem test_write_headers :
    writeHeader 2 = 0x000000000005 ∧ writeHeader 600 = 0x0000000004B1 ∧ writeHeader 1000 = 0x0000000007D1 ∧
    writeHeader 65535 = 0x00000001FFFF := by decide

/-- R191: 92 us and 8 us just do, one nanosecond less of either does not. -/
theorem test_minimums_of_the_protocol :
    meetsMinimums 92000 8000 = true ∧ meetsMinimums 91999 8000 = false ∧ meetsMinimums 92000 7999 = false := by
  decide +kernel

/-- How long `0x00` is low, in bit times, at 7N1, 8N1, 7E1 and 7O1 (2.7: 138,889, 156,250, 156,250 and 138,889 ns). -/
theorem test_low_time_of_the_break :
    lowBits breakProfile 0 = 8 ∧ lowBits { breakProfile with charSize := 8 } 0 = 9 ∧
    lowBits { breakProfile with parity := .even } 0 = 9 ∧ lowBits { breakProfile with parity := .odd } 0 = 8 := by decide

theorem test_data_bits_least_significant_first :
    charLevels dataProfile 0x01 =
      [.low, .high, .low, .low, .low, .low, .low, .low, .low, .high, .high] := by decide

/-- With `drain` a byte accepted before a configure keeps its profile; with `unspecified` nothing is known of it (R188). -/
theorem test_cfg_apply :
    ((Transport.configureArrives (at50MHz .drain) 5 { Transport.atReset with txq := [⟨some breakProfile, 0⟩] }).txq =
      [⟨some breakProfile, 0⟩]) ∧
    ((Transport.configureArrives hardwired 5 { Transport.atReset with txq := [⟨some breakProfile, 0⟩] }).txq =
      [⟨none, 0⟩]) := by decide

/-- A character may not end before its bit times have passed: a break of 156,250 ns is 7,812.5 cycles at 50 MHz. -/
theorem test_character_lasts_its_time :
    charElapsed (at50MHz .drain) breakProfile 100 7912 = false ∧
    charElapsed (at50MHz .drain) breakProfile 100 7913 = true := by decide +kernel

/-- The line of 2.7's last row, at 50 MHz: a break from time 0, low up to 138,888.9 ns, then high; idle after 156,250 ns. -/
theorem test_line_of_a_break :
    [(0 : Rat), 138888, 138889, 156249, 156251, 190000].map (lineLevel (at50MHz .drain)
      { State.reset with
        now := 10000, line := { Transport.atReset with wire := [⟨0, some breakProfile, 0x00, none, 7813⟩] } }) =
    [some .low, some .low, some .high, some .high, some .high, some .high] := by decide +kernel

/-- A break cut by a configure 136 us after its start has been low until then (R189), and nothing is known after. -/
theorem test_line_of_a_cut_break :
    [(0 : Rat), 135999, 136000].map (lineLevel (at50MHz .immediate)
      { State.reset with
        now := 10000, line := { Transport.atReset with txq := [⟨some breakProfile, 0⟩], began := some ⟨0, some 6800⟩ } }) =
    [some .low, some .low, none] := by decide +kernel

/-! ### Witnesses: for each statement with hypotheses, a state and operands that meet them all -/

theorem witness_EncodeThenDecodeGivesBack :
    (Instr.sendBreak).wellFormed = true ∧ (Instr.sendRawData 0).wellFormed = true ∧
    (Instr.sendAltPacket 65535 0xFF).wellFormed = true := by decide

theorem witness_DecodeThenEncodeGivesBack : decode 0xFFFFFF05 = .ok (.sendAltPacket 65535 0xFF) := rfl

/-- An illegal descriptor of each cause, its payload there to the last byte. -/
theorem witness_IllegalDescriptorIsRefused :
    (∃ e, decode 0x00030006 = .error e) ∧ (presented [0x00030006] [1, 2, 3] []).acceptReady = true ∧
    nextTurn (presented [0x00030006] [1, 2, 3] []) = .go ∧
    (presented [0x00030006] [1, 2, 3] []).cmd = [0x00030006] ∧
    (0x00030006 : Descriptor).len.toNat ≤ (presented [0x00030006] [1, 2, 3] []).pay.length :=
  ⟨⟨_, rfl⟩, rfl, rfl, rfl, by decide⟩

/-- An illegal descriptor of three bytes taken, one byte of it taken. -/
def refusing : State := { presented [0x00000001] [] [] with taking := some ⟨0x00030006, [0xAA]⟩ }

/-- A descriptor on CMD; and one taken before its payload. -/
theorem witness_StepRunsPresentedCommand :
    ((presented [0x00000001] [] []).acceptReady = true ∧ (presented [0x00000001] [] []).cmd = [0x00000001] ∧
      decode 0x00000001 = .ok .sendBreak ∧ nextTurn (presented [0x00000001] [] []) = .go) ∧
    ((accepting [0x20]).phase = .brkCfg ∧ (accepting [0x20]).waitRsp = false ∧ (accepting [0x20]).taking = some ⟨0x00020004, [0x11]⟩ ∧
      decode 0x00020004 = .ok (.sendPacket 2) ∧ nextTurn (accepting [0x20]) = .go) :=
  ⟨⟨rfl, rfl, rfl, rfl⟩, ⟨rfl, rfl, rfl, rfl, rfl⟩⟩

theorem witness_SendBreakIsAccepted : State.reset.acceptReady = true := rfl

/-- The least and the greatest length of a raw command, the payload supplied exactly. -/
theorem witness_SendRawDataIsAccepted :
    (0 ≤ 65535 ∧ State.reset.acceptReady = true ∧ 0 ≤ State.reset.pay.length) ∧
    (65535 ≤ 65535 ∧ (presented [] (List.replicate 65535 0xAA) []).acceptReady = true ∧
      65535 ≤ (presented [] (List.replicate 65535 0xAA) []).pay.length) :=
  ⟨⟨by decide, rfl, by decide⟩, ⟨by decide, rfl, (List.length_replicate (n := 65535) (a := (0xAA : Byte))).ge⟩⟩

theorem witness_SendRawPacketIsAccepted :
    5 ≤ 65535 ∧ (presented [] [0, 1, 2, 3, 4] []).acceptReady = true ∧
    5 ≤ (presented [] [0, 1, 2, 3, 4] []).pay.length := by decide

/-- Both commands, at lengths around the greatest untruncated one. -/
theorem witness_FrameCommandsAreAccepted :
    (Instr.sendPacket 512 = .sendPacket 512 ∧ (0 : Byte) = 0) ∧
    Instr.sendAltPacket 513 0x17 = .sendAltPacket 513 0x17 ∧ 513 ≤ 65535 ∧
    (presented [] (List.replicate 513 0xAA) []).acceptReady = true ∧
    513 ≤ (presented [] (List.replicate 513 0xAA) []).pay.length :=
  ⟨⟨rfl, rfl⟩, rfl, by decide, rfl, (List.length_replicate (n := 513) (a := (0xAA : Byte))).ge⟩

/-- The three raw commands accepted; one whose payload is not there; one asked for in SETTLE and one during an Accept. -/
theorem witness_RawCommandFrame :
    (∃ t, exec .sendBreak State.reset = .next t) ∧
    (∃ t, exec (.sendRawData 2) (presented [] [1, 2] []) = .next t) ∧
    (∃ t, exec (.sendRawPacket 2) (presented [] [1, 2] []) = .next t) ∧
    (∃ t, exec (.sendRawData 2) (presented [] [1] []) = .next t ∧ (presented [] [1] []).acceptReady = true ∧
      (presented [] [1] []).pay.length < 2) ∧
    (∃ t, exec .sendBreak (busyIn .settle false []) = .next t ∧ (busyIn .settle false []).acceptReady = false) ∧
    (∃ t, exec .sendBreak (accepting []) = .next t ∧ (accepting []).acceptReady = false ∧
      (accepting []).taking ≠ none) :=
  ⟨⟨_, rfl⟩, ⟨_, rfl⟩, ⟨_, rfl⟩, ⟨_, rfl, rfl, by decide⟩, ⟨_, rfl, rfl⟩, ⟨_, rfl, rfl, by decide⟩⟩

/-- The two frame commands accepted, with an index inside and one outside the frame; one whose payload is not there; one
asked for where no Accept can begin. -/
theorem witness_FrameCommandFrame :
    (∃ t, exec (.sendPacket 2) (presented [] [1, 2] []) = .next t) ∧
    (∃ t, exec (.sendAltPacket 2 0x17) (presented [] [1, 2] []) = .next t) ∧
    ¬3 < channelCount (loadCommand (.sendPacket 2) (presented [] [1, 2] [])).len.toNat + 1 ∧
    2 < channelCount (loadCommand (.sendPacket 2) (presented [] [1, 2] [])).len.toNat + 1 ∧
    (∃ t, exec (.sendPacket 2) (presented [] [1] []) = .next t ∧ (presented [] [1] []).acceptReady = true ∧
      (presented [] [1] []).pay.length < 2) ∧
    (∃ t, exec (.sendPacket 2) (accepting []) = .next t ∧ (accepting []).acceptReady = false) :=
  ⟨⟨_, rfl⟩, ⟨_, rfl⟩, by decide, by decide, ⟨_, rfl, rfl, by decide⟩, ⟨_, rfl, rfl⟩⟩

theorem witness_CommandWaitsWhileNotReady :
    (busyIn .settle false []).acceptReady = false ∧ (accepting []).acceptReady = false ∧
    (presented [] [1] []).acceptReady = true ∧ (presented [] [1] []).pay.length < (Instr.sendPacket 2).payloadLen := by decide

/-- A command in progress; an Accept that waits for its payload, of a command and of an illegal descriptor. -/
theorem witness_BusyStepTakesNoCommand :
    ((busyIn .brkCfg false []).acceptReady = false ∧ inProgress (busyIn .brkCfg false []) ∧
      ∃ t, step (busyIn .brkCfg false []) = .next t) ∧
    ((accepting [0x20]).acceptReady = false ∧ ∃ t, step (accepting [0x20]) = .next t) ∧
    (refusing.acceptReady = false ∧ ∃ t, step refusing = .next t) :=
  ⟨⟨by decide, by decide, ⟨_, rfl⟩⟩, ⟨by decide, ⟨_, rfl⟩⟩, ⟨by decide, ⟨_, rfl⟩⟩⟩

/-- The registers' invariant of a waiting Accept, of a command and of an illegal descriptor. -/
theorem accepting_inv : RegistersInv (accepting []) where
  frame_wf := by decide
  wait_only_in_transport_phase := by decide
  accepting := fun x h => by cases h; decide
  command_visits_phase := by decide
  payload_has_len_bytes := by decide
  start_code_zero := by decide
  frame_length := by decide
  frame_bytes := fun h _ => absurd h (by decide)

theorem refusing_inv : RegistersInv refusing where
  frame_wf := by decide
  wait_only_in_transport_phase := by decide
  accepting := fun x h => by cases h; decide
  command_visits_phase := by decide
  payload_has_len_bytes := by decide
  start_code_zero := by decide
  frame_length := by decide
  frame_bytes := fun h _ => absurd h (by decide)

theorem witness_BusyAndReady :
    (RegistersInv (accepting []) ∧ (accepting []).taking = some ⟨0x00020004, [0x11]⟩) ∧
    (RegistersInv refusing ∧ refusing.taking = some ⟨0x00030006, [0xAA]⟩) :=
  ⟨⟨accepting_inv, rfl⟩, ⟨refusing_inv, rfl⟩⟩

/-- A payload of LEN bytes, and one byte of it that goes into the frame. -/
theorem witness_BuildFrameWritesTheFrame :
    (busyIn .idle false []).pb.length = (busyIn .idle false []).len.toNat ∧
    1 < min (busyIn .idle false []).len.toNat 512 ∧ (busyIn .idle false []).pb[1]? = some 0xFF ∧
    Memory.wf (busyIn .idle false []).fb = true := by decide

theorem witness_IssueEmitsThePhasesRequest :
    (∀ p ∈ [Phase.brkCfg, .brkWr, .dataCfg, .dataWr], (busyIn p false []).waitRsp = false ∧ (busyIn p false []).taking = none ∧
      nextTurn (busyIn p false []) = .go ∧ (busyIn p false []).phase = p) ∧
    transmitData (busyIn .dataWr false []) = .ok [0x00, 0xFF] := ⟨by decide, rfl⟩

theorem witness_RequestHeadersOfTheSpec :
    requestOf (busyIn .brkCfg false []) = .ok (.cfg breakProfile) ∧
    requestOf (busyIn .dataCfg false []) = .ok (.cfg dataProfile) := ⟨rfl, rfl⟩

/-- The registers' invariant of a data write: a raw command. -/
theorem busyIn_dataWr_inv : RegistersInv (busyIn .dataWr false []) where
  frame_wf := by decide
  wait_only_in_transport_phase := by decide
  accepting := fun x h => by cases h
  command_visits_phase := by decide
  payload_has_len_bytes := by decide
  start_code_zero := by decide
  frame_length := by decide
  frame_bytes := by intro _ h; exact absurd h (by decide)

/-- The registers' invariant of a data write: a frame command. -/
theorem frameReady_inv : RegistersInv (frameReady 5 0x55) where
  frame_wf := by decide
  wait_only_in_transport_phase := by decide
  accepting := fun x h => by cases h
  command_visits_phase := by decide
  payload_has_len_bytes := by decide
  start_code_zero := by decide
  frame_length := by decide
  frame_bytes := fun _ _ => rfl

theorem witness_DataWriteCarriesTheTransmitData :
    (RegistersInv (busyIn .dataWr false []) ∧ (busyIn .dataWr false []).phase = .dataWr ∧
      (busyIn .dataWr false []).waitRsp = false ∧ nextTurn (busyIn .dataWr false []) = .go ∧
      (busyIn .dataWr false []).op = 3) ∧
    (RegistersInv (frameReady 5 0x55) ∧ (frameReady 5 0x55).phase = .dataWr ∧
      (frameReady 5 0x55).waitRsp = false ∧ nextTurn (frameReady 5 0x55) = .go ∧ (frameReady 5 0x55).op = 5) :=
  ⟨⟨busyIn_dataWr_inv, rfl, rfl, rfl, rfl⟩, ⟨frameReady_inv, rfl, rfl, rfl, rfl⟩⟩

/-- One state for each row of advance(). -/
theorem witness_OkAnswerAdvances :
    (∀ p ∈ [Phase.brkCfg, .brkWr, .dataCfg, .dataWr], (busyIn p true [.ok]).waitRsp = true ∧
      nextTurn (busyIn p true [.ok]) = .go ∧ (busyIn p true [.ok]).trsp = [.ok] ∧
      (busyIn p true [.ok]).phase = p ∧ (busyIn p true [.ok]).op = 3) ∧
    { busyIn .brkWr true [.ok] with op := 1 }.phase = .brkWr ∧ { busyIn .brkWr true [.ok] with op := 1 }.op = 1 ∧
    { busyIn .brkWr true [.ok] with op := 1 }.waitRsp = true ∧
    nextTurn { busyIn .brkWr true [.ok] with op := 1 } = .go ∧
    { busyIn .brkWr true [.ok] with op := 1 }.trsp = [.ok] := by decide

theorem witness_ErrorAnswerAborts :
    isTransportPhase (busyIn .dataCfg true [.err someError]).phase = true ∧
    (busyIn .dataCfg true [.err someError]).waitRsp = true ∧
    nextTurn (busyIn .dataCfg true [.err someError]) = .go ∧
    (busyIn .dataCfg true [.err someError]).trsp = [.err someError] := by decide

theorem witness_ErrorWordIsPassedOnUnchanged :
    (0x113 : BitVec (8 + 2)).getLsbD 0 = true ∧
    isTransportPhase (busyIn .brkWr true [answerOfStatus 8 0x113]).phase = true ∧
    (busyIn .brkWr true [answerOfStatus 8 0x113]).waitRsp = true ∧
    nextTurn (busyIn .brkWr true [answerOfStatus 8 0x113]) = .go ∧
    (busyIn .brkWr true [answerOfStatus 8 0x113]).trsp = [answerOfStatus 8 0x113] := by decide

/-- The last tick and the end of the wait, at the boundary. -/
theorem witness_SettleTicksThenEnds :
    (busyIn .settle false []).phase = .settle ∧ nextTurn (busyIn .settle false []) = .go ∧
    { busyIn .settle false [] with tmr := 6799 }.tmr < settleCycles (at50MHz .drain) ∧
    settleCycles (at50MHz .drain) ≤ { busyIn .settle false [] with tmr := 6800 }.tmr := by decide +kernel

theorem witness_SettleMayLastAnyLonger :
    { busyIn .settle false [] with sched := [.hold, .hold] }.phase = .settle ∧
    { busyIn .settle false [] with sched := [.hold, .hold] }.sched = List.replicate 2 .hold := by decide

/-- A silent transport; a host that supplies one byte less than it announced, before and after its descriptor is taken; a
reset coming. -/
theorem witness_NoTimeoutIsImposed :
    (isTransportPhase (busyIn .brkWr true []).phase = true ∧ (busyIn .brkWr true []).waitRsp = true ∧
      (busyIn .brkWr true []).trsp = [] ∧ noReset (busyIn .brkWr true []).sched = true) ∧
    ((accepting []).phase = .brkCfg ∧ (accepting []).waitRsp = false ∧
      (accepting []).taking = some ⟨0x00020004, [0x11]⟩ ∧ decode 0x00020004 = .ok (.sendPacket 2) ∧
      [(0x11 : Byte)].length + (accepting []).pay.length < (0x00020004 : Descriptor).len.toNat ∧
      noReset (accepting []).sched = true ∧ { accepting [] with sched := [.rst] }.sched.head? = some .rst) ∧
    ((presented [0x00020004] [1] []).acceptReady = true ∧ nextTurn (presented [0x00020004] [1] []) = .go ∧
      (presented [0x00020004] [1] []).cmd = [0x00020004] ∧
      (presented [0x00020004] [1] []).pay.length < (0x00020004 : Descriptor).len.toNat) := by decide

theorem witness_IllegalDescriptorWaitsForItsPayload :
    (refusing.phase = .idle ∧ refusing.taking = some ⟨0x00030006, [0xAA]⟩ ∧
      decode 0x00030006 = .error (.reservedOpcode 6) ∧
      [(0xAA : Byte)].length + refusing.pay.length < (0x00030006 : Descriptor).len.toNat ∧
      noReset refusing.sched = true ∧ { refusing with sched := [.rst] }.sched.head? = some .rst) ∧
    ((presented [0x00030006] [1] []).acceptReady = true ∧ nextTurn (presented [0x00030006] [1] []) = .go ∧
      (presented [0x00030006] [1] []).cmd = [0x00030006] ∧
      (presented [0x00030006] [1] []).pay.length < (0x00030006 : Descriptor).len.toNat) := by decide

/-- The registers' invariant where a raw packet's request waits for its answer. -/
theorem busyIn_wait_inv (p : Phase) (a : Answer) (h : p = .brkCfg ∨ p = .brkWr ∨ p = .dataWr) :
    RegistersInv (busyIn p true [a]) where
  frame_wf := rfl
  wait_only_in_transport_phase := fun _ => by rcases h with rfl | rfl | rfl <;> rfl
  accepting := fun x h => by cases h
  command_visits_phase := fun _ => by rcases h with rfl | rfl | rfl <;> rfl
  payload_has_len_bytes := fun _ => rfl
  start_code_zero := fun _ _ => rfl
  frame_length := fun _ h => by cases h
  frame_bytes := fun _ h => by cases h

theorem busyIn_settle_inv : RegistersInv { busyIn .settle false [] with sched := [.rst] } where
  frame_wf := rfl
  wait_only_in_transport_phase := by decide
  accepting := fun x h => by cases h
  command_visits_phase := fun _ => rfl
  payload_has_len_bytes := fun _ => rfl
  start_code_zero := fun _ _ => rfl
  frame_length := fun _ h => by cases h
  frame_bytes := fun _ h => by cases h

theorem witness_PhaseNeverMovesBackwards :
    (RegistersInv (busyIn .brkWr true [.ok]) ∧ ∃ t, step (busyIn .brkWr true [.ok]) = .next t) ∧
    (RegistersInv (accepting []) ∧ ∃ t, step (accepting []) = .next t) :=
  ⟨⟨busyIn_wait_inv _ _ (by simp), ⟨_, rfl⟩⟩, ⟨accepting_inv, ⟨_, rfl⟩⟩⟩

/-- Each of the three ways to IDLE, and an illegal descriptor. -/
theorem witness_IdleIsReachedInThreeWays :
    (RegistersInv (busyIn .dataWr true [.ok]) ∧ (busyIn .dataWr true [.ok]).phase ≠ .idle ∧
      ∃ t, step (busyIn .dataWr true [.ok]) = .next t ∧ t.phase = .idle) ∧
    (RegistersInv (busyIn .brkCfg true [.err someError]) ∧ (busyIn .brkCfg true [.err someError]).phase ≠ .idle ∧
      ∃ t, step (busyIn .brkCfg true [.err someError]) = .next t ∧ t.phase = .idle) ∧
    (RegistersInv { busyIn .settle false [] with sched := [.rst] } ∧
      { busyIn .settle false [] with sched := [.rst] }.phase ≠ .idle ∧
      ∃ t, step { busyIn .settle false [] with sched := [.rst] } = .next t ∧ t.phase = .idle) ∧
    (∃ t, refuseIllegal 0x00000006 State.reset = .next t ∧ State.reset.phase = .idle) :=
  ⟨⟨busyIn_wait_inv _ _ (by simp), by decide, ⟨_, rfl, rfl⟩⟩, ⟨busyIn_wait_inv _ _ (by simp), by decide, ⟨_, rfl, rfl⟩⟩,
   ⟨busyIn_settle_inv, by decide, ⟨_, rfl, rfl⟩⟩, ⟨_, rfl, rfl⟩⟩

theorem witness_ResetAbandonsTheCommand :
    { busyIn .dataWr false [] with sched := [.rst, .hold] }.sched = .rst :: [.hold] := rfl

theorem witness_StepKeepsRegistersInv_StepNeverStops :
    RegistersInv (busyIn .dataWr false []) ∧ ∃ t, step (busyIn .dataWr false []) = .next t :=
  ⟨busyIn_dataWr_inv, ⟨_, rfl⟩⟩

/-- A SEND_RAW_DATA about to write, with the events that led there. -/
def aboutToWrite : State :=
  { busyIn .dataWr false [] with
    op := 2, trace := [(0, .accept 0x00020002 [0x00, 0xFF]), (1, .cfgReq dataProfile), (2, .cfgRsp .ok)], now := 2 }

theorem aboutToWrite_inv : RegistersInv aboutToWrite where
  frame_wf := by decide
  wait_only_in_transport_phase := by decide
  accepting := fun x h => by cases h
  command_visits_phase := by decide
  payload_has_len_bytes := by decide
  start_code_zero := by decide
  frame_length := by decide
  frame_bytes := by intro _ h; exact absurd h (by decide)

theorem witness_StepKeepsTheOrderOfEvents :
    RegistersInv aboutToWrite ∧ OrderInv aboutToWrite ∧ ∃ t, step aboutToWrite = .next t :=
  ⟨aboutToWrite_inv, rfl, ⟨_, rfl⟩⟩

/-- In SETTLE, 6,800 cycles of a 50 MHz clock after SettleStart: the next step ends the wait. -/
theorem witness_StepKeepsTheSettleLaw :
    ∃ s t, TimeInv (at50MHz .drain) s ∧ s.phase = .settle ∧ stepWith (at50MHz .drain) s = .next t := by
  refine ⟨{ busyIn .settle false [] with tmr := 6800, now := 7000, trace := [(200, .settleStart)] }, _,
    ⟨?_, ?_, ?_, ?_, ?_⟩, rfl, rfl⟩
  · simp
  · simp
  · intro before after b a h
    rcases before with _ | ⟨x, before⟩ <;> simp at h
  · intro _; exact ⟨200, rfl, rfl⟩
  · intro h; cases h

theorem witness_StepKeepsTheWriteProfile :
    ∃ s t, ProfileInv s ∧ s.phase = .dataWr ∧ step s = .next t :=
  ⟨{ busyIn .dataWr false [] with line := { Transport.atReset with lineProf := some dataProfile } }, _,
    ⟨fun h => (by cases h), fun _ => rfl⟩, rfl, rfl⟩

/-- A break sent from cycle 100, then a data character from cycle 7930 on, at 50 MHz. -/
def twoCharacters : State :=
  { State.reset with
    now := 20000,
    line := { Transport.atReset with wire := [⟨100, some breakProfile, 0x00, none, 7920⟩, ⟨7930, some dataProfile, 0x17, none, 11000⟩] } }

theorem twoCharacters_inv : LineInv (at50MHz .drain) twoCharacters where
  no_overlap := by
    simp only [twoCharacters, List.pairwise_cons, List.mem_singleton, List.not_mem_nil]
    refine ⟨?_, fun _ h => h.elim, List.Pairwise.nil⟩
    rintro y rfl
    exact ⟨by decide, fun p hp _ => by cases hp; decide +kernel⟩
  all_ended := by
    intro x hx
    simp only [twoCharacters, List.mem_cons, List.not_mem_nil, or_false] at hx
    rcases hx with rfl | rfl
    · exact ⟨⟨by decide, fun p hp _ => by cases hp; decide +kernel⟩, by decide, fun m hm => by cases hm⟩
    · exact ⟨⟨by decide, fun p hp _ => by cases hp; decide +kernel⟩, by decide, fun m hm => by cases hm⟩
  in_progress := by intro b h; cases h

theorem witness_StepKeepsCharactersApart :
    LineInv (at50MHz .drain) twoCharacters ∧ ∃ t, stepWith (at50MHz .drain) twoCharacters = .next t :=
  ⟨twoCharacters_inv, ⟨_, rfl⟩⟩

theorem twoCharacters_determined : DeterminedInv twoCharacters where
  profiles := ⟨fun h => (by cases h), fun h => (by cases h)⟩
  pending_in_a_write := fun h => absurd rfl h
  queued := fun q hq => (by cases hq)
  sent := by
    intro x hx
    simp only [twoCharacters, List.mem_cons, List.not_mem_nil, or_false] at hx
    rcases hx with rfl | rfl
    · exact ⟨.inl rfl, rfl⟩
    · exact ⟨.inr rfl, rfl⟩
  uncut := fun b h => (by cases h)

theorem witness_StepKeepsProfilesDetermined :
    (at50MHz .drain).cfgApply = .drain ∧ DeterminedInv twoCharacters ∧
    ∃ t, stepWith (at50MHz .drain) twoCharacters = .next t := ⟨rfl, twoCharacters_determined, ⟨_, rfl⟩⟩

/-- The break of `twoCharacters`, and its data character. -/
def theBreak : SentChar := ⟨100, some breakProfile, 0x00, none, 7920⟩
def theData : SentChar := ⟨7930, some dataProfile, 0x17, none, 11000⟩

/-- Times in its low part, at the end of its stop bit, and before now (400,000 ns). -/
theorem witness_DeterminedLineHasAWaveform :
    0 < (at50MHz .drain).fClk ∧ DeterminedInv twoCharacters ∧ LineInv (at50MHz .drain) twoCharacters ∧
    theBreak ∈ twoCharacters.line.wire ∧ theBreak.prof = some breakProfile ∧ theBreak.byte = breakByte ∧
    (0 : Rat) ≤ 2000 ∧ (2000 : Rat) < timeNs (at50MHz .drain) twoCharacters.now ∧
    timeNs (at50MHz .drain) theBreak.start ≤ 2000 ∧
    (2000 : Rat) < timeNs (at50MHz .drain) theBreak.start + 8 * bitTimeNs breakProfile ∧
    timeNs (at50MHz .drain) theBreak.start + 8 * bitTimeNs breakProfile ≤ 158000 ∧
    (158000 : Rat) < timeNs (at50MHz .drain) theBreak.start + 156250 := by
  refine ⟨by decide, twoCharacters_determined, twoCharacters_inv, by simp [theBreak, twoCharacters], rfl, rfl, ?_⟩
  norm_num [timeNs, at50MHz, twoCharacters, theBreak, bitTimeNs, bitsPerSecond, breakProfile]

/-- The time 158,400 ns is in the gap between the break's stop bit and the data character. -/
theorem witness_IdleLineIsHigh :
    0 < (at50MHz .drain).fClk ∧ LineInv (at50MHz .drain) twoCharacters ∧ (0 : Rat) ≤ 158400 ∧
    (158400 : Rat) < timeNs (at50MHz .drain) twoCharacters.now ∧
    ∀ x ∈ charsOf twoCharacters,
      (158400 : Rat) < timeNs (at50MHz .drain) x.start ∨ charEndNs (at50MHz .drain) x ≤ 158400 := by
  refine ⟨by decide, twoCharacters_inv, by norm_num, ?_, ?_⟩
  · norm_num [timeNs, at50MHz, twoCharacters]
  · intro x hx
    simp only [charsOf, Transport.characters, twoCharacters, Transport.atReset, List.mem_cons, List.not_mem_nil,
      or_false] at hx
    rcases hx with rfl | rfl
    · right
      norm_num [charEndNs, timeNs, at50MHz, charNs, charBits, stopBitCount, bitTimeNs, bitsPerSecond, breakProfile]
    · left
      norm_num [timeNs, at50MHz]

/-- The first data bit of `0x17`: bit time 1 of its character, 4,000 ns after its start at 158,600 ns. -/
theorem witness_CharacterLevelsOnTheLine :
    0 < (at50MHz .drain).fClk ∧ LineInv (at50MHz .drain) twoCharacters ∧ theData ∈ charsOf twoCharacters ∧
    theData.prof = some dataProfile ∧ 0 < bitsPerSecond dataProfile ∧
    (charLevels dataProfile theData.byte)[1]? = some .high ∧
    timeNs (at50MHz .drain) theData.start + (1 : Nat) * bitTimeNs dataProfile ≤ 163000 ∧
    (163000 : Rat) < timeNs (at50MHz .drain) theData.start + ((1 : Nat) + 1) * bitTimeNs dataProfile ∧
    (163000 : Rat) < timeNs (at50MHz .drain) twoCharacters.now ∧
    ∀ m, theData.cutAt = some m → (163000 : Rat) < timeNs (at50MHz .drain) m := by
  refine ⟨by decide, twoCharacters_inv, ?_, rfl, by decide, by decide, ?_, ?_, ?_, fun m h => by cases h⟩
  · simp [theData, charsOf, Transport.characters, twoCharacters, Transport.atReset]
  · norm_num [timeNs, at50MHz, theData, bitTimeNs, bitsPerSecond, dataProfile]
  · norm_num [timeNs, at50MHz, theData, bitTimeNs, bitsPerSecond, dataProfile]
  · norm_num [timeNs, at50MHz, twoCharacters]

theorem witness_PacketOnTheLine :
    0 < (at50MHz .drain).fClk ∧ LineInv (at50MHz .drain) twoCharacters ∧
    twoCharacters.line.wire = [] ++ theBreak :: ((theData :: []) ++ []) ∧ theBreak.prof = some breakProfile ∧
    theBreak.byte = breakByte ∧ theBreak.cutAt = none ∧
    (∀ w ∈ [theData], w.prof = some dataProfile ∧ w.cutAt = none) ∧ [theData].getLast? = some theData :=
  ⟨by decide, twoCharacters_inv, rfl, rfl, rfl, rfl, by simp [theData], rfl⟩

/-- A break begun in cycle 100 and cut by a configure 6,800 cycles (136 us) later, still unfinished. -/
def cutBreak : State :=
  { State.reset with
    now := 7000,
    line := { Transport.atReset with txq := [⟨some breakProfile, 0x00⟩], began := some ⟨100, some 6900⟩ } }

theorem cutBreak_inv : LineInv (at50MHz .immediate) cutBreak where
  no_overlap := List.Pairwise.nil
  all_ended := by intro x hx; cases hx
  in_progress := by
    intro b h
    cases h
    refine ⟨⟨by decide, fun m hm => ?_⟩, fun x hx => by cases hx⟩
    cases hm
    decide

/-- A time before the cut and one after it. -/
theorem witness_CutBreakHasBeenLow :
    0 < (at50MHz .immediate).fClk ∧ LineInv (at50MHz .immediate) cutBreak ∧
    (⟨100, some breakProfile, 0x00, some 6900, 7000⟩ : SentChar) ∈ charsOf cutBreak ∧
    100 + settleCycles (at50MHz .immediate) ≤ 6900 ∧
    timeNs (at50MHz .immediate) 100 ≤ 137000 ∧
    (137000 : Rat) < timeNs (at50MHz .immediate) 100 + ((at50MHz .immediate).settleNs : Rat) ∧
    (137000 : Rat) < timeNs (at50MHz .immediate) 100 + 8 * bitTimeNs breakProfile ∧
    timeNs (at50MHz .immediate) 6900 ≤ 139000 ∧ (139000 : Rat) < timeNs (at50MHz .immediate) 7000 := by
  refine ⟨by decide, cutBreak_inv, ?_, by decide +kernel, ?_⟩
  · simp [charsOf, Transport.characters, cutBreak, Transport.atReset, QueuedByte.sent]
  · norm_num [timeNs, at50MHz, bitTimeNs, bitsPerSecond, breakProfile]

theorem witness_ElapsedCharacterHasLastedItsTime :
    0 < (at50MHz .drain).fClk ∧ 0 < bitsPerSecond breakProfile ∧ LineInv (at50MHz .drain) twoCharacters ∧
    twoCharacters.line.wire = [] ++ theBreak :: ([] ++ theData :: []) ∧ theBreak.prof = some breakProfile ∧
    theBreak.cutAt = none :=
  ⟨by decide, by decide, twoCharacters_inv, rfl, rfl, rfl⟩

/-- An idle DMXTX with a payload of two bytes and the answers of a whole packet to come. -/
def quiet : State := presented [] [0x11, 0x20] [.ok, .ok, .ok, .ok]

theorem witness_CommandRunsToItsResponse :
    (Instr.sendAltPacket 2 0x17).wellFormed = true ∧ quiet.acceptReady = true ∧ quiet.sched = [] ∧
    (Instr.sendAltPacket 2 0x17).payloadLen ≤ quiet.pay.length ∧
    transactionCount (.sendAltPacket 2 0x17) ≤ quiet.trsp.length := by decide

theorem witness_SuccessfulRawPacketTrace :
    2 ≤ 65535 ∧ quiet.acceptReady = true ∧ quiet.sched = [] ∧ 2 ≤ quiet.pay.length ∧
    quiet.trsp = .ok :: .ok :: .ok :: .ok :: [] := by decide

theorem witness_SuccessfulFrameCommandTrace :
    (Instr.sendPacket 2 = .sendPacket 2 ∧ (0 : Byte) = 0) ∧ Instr.sendAltPacket 2 0x17 = .sendAltPacket 2 0x17 ∧
    2 ≤ 65535 ∧ quiet.acceptReady = true ∧ quiet.sched = [] ∧ 2 ≤ quiet.pay.length ∧
    quiet.trsp = .ok :: .ok :: .ok :: .ok :: [] := by decide

theorem witness_SuccessfulBreakAndRawDataTraces :
    quiet.acceptReady = true ∧ quiet.sched = [] ∧ quiet.trsp = .ok :: .ok :: [.ok, .ok] ∧ 0 ≤ quiet.pay.length ∧
    2 ≤ quiet.pay.length := by decide

/-- The first and the last transaction of a packet failing. -/
theorem witness_FirstErrorEndsTheCommand :
    (Instr.sendRawPacket 2).wellFormed = true ∧ quiet.acceptReady = true ∧ (Instr.sendRawPacket 2).payloadLen ≤ quiet.pay.length ∧
    0 < transactionCount (.sendRawPacket 2) ∧ 3 < transactionCount (.sendRawPacket 2) ∧
    { quiet with trsp := [.err someError] }.trsp = List.replicate 0 .ok ++ .err someError :: [] ∧
    { quiet with trsp := [.ok, .ok, .ok, .err someError] }.trsp = List.replicate 3 .ok ++ .err someError :: [] := by
  decide

theorem witness_SendPacketEqualsAltPacketZero :
    ∃ t u t', exec (.sendPacket 2) quiet = .next t ∧ exec (.sendAltPacket 2 0) quiet = .next u ∧ run 3 t = .next t' :=
  ⟨_, _, _, rfl, rfl, rfl⟩

theorem witness_DeadRegistersDoNotMatter :
    quiet.phase = .idle ∧
    SameButDead quiet { quiet with op := 4, sc := 0x17, len := 9, pb := [1], fb := [(0, 0x17)], flen := 7, tmr := 3 } ∧
    ∃ t, run 3 quiet = .next t :=
  ⟨rfl, ⟨rfl, rfl, rfl, rfl, rfl, rfl, rfl, rfl, rfl, rfl⟩, ⟨_, rfl⟩⟩

theorem witness_TurnsDoNotChangeTheEvents :
    noReset [.hold, .go, .startChar] = true ∧ noReset [] = true ∧
    (∃ t, run 3 { busyIn .brkCfg false [] with sched := [.hold, .go, .startChar] } = .next t) ∧
    (∃ u, run 1 { busyIn .brkCfg false [] with sched := [] } = .next u) :=
  ⟨by decide, by decide, ⟨_, rfl⟩, ⟨_, rfl⟩⟩

theorem witness_StatusWordCarriesTheAnswer :
    ∀ e, Answer.err ⟨.writeError, 255⟩ = .err e → e.info < 2 ^ 8 := by
  intro e h
  cases h
  decide

theorem witness_SettleCyclesCoverTheSettleDuration :
    0 < (at50MHz .drain).fClk ∧ 6799 < settleCycles (at50MHz .drain) := by decide +kernel

/-- A write of two bytes outstanding, with these turns and this answer to come. -/
def writing (ts : List Turn) (a : Answer) : State :=
  { busyIn .dataWr true [a] with sched := ts, line := { Transport.atReset with pend := [1, 2] } }

/-- A write answered `ok`, and one rejected after one byte of two. -/
theorem witness_AnsweredWriteFillsTheQueue :
    ((writing [] .ok).phase = .dataWr ∧ (writing [] .ok).waitRsp = true ∧ (writing [] .ok).line.pend = [1, 2] ∧
      nextTurn (writing [] .ok) = .go ∧ (writing [] .ok).trsp = [.ok] ∧ ∃ t, step (writing [] .ok) = .next t) ∧
    ((writing [.takeByte] (.err someError)).phase = .dataWr ∧
      (writing [.takeByte] (.err someError)).waitRsp = true ∧
      (writing [.takeByte] (.err someError)).line.pend = [1, 2] ∧ 1 ≤ [(1 : Byte), 2].length ∧
      (writing [.takeByte] (.err someError)).sched = List.replicate 1 .takeByte ∧
      (writing [.takeByte] (.err someError)).trsp = [.err someError]) :=
  ⟨⟨rfl, rfl, rfl, rfl, rfl, ⟨_, rfl⟩⟩, ⟨rfl, rfl, rfl, by decide, rfl, rfl⟩⟩

theorem witness_ConfigureSetsTheLine :
    (at50MHz .drain).cfgApply = .drain ∧ (at50MHz .unspecified).cfgApply = .unspecified ∧
    (at50MHz .immediate).cfgApply = .immediate ∧ Transport.atReset.began = none ∧
    (⟨none, 0⟩ : QueuedByte) ∈
      ((Transport.configureArrives (at50MHz .unspecified) 5 { Transport.atReset with txq := [⟨some breakProfile, 0⟩] }).configureAnswered
        (at50MHz .unspecified) dataProfile .ok).txq := by decide

/-- With `immediate`, a character in progress: a break not yet over (7,812.5 cycles) is cut, one that is over is not. -/
theorem witness_ConfigureSetsTheLine_cut :
    (at50MHz .immediate).cfgApply = .immediate ∧ cutBreak.line.txq = ⟨some breakProfile, 0x00⟩ :: [] ∧
    charMayEnd (at50MHz .immediate) (some breakProfile) ⟨100, none⟩ 6900 = false ∧
    charMayEnd (at50MHz .immediate) (some breakProfile) ⟨100, none⟩ 7913 = true := by decide +kernel

end Sys2Proof.Tests
end

section
/-!
The settle wait in clock cycles and in nanoseconds (R8, D6, R245). SETTLE_CYCLES is a rounded-up quotient, so it is the
lower adjoint of "k cycles last at least SETTLE_NS"; both halves of its minimality are read off that equivalence.
-/
namespace Sys2Proof.Machine

theorem settleCycles_eq_ceilDiv (c : Params) : settleCycles c = (c.settleNs * c.fClk) ⌈/⌉ 10 ^ 9 := by
  rw [Nat.ceilDiv_eq_add_pred_div, settleCycles, Nat.add_sub_assoc (by decide)]

theorem settleCycles_le_iff_mul_le (c : Params) (k : Nat) :
    settleCycles c ≤ k ↔ c.settleNs * c.fClk ≤ k * 10 ^ 9 := by
  rw [settleCycles_eq_ceilDiv, ceilDiv_le_iff_le_mul (by decide), mul_comm k]

theorem settleNs_le_timeNs_iff_mul_le {c : Params} (hclk : 0 < c.fClk) (k : Nat) :
    (c.settleNs : Rat) ≤ timeNs c k ↔ c.settleNs * c.fClk ≤ k * 10 ^ 9 := by
  rw [timeNs, le_div_iff₀ (Nat.cast_pos.mpr hclk)]
  norm_cast

/-- The wait's bound, counted in cycles, is exactly the bound in nanoseconds. -/
theorem settleCycles_le_iff_settleNs_le_timeNs {c : Params} (hclk : 0 < c.fClk) (k : Nat) :
    settleCycles c ≤ k ↔ (c.settleNs : Rat) ≤ timeNs c k :=
  (settleCycles_le_iff_mul_le c k).trans (settleNs_le_timeNs_iff_mul_le hclk k).symm

/-- Settles O48: the first half is the equivalence of the two bounds at SETTLE_CYCLES itself, the second its
contrapositive at any smaller count. -/
theorem settleCyclesCoverTheSettleDuration : Obligations.SettleCyclesCoverTheSettleDuration := by
  intro c hclk
  have bound := settleCycles_le_iff_settleNs_le_timeNs hclk
  exact ⟨(bound _).mp le_rfl, fun k hk => lt_of_not_ge fun hle => hk.not_ge ((bound k).mpr hle)⟩

end Sys2Proof.Machine
end

section
/-!
What a decoded command says of its descriptor (R72 to R74): every field of the descriptor is the command's, so the encoder
gives the descriptor back.
-/
namespace Sys2Proof

theorem sc_of_needZeroStartCode {d : Descriptor} {i j : Instr} (h : needZeroStartCode d i = .ok j) : d.sc = 0 := by
  by_contra hsc
  rw [needZeroStartCode, if_neg hsc] at h
  cases h

theorem decode_of_rsv {d : Descriptor} (h : d.rsv = 0) : decode d = decodeByOpcode d := if_pos h

theorem rsv_of_decode {d : Descriptor} {i : Instr} (h : decode d = .ok i) : d.rsv = 0 := by
  by_contra hr
  rw [decode, if_neg hr] at h
  cases h

/-- A decoded command has the opcode and the start code of its descriptor. -/
theorem decode_opcode_startCode {d : Descriptor} {i : Instr} (h : decode d = .ok i) :
    i.opcode = d.op ∧ i.startCode = d.sc := by
  have opcode_eq : ∀ k : Nat, d.op.toNat = k → BitVec.ofNat 3 k = d.op := fun k hk => by
    rw [← hk, BitVec.ofNat_toNat, BitVec.setWidth_eq]
  rw [decode_of_rsv (rsv_of_decode h)] at h
  unfold decodeByOpcode at h
  split at h
  next hop =>
    cases hz : needZeroStartCode d .sendBreak with
    | error e => rw [hz] at h; cases h
    | ok j =>
      rw [hz] at h
      rw [needZeroLength_ok h, needZeroStartCode_ok hz]
      exact ⟨opcode_eq 1 hop, (sc_of_needZeroStartCode hz).symm⟩
  next hop =>
    rw [needZeroStartCode_ok h]
    exact ⟨opcode_eq 2 hop, (sc_of_needZeroStartCode h).symm⟩
  next hop =>
    rw [needZeroStartCode_ok h]
    exact ⟨opcode_eq 3 hop, (sc_of_needZeroStartCode h).symm⟩
  next hop =>
    rw [needZeroStartCode_ok h]
    exact ⟨opcode_eq 4 hop, (sc_of_needZeroStartCode h).symm⟩
  next hop =>
    cases h
    exact ⟨opcode_eq 5 hop, rfl⟩
  next => cases h

/-- The encoder gives back the descriptor a command was decoded from. -/
theorem encode_of_decode {d : Descriptor} {i : Instr} (h : decode d = .ok i) : encode i = d := by
  obtain ⟨hop, hsc⟩ := decode_opcode_startCode h
  have hrsv : d.toNat / 8 % 32 = 0 := by
    rw [← Descriptor.rsv_toNat, rsv_of_decode h]; rfl
  apply BitVec.eq_of_toNat_eq
  rw [encode_toNat (decode_wellFormed h), decode_payloadLen h, hop, hsc, Descriptor.len_toNat, Descriptor.sc_toNat,
    Descriptor.op_toNat]
  omega

end Sys2Proof
end

section
/-!
Which agent moves at a go turn (R14, R25): four exclusive cases of PHASE and WAITRSP, one equation each. Proofs about a
step of a known state cite these and do not unfold `agentMove`.
-/
namespace Sys2Proof.Machine

open Sys2Proof.Safety

theorem stepWith_go (c : Params) {s : State} (h : nextTurn s = .go) : stepWith c s = agentMove c (dropTurn s) := by
  simp [stepWith, h, takeTurn]

theorem step_go {s : State} (h : nextTurn s = .go) : step s = agentMove hardwired (dropTurn s) :=
  stepWith_go hardwired h

/-- In the two phases a command can begin with, the host moves while an Accept waits and no request is out. -/
theorem firstPhaseMove_host (c : Params) {s : State} (hw : s.waitRsp = false) (hk : s.taking ≠ none) :
    firstPhaseMove c s = hostMove s := by
  obtain ⟨x, hx⟩ := Option.ne_none_iff_exists'.mp hk
  simp [firstPhaseMove, hw, hx]

theorem firstPhaseMove_answer (c : Params) {s : State} (hw : s.waitRsp = true) : firstPhaseMove c s = answer c s := by
  simp [firstPhaseMove, hw]

theorem firstPhaseMove_issue (c : Params) {s : State} (hw : s.waitRsp = false) (hk : s.taking = none) :
    firstPhaseMove c s = issue c s := by
  simp [firstPhaseMove, hw, hk]

theorem agentMove_host (c : Params) {s : State} (h : hostTurn s) : agentMove c s = hostMove s := by
  rcases h with hp | ⟨hp | hp, hw, hk⟩
  · simp [agentMove, hp]
  · simp [agentMove, hp, firstPhaseMove_host c hw hk]
  · simp [agentMove, hp, firstPhaseMove_host c hw hk]

theorem agentMove_settle (c : Params) {s : State} (h : s.phase = .settle) :
    agentMove c s = .next (settleStep c s) := by
  simp [agentMove, h]

theorem agentMove_answer (c : Params) {s : State} (hp : isTransportPhase s.phase = true) (hw : s.waitRsp = true) :
    agentMove c s = answer c s := by
  cases h : s.phase <;> simp [h, isTransportPhase] at hp <;> simp [agentMove, h, hw, firstPhaseMove_answer]

theorem agentMove_issue (c : Params) {s : State} (hp : isTransportPhase s.phase = true) (hw : s.waitRsp = false)
    (hk : (s.phase = .brkCfg ∨ s.phase = .dataCfg) → s.taking = none) : agentMove c s = issue c s := by
  cases h : s.phase <;> simp [h, isTransportPhase] at hp hk <;> simp [agentMove, h, hw]
  · exact firstPhaseMove_issue c hw hk
  · exact firstPhaseMove_issue c hw hk

/-- The four cases: the host moves, time passes in SETTLE, the transport answers, or the sequencer issues its request. -/
theorem agent_cases (s : State) :
    hostTurn s ∨ s.phase = .settle ∨ (isTransportPhase s.phase = true ∧ s.waitRsp = true) ∨
      (isTransportPhase s.phase = true ∧ s.waitRsp = false ∧
        ((s.phase = .brkCfg ∨ s.phase = .dataCfg) → s.taking = none)) := by
  cases hw : s.waitRsp <;> cases hk : s.taking <;> cases hp : s.phase <;> simp [hostTurn, hw, hk, hp, isTransportPhase]

/-- A phase that has a request is a transport phase. -/
theorem isTransportPhase_of_requestOf {s : State} {r : Request} (h : requestOf s = .ok r) :
    isTransportPhase s.phase = true := by
  cases hp : s.phase <;> simp [requestOf, hp, isTransportPhase] at h ⊢

/-- Where the host moves PHASE is IDLE, or an Accept waits. -/
theorem taking_ne_none_of_hostTurn {s : State} (h : hostTurn s) (hp : s.phase ≠ .idle) : s.taking ≠ none := by
  rcases h with h | ⟨-, -, hk⟩
  · exact absurd h hp
  · exact hk

theorem offered_phase {s : State} (h : hostTurn s) : s.offered.phase = .idle :=
  ((acceptReady_iff _).mp (offered_ready h)).1

end Sys2Proof.Machine
end

section
/-!
What the registers hold once a command is loaded (R26, R23, R162), whichever command it is.
-/
namespace Sys2Proof.Machine

open Sys2Proof.Safety

@[simp] theorem loadOf_waitRsp (i : Instr) (s : State) : (loadOf i s).waitRsp = false := by cases i <;> rfl
@[simp] theorem loadOf_op (i : Instr) (s : State) : (loadOf i s).op = i.opcode := by cases i <;> rfl
@[simp] theorem loadOf_sc (i : Instr) (s : State) : (loadOf i s).sc = i.startCode := by cases i <;> rfl
@[simp] theorem loadOf_len (i : Instr) (s : State) : (loadOf i s).len = BitVec.ofNat 16 i.payloadLen := by cases i <;> rfl
@[simp] theorem loadOf_pb (i : Instr) (s : State) : (loadOf i s).pb = s.pay.take i.payloadLen := by cases i <;> rfl
@[simp] theorem loadOf_cmd (i : Instr) (s : State) : (loadOf i s).cmd = s.cmd.tail := by cases i <;> rfl
@[simp] theorem loadOf_pay (i : Instr) (s : State) : (loadOf i s).pay = s.pay.drop i.payloadLen := by cases i <;> rfl
@[simp] theorem loadOf_taking (i : Instr) (s : State) : (loadOf i s).taking = s.taking := by cases i <;> rfl
@[simp] theorem loadOf_sched (i : Instr) (s : State) : (loadOf i s).sched = s.sched := by cases i <;> rfl

@[simp] theorem loadOf_trace (i : Instr) (s : State) :
    (loadOf i s).trace = s.trace ++ [(s.now, .accept (encode i) (s.pay.take i.payloadLen))] := by cases i <;> rfl

/-- The commands that send a frame build it. -/
theorem loadOf_of_sendsFrame {i : Instr} (h : sendsFrame i.opcode = true) (s : State) :
    loadOf i s = buildFrame (loadCommand i s) := by
  cases i with
  | sendBreak | sendRawData _ | sendRawPacket _ => cases h
  | sendPacket _ | sendAltPacket _ _ => rfl

/-- The other commands load their payload only. -/
theorem loadOf_of_not_sendsFrame {i : Instr} (h : sendsFrame i.opcode = false) (s : State) :
    loadOf i s = loadCommand i s := by
  cases i with
  | sendBreak | sendRawData _ | sendRawPacket _ => rfl
  | sendPacket _ | sendAltPacket _ _ => cases h

theorem loadOf_fb_wf (i : Instr) {s : State} (h : Memory.wf s.fb = true) : Memory.wf (loadOf i s).fb = true := by
  cases hf : sendsFrame i.opcode with
  | true => rw [loadOf_of_sendsFrame hf]; exact buildFrame_wf _ h
  | false => rw [loadOf_of_not_sendsFrame hf]; exact h

/-- LEN holds the length of a well-formed command. -/
theorem loadOf_len_toNat {i : Instr} (hi : i.wellFormed = true) (s : State) :
    (loadOf i s).len.toNat = i.payloadLen := by
  have := Instr.payloadLen_lt hi
  rw [loadOf_len, BitVec.toNat_ofNat]
  omega

/-- PB has LEN bytes (R45). -/
theorem loadOf_pb_length {i : Instr} (hi : i.wellFormed = true) {s : State} (hn : i.payloadLen ≤ s.pay.length) :
    (loadOf i s).pb.length = (loadOf i s).len.toNat := by
  rw [loadOf_len_toNat hi, loadOf_pb, List.length_take, Nat.min_eq_left hn]

/-- FLEN of a loaded frame command (R23). -/
theorem loadOf_flen_toNat {i : Instr} (hf : sendsFrame i.opcode = true) (s : State) :
    (loadOf i s).flen.toNat = min (loadOf i s).len.toNat 512 + 1 := by
  rw [loadOf_of_sendsFrame hf]; exact buildFrame_flen_toNat _

/-- FB holds the frame of a loaded frame command (R162). -/
theorem loadOf_readRun {i : Instr} (hi : i.wellFormed = true) (hf : sendsFrame i.opcode = true) {s : State}
    (hn : i.payloadLen ≤ s.pay.length) :
    Memory.readRun (loadOf i s).fb 0 (loadOf i s).flen.toNat = .ok (frameOf (loadOf i s).sc (loadOf i s).pb) := by
  have h := loadOf_pb_length hi hn
  rw [loadOf_of_sendsFrame hf] at h ⊢
  exact buildFrame_readRun _ h

end Sys2Proof.Machine
end

section
/-!
The registers' invariant is kept by every step (R20, R23, R25, R45, R50). The states a step can lead to are of four kinds:
the registers as they were, DMXTX in IDLE, an Accept that waits, and a command in progress; one rule for each.
-/
namespace Sys2Proof.Safety

open Sys2Proof.Machine

/-- The invariant reads the registers and the waiting Accept only. -/
theorem RegistersInv.of_same {s t : State} (h : RegistersInv s)
    (ht : t = { s with tmr := t.tmr, cmd := t.cmd, pay := t.pay, trsp := t.trsp, sched := t.sched, now := t.now,
                       trace := t.trace, line := t.line }) : RegistersInv t := by
  rw [ht]
  exact ⟨h.frame_wf, h.wait_only_in_transport_phase, h.accepting, h.command_visits_phase, h.payload_has_len_bytes,
    h.start_code_zero, h.frame_length, h.frame_bytes⟩

theorem registersInv_of_idle {t : State} (hf : Memory.wf t.fb = true) (hp : t.phase = .idle) (hw : t.waitRsp = false)
    (hk : t.taking = none) : RegistersInv t where
  frame_wf := hf
  wait_only_in_transport_phase h := by rw [hw] at h; cases h
  accepting x h := by rw [hk] at h; cases h
  command_visits_phase _ := by rw [hp]; rfl
  payload_has_len_bytes h := absurd hp h.1
  start_code_zero h := absurd hp h.1
  frame_length h := absurd hp h.1
  frame_bytes h := absurd hp h.1

theorem registersInv_of_awaiting {t : State} {x : Accepting} (hf : Memory.wf t.fb = true) (hk : t.taking = some x)
    (hn : x.got.length < x.desc.len.toNat) (hw : t.waitRsp = false) (hp : t.phase = (phaseOf x.desc).getD .idle) :
    RegistersInv t :=
  have waits : t.taking ≠ none := by simp [hk]
  { frame_wf := hf
    wait_only_in_transport_phase := fun h => by rw [hw] at h; cases h
    accepting := fun y h => by rw [hk] at h; cases h; exact ⟨hn, hw, hp⟩
    command_visits_phase := fun h => absurd h waits
    payload_has_len_bytes := fun h => absurd h.2 waits
    start_code_zero := fun h => absurd h.2 waits
    frame_length := fun h => absurd h.2 waits
    frame_bytes := fun h => absurd h.2 waits }

/-- A command that goes on to another phase of its walk keeps its registers. -/
theorem RegistersInv.of_inProgress {s t : State} (h : RegistersInv s) (hs : inProgress s)
    (ht : t = { s with phase := t.phase, waitRsp := t.waitRsp, tmr := t.tmr, cmd := t.cmd, pay := t.pay,
                       trsp := t.trsp, sched := t.sched, now := t.now, trace := t.trace, line := t.line })
    (hw : t.waitRsp = true → isTransportPhase t.phase = true) (hv : visits s.op t.phase = true) : RegistersInv t := by
  rw [ht]
  exact {
    frame_wf := h.frame_wf
    wait_only_in_transport_phase := hw
    accepting := fun x hx => by rw [hs.2] at hx; cases hx
    command_visits_phase := fun _ => hv
    payload_has_len_bytes := fun _ => h.payload_has_len_bytes hs
    start_code_zero := fun _ => h.start_code_zero hs
    frame_length := fun _ => h.frame_length hs
    frame_bytes := fun _ => h.frame_bytes hs }

/-- A command whose Accept is complete. -/
theorem registersInv_of_accepted {i : Instr} {s : State} (hf : Memory.wf s.fb = true) (hi : i.wellFormed = true)
    (hn : i.payloadLen ≤ s.pay.length) (hk : s.taking = none) :
    RegistersInv (gotoPhase (firstPhase i) (loadOf i s)) where
  frame_wf := loadOf_fb_wf i hf
  wait_only_in_transport_phase h := by simp at h
  accepting x h := by simp [hk] at h
  command_visits_phase _ := by simp only [gotoPhase_op, loadOf_op, gotoPhase_phase]; cases i <;> rfl
  payload_has_len_bytes _ := loadOf_pb_length hi hn
  start_code_zero _ h := by
    simp only [gotoPhase_op, loadOf_op, gotoPhase_sc, loadOf_sc] at h ⊢
    cases i with
    | sendAltPacket _ _ => exact absurd rfl h
    | sendBreak | sendRawData _ | sendRawPacket _ | sendPacket _ => rfl
  frame_length _ h := loadOf_flen_toNat (by simpa using h) s
  frame_bytes _ h := loadOf_readRun hi (by simpa using h) hn

/-! ### What the invariant says of the agents -/

/-- An Accept waits only where the host moves. -/
theorem RegistersInv.hostTurn_of_taking {s : State} (h : RegistersInv s) {x : Accepting} (hx : s.taking = some x) :
    hostTurn s := by
  obtain ⟨-, hw, hp⟩ := h.accepting x hx
  cases hd : decode x.desc with
  | error e => exact .inl (by rw [hp, phaseOf_error hd]; rfl)
  | ok i => exact .inr ⟨by rw [hp, phaseOf_ok hd]; exact firstPhase_cases i, hw, by simp [hx]⟩

/-- Where the host does not move, a command is in progress. -/
theorem RegistersInv.inProgress_of_not_hostTurn {s : State} (h : RegistersInv s) (hs : ¬ hostTurn s) : inProgress s := by
  refine ⟨fun hp => hs (.inl hp), ?_⟩
  by_contra hk
  obtain ⟨x, hx⟩ := Option.ne_none_iff_exists'.mp hk
  exact hs (h.hostTurn_of_taking hx)

theorem not_hostTurn_of_waitRsp {s : State} (hp : isTransportPhase s.phase = true) (hw : s.waitRsp = true) :
    ¬ hostTurn s := by
  rintro (h | ⟨-, h, -⟩)
  · rw [h] at hp; cases hp
  · rw [hw] at h; cases h

theorem not_hostTurn_of_issue {s : State} (hp : isTransportPhase s.phase = true)
    (hk : (s.phase = .brkCfg ∨ s.phase = .dataCfg) → s.taking = none) : ¬ hostTurn s := by
  rintro (h | ⟨h, -, hn⟩)
  · rw [h] at hp; cases hp
  · exact hn (hk h)

theorem not_hostTurn_of_settle {s : State} (hp : s.phase = .settle) : ¬ hostTurn s := by
  rintro (h | ⟨h | h, -, -⟩) <;> rw [hp] at h <;> cases h

/-- No request is outstanding where the host moves. -/
theorem RegistersInv.waitRsp_of_hostTurn {s : State} (h : RegistersInv s) (hs : hostTurn s) : s.waitRsp = false := by
  rcases hs with hp | ⟨-, hw, -⟩
  · have := h.wait_only_in_transport_phase
    rw [hp] at this
    simpa [isTransportPhase] using this
  · exact hw

/-! ### The step -/

/-- advance() goes on with a command in progress, or ends it. -/
theorem RegistersInv.of_advance {s t : State} (h : RegistersInv s) (hs : inProgress s) (hw : s.waitRsp = false)
    (ha : advance s = .next t) : RegistersInv t := by
  have hv := h.command_visits_phase hs.2
  rcases advance_cases ha with ⟨hp, rfl⟩ | ⟨-, -, rfl⟩ | ⟨-, -, hop, rfl⟩ | ⟨hp, rfl⟩ | ⟨-, rfl⟩
  · exact h.of_inProgress hs rfl (by simp [hw]) (by rw [hp] at hv; exact hv)
  · exact registersInv_of_idle h.frame_wf rfl hw hs.2
  · exact h.of_inProgress hs rfl (by simp [hw]) hop
  · exact h.of_inProgress hs rfl (by simp [hw]) (by rw [hp] at hv; exact hv)
  · exact registersInv_of_idle h.frame_wf rfl hw hs.2

theorem RegistersInv.of_takeAnswer (c : Params) (a : Answer) {s : State} (h : RegistersInv s)
    (hs : inProgress s) : RegistersInv (takeAnswer c a s) :=
  h.of_inProgress hs rfl (by simp) (h.command_visits_phase hs.2)

theorem RegistersInv.of_offer {s : State} (h : RegistersInv s) : RegistersInv (offerDescriptor s) := by
  rcases offerDescriptor_cases s with ho | ⟨d, ds, hr, -, hl, ho⟩ <;> rw [ho]
  · exact h
  · obtain ⟨hp, -⟩ := (acceptReady_iff s).mp hr
    have hw := h.waitRsp_of_hostTurn (.inl hp)
    refine registersInv_of_awaiting (by simpa using h.frame_wf) (beginAccept_taking ..) ?_ ?_ ?_
    · exact Nat.pos_of_ne_zero fun h0 => hl (BitVec.eq_of_toNat_eq h0)
    · cases phaseOf d <;> simp [hw]
    · simp [hp]

/-- Everything a step can do keeps the registers' invariant. -/
theorem RegistersInv.of_stepTo {c : Params} {s t : State} (h : RegistersInv s) (ht : StepTo c s t) : RegistersInv t := by
  have hf : Memory.wf s.offered.fb = true := by simpa using h.frame_wf
  cases ht with
  | passes | takes | starts | finishes => exact h.of_same rfl
  | accepts i hi _ hn => exact registersInv_of_accepted hf hi hn (offered_taking s)
  | refuses d _ hp =>
    exact registersInv_of_idle hf (by simp [offered_phase hp]) (by simp [h.waitRsp_of_hostTurn hp]) (by simp)
  | awaits d _ _ _ i hd hn =>
    rw [encode_of_decode hd]
    exact registersInv_of_awaiting (by simpa using hf) (awaitPayload_taking ..) hn rfl (by simp [phaseOf_ok hd])
  | awaitsIllegal d _ hp _ e hd hn =>
    exact registersInv_of_awaiting (by simpa using hf) (awaitPayload_taking ..) hn (by simp [h.waitRsp_of_hostTurn hp])
      (by simp [phaseOf_error hd, offered_phase hp])
  | issues r hr _ hk =>
    have hp := isTransportPhase_of_requestOf hr
    have hs := h.inProgress_of_not_hostTurn (not_hostTurn_of_issue hp hk)
    exact h.of_inProgress hs rfl (fun _ => hp) (h.command_visits_phase hs.2)
  | advances _ _ hp hw _ ha =>
    have hs := h.inProgress_of_not_hostTurn (not_hostTurn_of_waitRsp hp hw)
    exact (h.of_takeAnswer c .ok hs).of_advance hs rfl ha
  | aborts e _ hp hw =>
    exact registersInv_of_idle h.frame_wf rfl rfl (h.inProgress_of_not_hostTurn (not_hostTurn_of_waitRsp hp hw)).2
  | settles hp =>
    have hs := h.inProgress_of_not_hostTurn (not_hostTurn_of_settle hp)
    have hv := h.command_visits_phase hs.2
    rw [hp] at hv
    exact h.of_inProgress hs rfl (by simp) (Bool.or_eq_true_iff.mpr (.inr hv))
  | resets => exact registersInv_of_idle h.frame_wf rfl rfl rfl
  | offers => exact h.of_offer

/-- Settles O30, by the cases of one step. -/
theorem stepKeepsRegistersInv : Obligations.StepKeepsRegistersInv := by
  intro s t h ht
  have hd : RegistersInv (dropTurn s) := h.of_same rfl
  exact hd.of_stepTo (step_cases ht)

end Sys2Proof.Safety
end

section
/-!
The rows of advance() (R29), one equation each.
-/
namespace Sys2Proof.Machine

theorem advance_brkCfg {s : State} (hp : s.phase = .brkCfg) : advance s = .next (gotoPhase .brkWr s) := by
  simp [advance, hp]

theorem advance_brkWr_break {s : State} (hp : s.phase = .brkWr) (hop : isBreakOp s.op = true) :
    advance s = .next (respond .ok s) := by
  simp [advance, hp, hop]

theorem advance_brkWr_packet {s : State} (hp : s.phase = .brkWr) (hb : isBreakOp s.op = false)
    (hop : isPacketOp s.op = true) : advance s = .next (startSettle s) := by
  simp [advance, hp, hb, hop]

theorem advance_dataCfg {s : State} (hp : s.phase = .dataCfg) : advance s = .next (gotoPhase .dataWr s) := by
  simp [advance, hp]

theorem advance_dataWr {s : State} (hp : s.phase = .dataWr) : advance s = .next (respond .ok s) := by
  simp [advance, hp]

theorem answer_ok (c : Params) {s : State} {rest : List Answer} (ht : s.trsp = .ok :: rest) :
    answer c s = advance (takeAnswer c .ok s) := by
  simp [answer, ht]

theorem answer_err (c : Params) {s : State} {e : TransportError} {rest : List Answer} (ht : s.trsp = .err e :: rest) :
    answer c s = .next (raiseTransportError e (takeAnswer c (.err e) s)) := by
  simp [answer, ht]

theorem issue_of_requestOf (c : Params) {s : State} {r : Request} (h : requestOf s = .ok r) :
    issue c s = .next (sendRequest c r s) := by
  simp [issue, h]

theorem hostMove_nothing {s : State} (hc : s.offered.cmd = []) : hostMove s = .next (passCycle s) := by
  simp [hostMove, hc]

/-- The host's move with a command presented. -/
theorem hostMove_command {s : State} {d : Descriptor} {rest : List Descriptor} {i : Instr}
    (hc : s.offered.cmd = d :: rest) (hd : decode d = .ok i) : hostMove s = exec i s.offered := by
  simp [hostMove, hc, hd]

/-- The host's move with an illegal descriptor presented. -/
theorem hostMove_illegal {s : State} {d : Descriptor} {rest : List Descriptor} {e : DecodeError}
    (hc : s.offered.cmd = d :: rest) (hd : decode d = .error e) : hostMove s = refuseIllegal d s.offered := by
  simp [hostMove, hc, hd]

end Sys2Proof.Machine
end

section
/-!
A state with all delays taken out of it (R32): time, the schedule, the line and the timer are set aside (`timeless`), and an
Accept that the host is still to complete counts as not yet begun (`asPresented`). A turn other than a reset either leaves the
undelayed state as it is, or it is the one move the undelayed state has. So a run follows the undelayed machine's only
sequence of moves, and of two runs from one state one has gone further along it.
-/
namespace Sys2Proof.Machine

open Sys2Proof.Safety

/-- A state without its time: the schedule, the line and the times of events dropped, the settle wait at its end. -/
def timeless (n : Nat) (s : State) : State :=
  { s with sched := [], now := 0, tmr := n, line := Transport.atReset,
           trace := s.trace.map (fun x => (0, x.2)) }

/-- WAITRSP cleared, which says nothing where the host moves. -/
def clearWait (s : State) : State := { s with waitRsp := false }

theorem offered_clearWait (s : State) : (clearWait s).offered = clearWait s.offered := by
  cases h : s.taking with
  | none => rw [offered_of_none h, offered_of_none (s := clearWait s) h]
  | some x => rw [offered_of_some h, offered_of_some (s := clearWait s) h]; rfl

/-- Where the host moves (`hostTurn`, written out so that it can be evaluated), the Accept it is in counted as not yet
begun. -/
def asPresented (s : State) : State :=
  if s.phase = .idle ∨ ((s.phase = .brkCfg ∨ s.phase = .dataCfg) ∧ s.waitRsp = false ∧ s.taking ≠ none) then
    clearWait s.offered
  else s

/-- A state with all delays taken out of it. -/
def undelayed (n : Nat) (s : State) : State := asPresented (timeless n s)

theorem asPresented_of_hostTurn {s : State} (h : hostTurn s) : asPresented s = clearWait s.offered := if_pos h

theorem asPresented_of_not_hostTurn {s : State} (h : ¬ hostTurn s) : asPresented s = s := if_neg h

/-! ### Taking the time out commutes with the updates -/

theorem timeless_timeless (n : Nat) (s : State) : timeless n (timeless n s) = timeless n s := by
  simp [timeless, Function.comp_def]

@[simp] theorem timeless_emit (n : Nat) (e : Event) (s : State) :
    timeless n (emit e s) = emit e (timeless n s) := by
  simp [timeless, emit]

theorem timeless_offered (n : Nat) (s : State) : timeless n s.offered = (timeless n s).offered := by
  cases h : s.taking with
  | none => rw [offered_of_none h, offered_of_none (s := timeless n s) h]
  | some x => rw [offered_of_some h, offered_of_some (s := timeless n s) h]; rfl

theorem timeless_loadCommand (n : Nat) (i : Instr) (s : State) :
    timeless n (loadCommand i s) = loadCommand i (timeless n s) := by
  rw [loadCommand, timeless_emit]; rfl

theorem timeless_loadOf (n : Nat) (i : Instr) (s : State) : timeless n (loadOf i s) = loadOf i (timeless n s) := by
  cases hf : sendsFrame i.opcode with
  | true =>
    rw [loadOf_of_sendsFrame hf, loadOf_of_sendsFrame hf, ← timeless_loadCommand]; rfl
  | false =>
    rw [loadOf_of_not_sendsFrame hf, loadOf_of_not_sendsFrame hf, timeless_loadCommand]

theorem timeless_raiseIllegalCommand (n : Nat) (d : Descriptor) (s : State) :
    timeless n (raiseIllegalCommand d s) = raiseIllegalCommand d (timeless n s) := by
  rw [raiseIllegalCommand, timeless_emit, timeless_emit]; rfl

theorem timeless_sendRequest (n : Nat) (c : Params) (r : Request) (s : State) :
    timeless n (sendRequest c r s) = emit r.event { timeless n s with waitRsp := true } := by
  rw [sendRequest, timeless_emit]; rfl

theorem timeless_takeAnswer (n : Nat) (c : Params) (a : Answer) (s : State) :
    timeless n (takeAnswer c a s) =
      emit (answerEvent s.phase a) { timeless n s with waitRsp := false, trsp := s.trsp.tail } := by
  rw [takeAnswer, timeless_emit]; rfl

theorem timeless_respond (n : Nat) (r : Response) (s : State) :
    timeless n (respond r s) = respond r (timeless n s) := by
  rw [respond, respond, ← timeless_emit]; rfl

theorem timeless_raiseTransportError (n : Nat) (e : TransportError) (s : State) :
    timeless n (raiseTransportError e s) = raiseTransportError e (timeless n s) := by
  rw [raiseTransportError, timeless_respond]; rfl

theorem timeless_startSettle (n : Nat) (s : State) :
    timeless n (startSettle s) = { emit .settleStart (timeless n s) with phase := .settle } := by
  rw [← timeless_emit]; rfl

theorem timeless_endSettle (n : Nat) (s : State) : timeless n (endSettle s) = endSettle (timeless n s) := by
  rw [endSettle, endSettle, ← timeless_emit]; rfl

/-! ### What leaves the undelayed state as it is -/

/-- What DMXTX holds and the events so far, without their times, fix the undelayed state. -/
theorem undelayed_congr {n : Nat} {s t : State} (h : timeless n s = timeless n t) :
    undelayed n s = undelayed n t := congrArg asPresented h

theorem undelayed_of_not_hostTurn {n : Nat} {s : State} (h : ¬ hostTurn s) : undelayed n s = timeless n s :=
  asPresented_of_not_hostTurn (s := timeless n s) h

theorem undelayed_of_hostTurn {n : Nat} {s : State} (h : hostTurn s) :
    undelayed n s = clearWait (timeless n s.offered) := by
  rw [timeless_offered]
  exact asPresented_of_hostTurn (s := timeless n s) h

/-- Counting an Accept as not yet begun is no move. -/
theorem undelayed_offered (n : Nat) {s : State} (h : hostTurn s) : undelayed n s.offered = undelayed n s := by
  rw [undelayed_of_hostTurn h, undelayed_of_hostTurn (.inl (offered_phase h)), offered_of_none (offered_taking s)]

theorem undelayed_clearWait (n : Nat) {s : State} (h : s.phase = .idle) :
    undelayed n (clearWait s) = undelayed n s := by
  rw [undelayed_of_hostTurn (s := s) (.inl h), undelayed_of_hostTurn (s := clearWait s) (.inl h), offered_clearWait]
  rfl

/-- An Accept that waits is the host's to complete. -/
theorem hostTurn_beginAccept {s : State} (hp : s.phase = .idle) (d : Descriptor) (got : List Byte) :
    hostTurn (beginAccept (phaseOf d) d got s) := by
  cases hd : decode d with
  | error e => exact .inl (by simp [phaseOf_error hd, hp])
  | ok i =>
    rw [phaseOf_ok hd]
    exact .inr ⟨by simpa using firstPhase_cases i, rfl, by simp⟩

/-- Beginning the Accept of the descriptor presented, with bytes that stand at the head of PAY, is no move. -/
theorem undelayed_beginAccept (n : Nat) {s : State} {d : Descriptor} {rest : List Descriptor} {got : List Byte}
    (hr : s.acceptReady = true) (hc : s.cmd = d :: rest) (hg : got <+: s.pay) :
    undelayed n (beginAccept (phaseOf d) d got s) = undelayed n s := by
  obtain ⟨hp, hk⟩ := (acceptReady_iff s).mp hr
  obtain ⟨more, hm⟩ := hg
  rw [undelayed_of_hostTurn (hostTurn_beginAccept hp d got), undelayed_of_hostTurn (.inl hp), offered_of_none hk,
    offered_of_some (beginAccept_taking ..)]
  cases phaseOf d <;> simp [beginAccept, enterPhase, timeless, clearWait, hp, hk, hc, ← hm]

/-! ### The host's move -/

/-- What a turn does to the undelayed state: nothing, or the one move it has. -/
def Follows (n : Nat) (c : Params) (s t : State) : Prop :=
  undelayed n t = undelayed n s ∨ ∃ t', agentMove c (undelayed n s) = .next t' ∧ undelayed n t' = undelayed n t

section
variable {n : Nat} {c : Params} {s : State} {d : Descriptor} {rest : List Descriptor} (hp : hostTurn s)
include hp

theorem hostTurn_undelayed : hostTurn (undelayed n s) :=
  .inl (by rw [undelayed_of_hostTurn hp]; exact offered_phase hp)

theorem undelayed_taking : (undelayed n s).taking = none := by
  rw [undelayed_of_hostTurn hp]; exact offered_taking s

theorem undelayed_acceptReady : (undelayed n s).acceptReady = true := by
  rw [← offered_of_none (undelayed_taking (n := n) hp)]
  exact offered_ready (hostTurn_undelayed hp)

theorem undelayed_offered_cmd : (undelayed n s).offered.cmd = s.offered.cmd := by
  rw [offered_of_none (undelayed_taking hp), undelayed_of_hostTurn hp]; rfl

theorem undelayed_pay : (undelayed n s).pay = s.offered.pay := by
  rw [undelayed_of_hostTurn hp]; rfl

theorem follows_of_accepts {i : Instr} (hc : s.offered.cmd = d :: rest) (hd : decode d = .ok i)
    (hn : i.payloadLen ≤ s.offered.pay.length) :
    Follows n c s (gotoPhase (firstPhase i) (loadOf i s.offered)) := by
  have load : loadOf i (undelayed n s) = timeless n (loadOf i s.offered) := by
    rw [undelayed_of_hostTurn hp, timeless_loadOf]; cases i <;> rfl
  refine .inr ⟨gotoPhase (firstPhase i) (loadOf i (undelayed n s)), ?_, undelayed_congr ?_⟩
  · rw [agentMove_host c (hostTurn_undelayed hp), hostMove_command ((undelayed_offered_cmd hp).trans hc) hd,
      offered_of_none (undelayed_taking hp)]
    exact exec_accepted i _ (undelayed_acceptReady hp) (by rwa [undelayed_pay hp])
  · rw [load]
    exact congrArg (gotoPhase (firstPhase i)) (timeless_timeless n _)

theorem follows_of_refuses {e : DecodeError} (hc : s.offered.cmd = d :: rest) (hd : decode d = .error e)
    (hn : d.len.toNat ≤ s.offered.pay.length) : Follows n c s (raiseIllegalCommand d s.offered) := by
  have refusal : raiseIllegalCommand d (undelayed n s) =
      clearWait (timeless n (raiseIllegalCommand d s.offered)) := by
    rw [undelayed_of_hostTurn hp, timeless_raiseIllegalCommand]; rfl
  refine .inr ⟨raiseIllegalCommand d (undelayed n s), ?_, ?_⟩
  · rw [agentMove_host c (hostTurn_undelayed hp), hostMove_illegal ((undelayed_offered_cmd hp).trans hc) hd,
      offered_of_none (undelayed_taking hp)]
    exact takeDescriptor_taken _ _ _ _ _ (undelayed_acceptReady hp) (by rwa [undelayed_pay hp])
  · rw [refusal, undelayed_clearWait n (s := timeless n (raiseIllegalCommand d s.offered)) (offered_phase hp)]
    exact undelayed_congr (timeless_timeless n _)

theorem undelayed_awaitPayload (hc : s.offered.cmd = d :: rest) :
    undelayed n (awaitPayload (phaseOf d) d s.offered) = undelayed n s :=
  (undelayed_beginAccept n (s := passCycle s.offered) (offered_ready hp) hc (List.prefix_refl _)).trans
    (undelayed_offered n hp)

theorem hostMove_follows {t : State} (h : hostMove s = .next t) : Follows n c s t := by
  cases hc : s.offered.cmd with
  | nil =>
    rw [hostMove_nothing hc] at h
    cases h
    exact .inl rfl
  | cons d rest =>
    cases hd : decode d with
    | ok i =>
      rw [hostMove_command hc hd] at h
      rcases exec_cases h with ⟨-, hn, rfl⟩ | ⟨-, -, rfl⟩ | ⟨hf, -⟩
      · exact follows_of_accepts hp hc hd hn
      · rw [encode_of_decode hd, ← phaseOf_ok hd]
        exact .inl (undelayed_awaitPayload hp hc)
      · rw [offered_ready hp] at hf; cases hf
    | error e =>
      rw [hostMove_illegal hc hd] at h
      rcases refuseIllegal_cases h with ⟨-, hn, rfl⟩ | ⟨-, -, rfl⟩ | ⟨hf, -⟩
      · exact follows_of_refuses hp hc hd hn
      · rw [← phaseOf_error hd]
        exact .inl (undelayed_awaitPayload hp hc)
      · rw [offered_ready hp] at hf; cases hf

end

/-! ### The other agents' moves -/

/-- advance() does not look at the time. -/
theorem advance_timeless {n : Nat} {s s' t : State} (hs : timeless n s' = timeless n s) (h : advance s = .next t) :
    ∃ t', advance s' = .next t' ∧ timeless n t' = timeless n t := by
  have hp : s'.phase = s.phase := (congrArg State.phase hs : (timeless n s').phase = (timeless n s).phase)
  have hop : s'.op = s.op := (congrArg State.op hs : (timeless n s').op = (timeless n s).op)
  rcases advance_cases h with ⟨p, rfl⟩ | ⟨p, hb, rfl⟩ | ⟨p, hb, hk, rfl⟩ | ⟨p, rfl⟩ | ⟨p, rfl⟩
  · exact ⟨_, advance_brkCfg (hp.trans p), congrArg (gotoPhase .brkWr) hs⟩
  · exact ⟨_, advance_brkWr_break (hp.trans p) (hop ▸ hb), by rw [timeless_respond, timeless_respond, hs]⟩
  · exact ⟨_, advance_brkWr_packet (hp.trans p) (hop ▸ hb) (hop ▸ hk),
      by rw [timeless_startSettle, timeless_startSettle, hs]⟩
  · exact ⟨_, advance_dataCfg (hp.trans p), congrArg (gotoPhase .dataWr) hs⟩
  · exact ⟨_, advance_dataWr (hp.trans p), by rw [timeless_respond, timeless_respond, hs]⟩

theorem timeless_takeAnswer_timeless (n : Nat) (c : Params) (a : Answer) (s : State) :
    timeless n (takeAnswer c a (timeless n s)) = timeless n (takeAnswer c a s) := by
  rw [timeless_takeAnswer, timeless_takeAnswer, timeless_timeless]; rfl

theorem answer_follows {n : Nat} {c : Params} {s t : State} (hp : isTransportPhase s.phase = true)
    (hw : s.waitRsp = true) (h : answer c s = .next t) : Follows n c s t := by
  have move : agentMove c (undelayed n s) = answer c (timeless n s) := by
    rw [undelayed_of_not_hostTurn (not_hostTurn_of_waitRsp hp hw)]
    exact agentMove_answer c hp hw
  rcases answer_cases h with ⟨-, rfl⟩ | ⟨rest, ht, ha⟩ | ⟨e, rest, ht, rfl⟩
  · exact .inl rfl
  · obtain ⟨t', ha', heq⟩ := advance_timeless (timeless_takeAnswer_timeless n c .ok s) ha
    exact .inr ⟨t', by rw [move, answer_ok c (s := timeless n s) ht, ha'], undelayed_congr heq⟩
  · refine .inr ⟨_, by rw [move, answer_err c (s := timeless n s) ht], undelayed_congr ?_⟩
    rw [timeless_raiseTransportError, timeless_raiseTransportError, timeless_takeAnswer_timeless]

theorem issue_follows {n : Nat} {c : Params} {s t : State} (hp : isTransportPhase s.phase = true)
    (hw : s.waitRsp = false) (hk : (s.phase = .brkCfg ∨ s.phase = .dataCfg) → s.taking = none)
    (h : issue c s = .next t) : Follows n c s t := by
  obtain ⟨r, hr, rfl⟩ := issue_cases h
  refine .inr ⟨sendRequest c r (timeless n s), ?_, undelayed_congr ?_⟩
  · rw [undelayed_of_not_hostTurn (not_hostTurn_of_issue hp hk), agentMove_issue c (s := timeless n s) hp hw hk]
    exact issue_of_requestOf c hr
  · rw [timeless_sendRequest, timeless_sendRequest, timeless_timeless]

/-- In SETTLE only the end of the wait is a move; the undelayed timer has reached it. -/
theorem settleStep_follows {n : Nat} {c : Params} (hn : settleCycles c ≤ n) {s : State} (hp : s.phase = .settle) :
    Follows n c s (settleStep c s) := by
  unfold settleStep
  split
  · refine .inr ⟨endSettle (timeless n s), ?_, undelayed_congr ?_⟩
    · rw [undelayed_of_not_hostTurn (not_hostTurn_of_settle hp), agentMove_settle c (s := timeless n s) hp]
      exact congrArg _ (if_pos hn)
    · rw [timeless_endSettle, timeless_endSettle, timeless_timeless]
  · exact .inl rfl

theorem agentMove_follows {n : Nat} {c : Params} (hn : settleCycles c ≤ n) {s t : State}
    (h : agentMove c s = .next t) : Follows n c s t := by
  rcases agent_cases s with hp | hp | ⟨hp, hw⟩ | ⟨hp, hw, hk⟩
  · exact hostMove_follows hp (agentMove_host c hp ▸ h)
  · rw [agentMove_settle c hp] at h
    cases h
    exact settleStep_follows hn hp
  · exact answer_follows hp hw (agentMove_answer c hp hw ▸ h)
  · exact issue_follows hp hw hk (agentMove_issue c hp hw hk ▸ h)

theorem undelayed_offerDescriptor (n : Nat) (s : State) : undelayed n (offerDescriptor s) = undelayed n s := by
  rcases offerDescriptor_cases s with h | ⟨d, ds, hr, hc, -, h⟩ <;> rw [h]
  exact undelayed_beginAccept n hr hc (List.nil_prefix ..)

/-- Every turn but a reset leaves the undelayed state as it is or makes its one move. -/
theorem takeTurn_follows {n : Nat} {c : Params} (hn : settleCycles c ≤ n) {turn : Turn} (hr : turn ≠ .rst)
    {s t : State} (h : takeTurn c turn s = .next t) : Follows n c s t := by
  cases turn with
  | go => exact agentMove_follows hn h
  | hold | takeByte | startChar | finishChar => cases h; exact .inl rfl
  | rst => exact absurd rfl hr
  | offer => cases h; exact .inl (undelayed_offerDescriptor n s)

theorem stepWith_follows {n : Nat} {c : Params} (hn : settleCycles c ≤ n) {s t : State} (hr : nextTurn s ≠ .rst)
    (h : stepWith c s = .next t) : Follows n c s t :=
  takeTurn_follows hn (s := dropTurn s) hr h

/-! ### Runs -/

/-- The undelayed state holds the events so far. -/
theorem undelayed_events (n : Nat) (s : State) : (undelayed n s).events = s.events := by
  by_cases h : hostTurn s
  · rw [undelayed_of_hostTurn h]; simp [clearWait, timeless, State.events, Function.comp_def]
  · rw [undelayed_of_not_hostTurn h]; simp [timeless, State.events, Function.comp_def]

theorem StepTo.sched {c : Params} {s t : State} (h : StepTo c s t) : t.sched = s.sched := by
  cases h with
  | advances _ _ _ _ _ ha =>
    rcases advance_cases ha with ⟨-, rfl⟩ | ⟨-, -, rfl⟩ | ⟨-, -, -, rfl⟩ | ⟨-, rfl⟩ | ⟨-, rfl⟩ <;> rfl
  | _ => simp

/-- A step adds to the trace and changes nothing of it. -/
theorem StepTo.trace_prefix {c : Params} {s t : State} (h : StepTo c s t) : s.trace <+: t.trace := by
  cases h with
  | advances _ _ _ _ _ ha =>
    rcases advance_cases ha with ⟨-, rfl⟩ | ⟨-, -, rfl⟩ | ⟨-, -, -, rfl⟩ | ⟨-, rfl⟩ | ⟨-, rfl⟩ <;> simp
  | _ => simp

theorem run_events_prefix {k : Nat} {s t : State} (h : run k s = .next t) : s.events <+: t.events := by
  induction k generalizing s with
  | zero => cases h; exact List.prefix_refl _
  | succ k ih =>
    obtain ⟨m, hm, hr⟩ := run_succ_cases h
    exact ((step_cases hm).trace_prefix.map Prod.snd).trans (ih hr)

/-- A schedule without resets gives another turn, and has none after it. -/
theorem step_noReset {s t : State} (hr : noReset s.sched = true) (h : step s = .next t) :
    nextTurn s ≠ .rst ∧ noReset t.sched = true := by
  rw [(step_cases h).sched, dropTurn_sched]
  cases hs : s.sched <;> simp_all [nextTurn, noReset]

/-- Two runs without resets from states that are alike but for delays: one has the events of the other, and more. -/
theorem runs_events_comparable (k l : Nat) {s s' t u : State}
    (hs : undelayed (settleCycles hardwired) s = undelayed (settleCycles hardwired) s')
    (hr : noReset s.sched = true) (hr' : noReset s'.sched = true) (ht : run k s = .next t)
    (hu : run l s' = .next u) : t.events <+: u.events ∨ u.events <+: t.events := by
  have events_eq : ∀ {s s'}, undelayed (settleCycles hardwired) s = undelayed (settleCycles hardwired) s' →
      s.events = s'.events := fun h => by rw [← undelayed_events, h, undelayed_events]
  induction k generalizing s s' l with
  | zero => cases ht; exact .inl (events_eq hs ▸ run_events_prefix hu)
  | succ k ihk =>
    obtain ⟨s₁, h₁, ht₁⟩ := run_succ_cases ht
    obtain ⟨hgo, hr₁⟩ := step_noReset hr h₁
    rcases stepWith_follows le_rfl hgo h₁ with quiet | ⟨m, hm, hms⟩
    · exact ihk l (quiet.trans hs) hr₁ hr' ht₁ hu
    induction l generalizing s' with
    | zero => cases hu; exact .inr (events_eq hs ▸ run_events_prefix ht)
    | succ l ihl =>
      obtain ⟨s₂, h₂, hu₂⟩ := run_succ_cases hu
      obtain ⟨hgo', hr₂⟩ := step_noReset hr' h₂
      rcases stepWith_follows le_rfl hgo' h₂ with quiet | ⟨m', hm', hms'⟩
      · exact ihl (hs.trans quiet.symm) hr₂ hu₂
      · rw [← hs, hm] at hm'
        cases hm'
        exact ihk l (hms.symm.trans hms') hr₁ hr₂ ht₁ hu₂

/-- Settles O44: both runs follow the undelayed machine's one sequence of moves. -/
theorem turnsDoNotChangeTheEvents : Obligations.TurnsDoNotChangeTheEvents :=
  fun k l a b s _ _ ha hb ht hu =>
    runs_events_comparable k l (s := { s with sched := a }) (s' := { s with sched := b }) rfl ha hb ht hu

end Sys2Proof.Machine
end

section
/-!
The transmit data TXD (R23) of a loaded command.
-/
namespace Sys2Proof.Machine

open Sys2Proof.Safety

theorem transmitData_of_raw {s : State} (h : s.op = 2 ∨ s.op = 3) : transmitData s = .ok s.pb := by
  rcases h with h | h <;> simp [transmitData, h]

theorem transmitData_of_frame {s : State} (h : s.op = 4 ∨ s.op = 5) :
    transmitData s = Memory.readRun s.fb 0 s.flen.toNat := by
  rcases h with h | h <;> simp [transmitData, h]

/-- What a command writes in DATA_WR, of its payload: the payload, the frame, or nothing. -/
def dataOf (i : Instr) (payload : List Byte) : Except Fault (List Byte) :=
  match i with
  | .sendBreak => .error (.noTransmitData i.opcode)
  | .sendRawData _ => .ok payload
  | .sendRawPacket _ => .ok payload
  | .sendPacket _ => .ok (frameOf i.startCode payload)
  | .sendAltPacket _ _ => .ok (frameOf i.startCode payload)

/-- TXD of a command just loaded is made of its descriptor and payload alone. -/
theorem transmitData_loadOf {i : Instr} (hi : i.wellFormed = true) {s : State} (hn : i.payloadLen ≤ s.pay.length) :
    transmitData (loadOf i s) = dataOf i (s.pay.take i.payloadLen) := by
  cases i with
  | sendBreak => rfl
  | sendRawData _ => exact transmitData_of_raw (.inl rfl)
  | sendRawPacket _ => exact transmitData_of_raw (.inr rfl)
  | sendPacket _ => exact (transmitData_of_frame (.inl rfl)).trans (loadOf_readRun hi rfl hn)
  | sendAltPacket _ _ => exact (transmitData_of_frame (.inr rfl)).trans (loadOf_readRun hi rfl hn)

end Sys2Proof.Machine
end

section
/-!
No state is carried from one command to the next (R21, R43): two machines that differ in the registers a command loads stay
so, step by step. Where the host moves nothing reads those registers; from an Accept to the end of its command they agree as
far as the sequencer reads them, in the opcode, the transmit data and the settle timer.
-/
namespace Sys2Proof.Safety

open Sys2Proof.Machine

/-! ### States that differ in the dead registers -/

/-- A state with the registers a command loads, and the timer, blanked. -/
def blank (s : State) : State := { s with op := 0, sc := 0, len := 0, pb := [], fb := [], flen := 0, tmr := 0 }

theorem sameButDead_iff {s s' : State} : SameButDead s s' ↔ blank s = blank s' := by
  constructor
  · intro h
    simp only [blank, h.phase, h.waitRsp, h.cmd, h.pay, h.taking, h.trsp, h.sched, h.now, h.trace, h.line]
  · intro h
    simp only [blank, State.mk.injEq] at h
    obtain ⟨hphase, hwait, -, -, -, -, -, -, -, hcmd, hpay, htaking, htrsp, hsched, hnow, htrace, hline⟩ := h
    exact ⟨hphase, hwait, hcmd, hpay, htaking, htrsp, hsched, hnow, htrace, hline⟩

/-- An update that does the same to the other registers whatever the blanked ones hold keeps two states alike. -/
theorem SameButDead.map {s s' : State} (h : SameButDead s s') (f : State → State)
    (hf : ∀ x, blank (f x) = blank (f (blank x))) : SameButDead (f s) (f s') := by
  rw [sameButDead_iff] at h ⊢
  rw [hf s, hf s', h]

theorem blank_offered (x : State) : blank x.offered = blank (blank x).offered := by
  cases h : x.taking with
  | none => rw [offered_of_none h, offered_of_none (s := blank x) h]; rfl
  | some y => rw [offered_of_some h, offered_of_some (s := blank x) h]; rfl

theorem blank_offerDescriptor (x : State) : blank (offerDescriptor x) = blank (offerDescriptor (blank x)) := by
  have hr : (blank x).acceptReady = x.acceptReady := rfl
  have hc : (blank x).cmd = x.cmd := rfl
  unfold offerDescriptor
  rw [hr, hc]
  split
  · split
    · rfl
    · cases phaseOf _ <;> rfl
  · rfl
  · rfl

theorem SameButDead.keeps_hostTurn {s s' : State} (h : SameButDead s s') (hp : hostTurn s) : hostTurn s' := by
  unfold hostTurn at hp ⊢
  rwa [← h.phase, ← h.waitRsp, ← h.taking]

/-! ### Machines that behave alike -/

/-- The command in progress is the same, as far as the sequencer reads it. -/
structure SameCommand (s s' : State) : Prop where
  op : s.op = s'.op
  data : transmitData s = transmitData s'
  timer : s.phase = .settle → s.tmr = s'.tmr

/-- Two machines that behave alike from here on. -/
structure Alike (s s' : State) : Prop where
  same : SameButDead s s'
  command : hostTurn s ∨ SameCommand s s'

/-- Where one machine goes on, so does the other, and they still behave alike. -/
def StayAlike (o o' : StepResult) : Prop := ∀ t, o = .next t → ∃ t', o' = .next t' ∧ Alike t t'

theorem stayAlike_next {t t' : State} (h : Alike t t') : StayAlike (.next t) (.next t') := by
  rintro _ ⟨⟩
  exact ⟨t', rfl, h⟩

/-- A cycle passes for both. -/
theorem Alike.passCycle {s s' : State} (h : Alike s s') : Alike (passCycle s) (passCycle s') where
  same := h.same.map _ fun _ => rfl
  command := h.command.imp id fun hc => ⟨hc.op, hc.data, fun hp => by
    rw [passCycle_phase] at hp
    simp [hp, ← h.same.phase, hc.timer hp]⟩

theorem accepts_alike {s s' : State} (h : SameButDead s s') {i : Instr} (hi : i.wellFormed = true)
    (hn : i.payloadLen ≤ s.pay.length) :
    Alike (gotoPhase (firstPhase i) (loadOf i s)) (gotoPhase (firstPhase i) (loadOf i s')) where
  same := h.map (fun x => gotoPhase (firstPhase i) (loadOf i x)) fun _ => by cases i <;> rfl
  command := .inr {
    op := by simp
    data := by
      have hd : transmitData (loadOf i s) = transmitData (loadOf i s') := by
        rw [transmitData_loadOf hi hn, transmitData_loadOf hi (h.pay ▸ hn), h.pay]
      exact hd
    timer := fun hp => by cases i <;> cases hp }

theorem awaits_alike {s s' : State} (h : SameButDead s s') (hp : s.phase = .idle) (d : Descriptor) :
    Alike (awaitPayload (phaseOf d) d s) (awaitPayload (phaseOf d) d s') where
  same := h.map (awaitPayload (phaseOf d) d) fun _ => by cases phaseOf d <;> rfl
  command := .inl (hostTurn_beginAccept (s := Machine.passCycle s) hp d s.pay)

theorem refuses_alike {s s' : State} (h : SameButDead s s') (hp : s.phase = .idle) (d : Descriptor) :
    Alike (raiseIllegalCommand d s) (raiseIllegalCommand d s') where
  same := h.map (raiseIllegalCommand d) fun _ => rfl
  command := .inl (.inl hp)

theorem hostMove_alike {s s' : State} (h : SameButDead s s') (hp : hostTurn s) :
    StayAlike (hostMove s) (hostMove s') := by
  have ho : SameButDead s.offered s'.offered := h.map State.offered blank_offered
  have idle := offered_phase hp
  have ready := offered_ready hp
  have ready' := offered_ready (h.keeps_hostTurn hp)
  intro t ht
  cases hc : s.offered.cmd with
  | nil =>
    rw [hostMove_nothing hc] at ht
    rw [hostMove_nothing (ho.cmd ▸ hc)]
    exact stayAlike_next (Alike.passCycle ⟨h, .inl hp⟩) t ht
  | cons d rest =>
    have hc' : s'.offered.cmd = d :: rest := ho.cmd ▸ hc
    cases hd : decode d with
    | ok i =>
      rw [hostMove_command hc hd] at ht
      rw [hostMove_command hc' hd]
      rcases exec_cases ht with ⟨-, hn, rfl⟩ | ⟨-, hn, rfl⟩ | ⟨hf, -⟩
      · exact ⟨_, exec_accepted i _ ready' (ho.pay ▸ hn), accepts_alike ho (decode_wellFormed hd) hn⟩
      · rw [encode_of_decode hd, ← phaseOf_ok hd]
        refine ⟨_, ?_, awaits_alike ho idle d⟩
        rw [exec_awaits i _ ready' (ho.pay ▸ hn), encode_of_decode hd, ← phaseOf_ok hd]
      · rw [ready] at hf; cases hf
    | error e =>
      rw [hostMove_illegal hc hd] at ht
      rw [hostMove_illegal hc' hd]
      rcases refuseIllegal_cases ht with ⟨-, hn, rfl⟩ | ⟨-, hn, rfl⟩ | ⟨hf, -⟩
      · exact ⟨_, takeDescriptor_taken _ _ _ _ _ ready' (ho.pay ▸ hn), refuses_alike ho idle d⟩
      · rw [← phaseOf_error hd]
        refine ⟨_, ?_, awaits_alike ho idle d⟩
        rw [phaseOf_error hd]
        exact takeDescriptor_awaits _ _ _ _ _ ready' (ho.pay ▸ hn)
      · rw [ready] at hf; cases hf

/-- advance() reads PHASE and OP. -/
theorem advance_alike {s s' : State} (h : SameButDead s s') (hc : SameCommand s s') :
    StayAlike (advance s) (advance s') := by
  intro t ht
  have hp := h.phase
  have hop := hc.op
  rcases advance_cases ht with ⟨p, rfl⟩ | ⟨p, hb, rfl⟩ | ⟨p, hb, hk, rfl⟩ | ⟨p, rfl⟩ | ⟨p, rfl⟩
  · exact ⟨_, advance_brkCfg (hp ▸ p), h.map _ fun _ => rfl, .inr ⟨hop, hc.data, nofun⟩⟩
  · exact ⟨_, advance_brkWr_break (hp ▸ p) (hop ▸ hb), h.map _ fun _ => rfl, .inl (.inl rfl)⟩
  · exact ⟨_, advance_brkWr_packet (hp ▸ p) (hop ▸ hb) (hop ▸ hk), h.map _ fun _ => rfl,
      .inr ⟨hop, hc.data, fun _ => rfl⟩⟩
  · exact ⟨_, advance_dataCfg (hp ▸ p), h.map _ fun _ => rfl, .inr ⟨hop, hc.data, nofun⟩⟩
  · exact ⟨_, advance_dataWr (hp ▸ p), h.map _ fun _ => rfl, .inl (.inl rfl)⟩

theorem answer_alike (c : Params) {s s' : State} (h : SameButDead s s') (hc : SameCommand s s') :
    StayAlike (answer c s) (answer c s') := by
  have taken (a : Answer) : SameButDead (takeAnswer c a s) (takeAnswer c a s') := h.map _ fun _ => rfl
  intro t ht
  rcases answer_cases ht with ⟨hr, rfl⟩ | ⟨rest, hr, ha⟩ | ⟨e, rest, hr, rfl⟩
  · exact ⟨_, by simp [answer, ← h.trsp, hr], Alike.passCycle ⟨h, .inr hc⟩⟩
  · rw [answer_ok c (h.trsp ▸ hr)]
    exact advance_alike (taken .ok) ⟨hc.op, hc.data, hc.timer⟩ t ha
  · exact ⟨_, answer_err c (h.trsp ▸ hr), (taken (.err e)).map _ fun _ => rfl, .inl (.inl rfl)⟩

theorem issue_alike (c : Params) {s s' : State} (h : SameButDead s s') (hc : SameCommand s s') :
    StayAlike (issue c s) (issue c s') := by
  intro t ht
  obtain ⟨r, hr, rfl⟩ := issue_cases ht
  have hr' : requestOf s' = .ok r := by
    rw [← hr]; simp only [requestOf, h.phase, hc.data]
  exact ⟨_, issue_of_requestOf c hr', h.map _ fun _ => rfl, .inr ⟨hc.op, hc.data, hc.timer⟩⟩

theorem settleStep_alike (c : Params) {s s' : State} (h : SameButDead s s') (hc : SameCommand s s')
    (hp : s.phase = .settle) : Alike (settleStep c s) (settleStep c s') := by
  unfold settleStep
  rw [hc.timer hp]
  split
  · exact ⟨h.map _ fun _ => rfl, .inr ⟨hc.op, hc.data, nofun⟩⟩
  · exact Alike.passCycle ⟨h, .inr hc⟩

theorem agentMove_alike (c : Params) {s s' : State} (h : Alike s s') :
    StayAlike (agentMove c s) (agentMove c s') := by
  obtain ⟨same, command⟩ := h
  by_cases hp : hostTurn s
  · rw [agentMove_host c hp, agentMove_host c (same.keeps_hostTurn hp)]
    exact hostMove_alike same hp
  have hc := command.resolve_left hp
  rcases agent_cases s with h | h | ⟨h, hw⟩ | ⟨h, hw, hk⟩
  · exact absurd h hp
  · rw [agentMove_settle c h, agentMove_settle c (same.phase ▸ h)]
    exact stayAlike_next (settleStep_alike c same hc h)
  · rw [agentMove_answer c h hw, agentMove_answer c (same.phase ▸ h) (same.waitRsp ▸ hw)]
    exact answer_alike c same hc
  · rw [agentMove_issue c h hw hk, agentMove_issue c (same.phase ▸ h) (same.waitRsp ▸ hw)
      (same.phase ▸ same.taking ▸ hk)]
    exact issue_alike c same hc

theorem offerDescriptor_alike {s s' : State} (h : Alike s s') : Alike (offerDescriptor s) (offerDescriptor s') := by
  refine ⟨h.same.map _ blank_offerDescriptor, ?_⟩
  rcases offerDescriptor_cases s with ho | ⟨d, ds, hr, -, -, ho⟩
  · rw [ho]
    exact h.command.imp id fun hc => ⟨by simp [hc.op], by simpa [transmitData] using hc.data, by simpa using hc.timer⟩
  · rw [ho]
    exact .inl (hostTurn_beginAccept ((acceptReady_iff s).mp hr).1 d [])

theorem takeTurn_alike (c : Params) (turn : Turn) {s s' : State} (h : Alike s s') :
    StayAlike (takeTurn c turn s) (takeTurn c turn s') := by
  cases turn with
  | go => exact agentMove_alike c h
  | hold => exact stayAlike_next h.passCycle
  | rst => exact stayAlike_next ⟨h.same.map _ fun _ => rfl, .inl (.inl rfl)⟩
  | offer => exact stayAlike_next (offerDescriptor_alike h)
  | takeByte =>
    exact stayAlike_next ⟨h.same.map (fun x => { x with line := x.line.takeByte }) fun _ => rfl,
      h.command.imp id fun hc => ⟨hc.op, hc.data, hc.timer⟩⟩
  | startChar =>
    exact stayAlike_next ⟨h.same.map (fun x => { x with line := x.line.startChar x.now }) fun _ => rfl,
      h.command.imp id fun hc => ⟨hc.op, hc.data, hc.timer⟩⟩
  | finishChar =>
    exact stayAlike_next ⟨h.same.map (fun x => { x with line := x.line.finishChar c x.now }) fun _ => rfl,
      h.command.imp id fun hc => ⟨hc.op, hc.data, hc.timer⟩⟩

theorem stepWith_alike (c : Params) {s s' : State} (h : Alike s s') : StayAlike (stepWith c s) (stepWith c s') := by
  have turn : nextTurn s' = nextTurn s := by simp only [nextTurn, h.same.sched]
  have drop : Alike (dropTurn s) (dropTurn s') :=
    ⟨h.same.map _ fun _ => rfl, h.command.imp id fun hc => ⟨hc.op, hc.data, hc.timer⟩⟩
  rw [stepWith, stepWith, turn]
  exact takeTurn_alike c _ drop

theorem run_alike (k : Nat) {s s' : State} (h : Alike s s') : StayAlike (run k s) (run k s') := by
  induction k generalizing s s' with
  | zero => exact stayAlike_next h
  | succ k ih =>
    intro t ht
    obtain ⟨m, hm, hk⟩ := run_succ_cases ht
    obtain ⟨m', hm', hmm⟩ := stepWith_alike hardwired h m hm
    rw [run_step hm']
    exact ih hmm t hk

/-- Settles O43: in IDLE the host moves, so the two machines behave alike, and every step keeps them so. -/
theorem deadRegistersDoNotMatter : Obligations.DeadRegistersDoNotMatter := by
  intro k s s' t hp h ht
  obtain ⟨t', ht', hall⟩ := run_alike k ⟨h, .inl (.inl hp)⟩ t ht
  exact ⟨t', ht', hall.same⟩

end Sys2Proof.Safety
end

section
/-!
What a step does in each phase (R26 to R31, R35, R71, R75), read off the four movers and the cases of one step.
-/
namespace Sys2Proof.Safety

open Sys2Proof.Machine

/-! ### What the invariant says of a waiting Accept -/

/-- Where the host moves out of IDLE, what is presented is the descriptor of the Accept that waits, and PHASE is at its
command's first phase. -/
theorem RegistersInv.phase_of_presented {s : State} (h : RegistersInv s) (hs : hostTurn s) (hp : s.phase ≠ .idle)
    {d : Descriptor} {rest : List Descriptor} (hc : s.offered.cmd = d :: rest) :
    s.phase = (phaseOf d).getD .idle := by
  obtain ⟨x, hx⟩ := Option.ne_none_iff_exists'.mp (taking_ne_none_of_hostTurn hs hp)
  obtain ⟨-, -, hphase⟩ := h.accepting x hx
  rw [offered_of_some hx] at hc
  cases hc
  exact hphase

/-- The phases' codes rise along every row of advance() that does not end the command. -/
theorem advance_code_le {s t : State} (h : advance s = .next t) :
    t.phase = .idle ∨ s.phase.code.toNat ≤ t.phase.code.toNat := by
  rcases advance_cases h with ⟨p, rfl⟩ | ⟨p, -, rfl⟩ | ⟨p, -, -, rfl⟩ | ⟨p, rfl⟩ | ⟨p, rfl⟩
  · exact .inr (by rw [p, gotoPhase_phase]; decide)
  · exact .inl rfl
  · exact .inr (by rw [p, startSettle_phase]; decide)
  · exact .inr (by rw [p, gotoPhase_phase]; decide)
  · exact .inl rfl

/-- An Accept that begins, waits or completes leads to its command's first phase, and never back. -/
theorem RegistersInv.code_le_firstPhase {s : State} (h : RegistersInv s) (hs : hostTurn s) {d : Descriptor}
    {rest : List Descriptor} (hc : s.offered.cmd = d :: rest) {i : Instr} (hd : decode d = .ok i) :
    s.phase.code.toNat ≤ (firstPhase i).code.toNat := by
  by_cases hp : s.phase = .idle
  · rw [hp]; exact Nat.zero_le _
  · rw [h.phase_of_presented hs hp hc, phaseOf_ok hd]; exact le_rfl

theorem RegistersInv.code_le_of_stepTo {c : Params} {s t : State} (h : RegistersInv s) (ht : StepTo c s t) :
    t.phase = .idle ∨ s.phase.code.toNat ≤ t.phase.code.toNat := by
  cases ht with
  | passes | takes | starts | finishes | issues => exact .inr le_rfl
  | accepts i _ hs _ d rest hc hd => exact .inr (h.code_le_firstPhase hs hc hd)
  | refuses d rest hs => exact .inl (by simpa using offered_phase hs)
  | awaits d rest hs hc i hd => exact .inr (h.code_le_firstPhase hs hc hd)
  | awaitsIllegal d rest hs => exact .inl (by simpa using offered_phase hs)
  | advances _ _ _ _ _ ha => have hle := advance_code_le ha; exact hle
  | aborts | resets => exact .inl rfl
  | settles hp => exact .inr (by rw [hp, endSettle_phase]; decide)
  | offers =>
    rcases offerDescriptor_cases s with ho | ⟨d, ds, hr, -, -, ho⟩ <;> rw [ho]
    · exact .inr le_rfl
    · exact .inr (by rw [((acceptReady_iff s).mp hr).1]; exact Nat.zero_le _)

/-- Settles O26, by the cases of one step: an Accept leads to its command's first phase, where a waiting one already is. -/
theorem phaseNeverMovesBackwards : Obligations.PhaseNeverMovesBackwards := by
  intro s t h ht
  have hd : RegistersInv (dropTurn s) := h.of_same rfl
  exact hd.code_le_of_stepTo (step_cases ht)

/-- advance() reaches IDLE with the response `ok` only. -/
theorem advance_to_idle {s t : State} (h : advance s = .next t) (ht : t.phase = .idle) : t = respond .ok s := by
  rcases advance_cases h with ⟨-, rfl⟩ | ⟨-, -, rfl⟩ | ⟨-, -, -, rfl⟩ | ⟨-, rfl⟩ | ⟨-, rfl⟩
  · cases ht
  · rfl
  · cases ht
  · cases ht
  · rfl

/-- Only an illegal descriptor keeps the host's PHASE in IDLE, and for that it was there. -/
theorem RegistersInv.idle_of_illegal {s : State} (h : RegistersInv s) (hs : hostTurn s) {d : Descriptor}
    {rest : List Descriptor} (hc : s.offered.cmd = d :: rest) {e : DecodeError} (hd : decode d = .error e) :
    s.phase = .idle := by
  by_contra hp
  exact hp (by rw [h.phase_of_presented hs hp hc, phaseOf_error hd]; rfl)

theorem firstPhase_ne_idle (i : Instr) : firstPhase i ≠ .idle := by
  rcases firstPhase_cases i with h | h <;> simp [h]

theorem RegistersInv.ways_to_idle {c : Params} {s t : State} (h : RegistersInv s) (ht : StepTo c s t)
    (hp : s.phase ≠ .idle) (hidle : t.phase = .idle) :
    (s.waitRsp = true ∧ s.trsp.head? = some .ok ∧
      t.events = s.events ++ [answerEvent s.phase .ok, Event.resp .ok]) ∨
    (∃ e, s.waitRsp = true ∧ s.trsp.head? = some (.err e) ∧
      t.events = s.events ++ [answerEvent s.phase (.err e), Event.resp (.err e)]) ∨
    t.events = s.events ++ [Event.reset] := by
  cases ht with
  | passes | takes | starts | finishes | issues => exact absurd hidle hp
  | accepts i => exact absurd hidle (firstPhase_ne_idle i)
  | refuses d rest hs hc e hd => exact absurd (h.idle_of_illegal hs hc hd) hp
  | awaits d rest hs hc i hd => exact absurd hidle (firstPhase_ne_idle i)
  | awaitsIllegal d rest hs hc e hd => exact absurd (h.idle_of_illegal hs hc hd) hp
  | advances _ rest _ hw hr ha =>
    rw [advance_to_idle ha hidle]
    exact .inl ⟨hw, by simp [hr], by simp⟩
  | aborts e rest _ hw hr => exact .inr (.inl ⟨e, hw, by simp [hr], by simp⟩)
  | settles => cases hidle
  | resets => exact .inr (.inr (resetPulse_events s))
  | offers =>
    rcases offerDescriptor_cases s with ho | ⟨d, ds, hr, -, -, -⟩
    · exact absurd (ho ▸ hidle) hp
    · exact absurd ((acceptReady_iff s).mp hr).1 hp

theorem refuseIllegal_phase {d : Descriptor} {s t : State} (h : refuseIllegal d s = .next t) : t.phase = s.phase := by
  rcases refuseIllegal_cases h with ⟨-, -, rfl⟩ | ⟨-, -, rfl⟩ | ⟨-, rfl⟩ <;> simp

/-- Settles O27: of the cases of one step only the end of a command, the abort and the reset lead to IDLE from elsewhere. -/
theorem idleIsReachedInThreeWays : Obligations.IdleIsReachedInThreeWays := by
  refine ⟨fun s t h ht hp hidle => ?_, fun d s t h hp => (refuseIllegal_phase h).trans hp⟩
  have hd : RegistersInv (dropTurn s) := h.of_same rfl
  exact hd.ways_to_idle (step_cases ht) hp hidle

/-! ### Busy -/

/-- Where no Accept can begin and the host moves, what is presented is the descriptor taken before. -/
theorem offered_cmd_tail {s : State} (hr : s.acceptReady = false) (hs : hostTurn s) : s.offered.cmd.tail = s.cmd := by
  cases hk : s.taking with
  | none =>
    have hp : s.phase = .idle := by
      by_contra hp; exact taking_ne_none_of_hostTurn hs hp hk
    rw [(acceptReady_iff s).mpr ⟨hp, hk⟩] at hr
    cases hr
  | some x => rw [offered_of_some hk]; rfl

/-- While a command is in progress the host does not move. -/
theorem not_hostTurn_of_inProgress {s : State} (h : inProgress s) : ¬ hostTurn s := fun hs =>
  taking_ne_none_of_hostTurn hs h.1 h.2

theorem offerDescriptor_of_not_ready {s : State} (h : s.acceptReady = false) : offerDescriptor s = s := by
  simp [offerDescriptor, h]

/-- The registers of a command and the payload channel are as they were. -/
structure KeepsCommand (s t : State) : Prop where
  pay : t.pay = s.pay
  op : t.op = s.op
  sc : t.sc = s.sc
  len : t.len = s.len
  pb : t.pb = s.pb
  fb : t.fb = s.fb
  flen : t.flen = s.flen

theorem advance_keeps {s t : State} (h : advance s = .next t) : t.cmd = s.cmd ∧ KeepsCommand s t := by
  rcases advance_cases h with ⟨-, rfl⟩ | ⟨-, -, rfl⟩ | ⟨-, -, -, rfl⟩ | ⟨-, rfl⟩ | ⟨-, rfl⟩ <;>
    exact ⟨rfl, rfl, rfl, rfl, rfl, rfl, rfl, rfl⟩

/-- A step in which the host does not move takes nothing off the channels and loads nothing. -/
theorem stepTo_busy {c : Params} {s t : State} (hr : s.acceptReady = false) (ht : StepTo c s t) :
    t.cmd = s.cmd ∧ (¬ hostTurn s → KeepsCommand s t) := by
  cases ht with
  | passes | takes | starts | finishes | issues | aborts | settles | resets =>
    exact ⟨rfl, fun _ => ⟨rfl, rfl, rfl, rfl, rfl, rfl, rfl⟩⟩
  | accepts i _ hs => exact ⟨by simpa using offered_cmd_tail hr hs, fun h => absurd hs h⟩
  | refuses d _ hs => exact ⟨by simpa using offered_cmd_tail hr hs, fun h => absurd hs h⟩
  | awaits d _ hs => exact ⟨by simpa using offered_cmd_tail hr hs, fun h => absurd hs h⟩
  | awaitsIllegal d _ hs => exact ⟨by simpa using offered_cmd_tail hr hs, fun h => absurd hs h⟩
  | advances _ _ _ _ _ ha =>
    obtain ⟨hcmd, hkeep⟩ := advance_keeps ha
    exact ⟨hcmd, fun _ => ⟨hkeep.pay, hkeep.op, hkeep.sc, hkeep.len, hkeep.pb, hkeep.fb, hkeep.flen⟩⟩
  | offers => rw [offerDescriptor_of_not_ready hr]; exact ⟨rfl, fun _ => ⟨rfl, rfl, rfl, rfl, rfl, rfl, rfl⟩⟩

/-- Settles O14: only the host takes from the channels, and where no Accept can begin it completes the one it is in. -/
theorem busyStepTakesNoCommand : Obligations.BusyStepTakesNoCommand := by
  intro s t hr ht
  obtain ⟨hcmd, hkeep⟩ := stepTo_busy (s := dropTurn s) hr (step_cases ht)
  refine ⟨hcmd, fun hs => ?_⟩
  have k := hkeep (not_hostTurn_of_inProgress (s := dropTurn s) hs)
  exact ⟨k.pay, k.op, k.sc, k.len, k.pb, fun a => by rw [k.fb]; rfl, k.flen⟩

theorem busy_iff (s : State) : s.busy = true ↔ s.phase ≠ .idle := by simp [State.busy]

/-- Settles O15: an Accept waits at its command's first phase, or in IDLE if it has none. -/
theorem busyAndReady : Obligations.BusyAndReady := by
  refine fun s => ⟨busy_iff s, cmdReady_iff s, fun h x hx => ?_⟩
  obtain ⟨-, -, hp⟩ := h.accepting x hx
  rw [busy_iff, hp]
  cases hd : decode x.desc with
  | ok i => simp [phaseOf_ok hd, firstPhase_ne_idle]
  | error e => simp [phaseOf_error hd]

/-! ### One step from a known phase -/

/-- Settles O6: in both states the host moves, and what is presented there is the command. -/
theorem stepRunsPresentedCommand : Obligations.StepRunsPresentedCommand := by
  constructor
  · intro s d rest i hr hc hd hgo
    have ready : (dropTurn s).acceptReady = true := hr
    have same := offered_of_ready ready
    rw [step_go hgo, agentMove_host _ (.inl ((acceptReady_iff _).mp ready).1),
      hostMove_command (by rw [same]; exact hc) hd, same]
    rfl
  · intro s x i hp hw hx hd hgo
    have presented := offered_of_some (s := dropTurn s) hx
    rw [step_go hgo, agentMove_host _ (s := dropTurn s) (.inr ⟨hp, hw, by simp [hx]⟩),
      hostMove_command (by rw [presented]) hd, presented]
    rfl

/-- A step that issues the request of its phase. -/
theorem step_issues {s : State} (hgo : nextTurn s = .go) (hw : s.waitRsp = false)
    (hk : (s.phase = .brkCfg ∨ s.phase = .dataCfg) → s.taking = none) {r : Request}
    (hr : requestOf s = .ok r) : step s = .next (sendRequest hardwired r (dropTurn s)) := by
  rw [step_go hgo, agentMove_issue hardwired (s := dropTurn s) (isTransportPhase_of_requestOf hr) hw hk]
  exact issue_of_requestOf hardwired hr

/-- Settles O17, by the rows of R27. -/
theorem issueEmitsThePhasesRequest : Obligations.IssueEmitsThePhasesRequest := by
  intro s hw hk hgo
  have sends {r : Request} (hr : requestOf s = .ok r) := step_issues hgo hw (fun _ => hk) hr
  refine ⟨fun hp => ?_, fun hp => ?_, fun hp => ?_, fun hp bs hbs => ?_⟩
  · exact sends (r := .cfg breakProfile) (by simp [requestOf, hp])
  · exact sends (r := .wr [breakByte]) (by simp [requestOf, hp])
  · exact sends (r := .cfg dataProfile) (by simp [requestOf, hp])
  · exact sends (r := .wr bs) (by simp [requestOf, hp, hbs, Except.map])

/-- The opcodes of the commands that have a data phase. -/
theorem op_of_visits_dataWr {op : BitVec 3} (h : visits op .dataWr = true) : op = 2 ∨ op = 3 ∨ op = 4 ∨ op = 5 := by
  simpa [visits, isRawDataOp, isPacketOp] using h

/-- TXD of a command in its data write: the payload for the raw commands, the frame for the others. -/
theorem RegistersInv.transmitData_eq {s : State} (h : RegistersInv s) (hs : inProgress s) :
    ((s.op = 2 ∨ s.op = 3) → transmitData s = .ok s.pb) ∧
    ((s.op = 4 ∨ s.op = 5) → transmitData s = .ok (s.sc :: s.pb.take 512)) :=
  ⟨transmitData_of_raw, fun hop =>
    (transmitData_of_frame hop).trans (h.frame_bytes hs (by simpa [sendsFrame] using hop))⟩

/-- Settles O18: the request of DATA_WR is the write of TXD. -/
theorem dataWriteCarriesTheTransmitData : Obligations.DataWriteCarriesTheTransmitData := by
  intro s h hp hw hgo
  have hs : inProgress s := h.inProgress_of_not_hostTurn (by simp [hostTurn, hp])
  obtain ⟨raw, frame⟩ := h.transmitData_eq hs
  have writes {bs : List Byte} (hbs : transmitData s = .ok bs) :
      step s = .next (sendRequest hardwired (.wr bs) (dropTurn s)) :=
    step_issues hgo hw (fun _ => hs.2) (by simp [requestOf, hp, hbs, Except.map])
  have hv := h.command_visits_phase hs.2
  rw [hp] at hv
  obtain hop | hop : (s.op = 2 ∨ s.op = 3) ∨ (s.op = 4 ∨ s.op = 5) := or_assoc.mpr (op_of_visits_dataWr hv)
  · refine ⟨_, writes (raw hop), rfl, hp, fun _ => by simp [Request.event], fun hop' => ?_⟩
    rcases hop with hop | hop <;> simp [hop] at hop'
  · refine ⟨_, writes (frame hop), rfl, hp, fun hop' => ?_, fun _ => by simp [Request.event]⟩
    rcases hop with hop | hop <;> simp [hop] at hop'

/-- A step that takes an `ok` answer is a row of advance(). -/
theorem step_takes_ok {s : State} {rest : List Answer} (hgo : nextTurn s = .go) (hp : isTransportPhase s.phase = true)
    (hw : s.waitRsp = true) (hr : s.trsp = .ok :: rest) :
    step s = advance (takeAnswer hardwired .ok (dropTurn s)) := by
  rw [step_go hgo, agentMove_answer hardwired (s := dropTurn s) hp hw]
  exact answer_ok hardwired hr

/-- Settles O19, by the rows of R29. -/
theorem okAnswerAdvances : Obligations.OkAnswerAdvances := by
  intro s rest hw hgo hr
  have takes (hp : isTransportPhase s.phase = true) := step_takes_ok hgo hp hw hr
  refine ⟨fun hp => ?_, fun hp hop => ?_, fun hp hop => ?_, fun hp => ?_, fun hp => ?_⟩
  · exact ⟨_, (takes (by rw [hp]; rfl)).trans (advance_brkCfg hp), rfl, rfl, rfl, by simp [hr],
      by simp [hp, answerEvent, switchProfile]⟩
  · have hb : isBreakOp s.op = true := by rw [hop]; rfl
    exact ⟨_, (takes (by rw [hp]; rfl)).trans (advance_brkWr_break hp hb), rfl, rfl, rfl, by simp [hr],
      by simp [hp, answerEvent, switchProfile]⟩
  · have hb : isBreakOp s.op = false := by rcases hop with h | h | h <;> rw [h] <;> rfl
    have hk : isPacketOp s.op = true := decide_eq_true hop
    exact ⟨_, (takes (by rw [hp]; rfl)).trans (advance_brkWr_packet hp hb hk), rfl, rfl, rfl, by simp [hr],
      by simp [hp, answerEvent, switchProfile]⟩
  · exact ⟨_, (takes (by rw [hp]; rfl)).trans (advance_dataCfg hp), rfl, rfl, rfl, by simp [hr],
      by simp [hp, answerEvent, switchProfile]⟩
  · exact ⟨_, (takes (by rw [hp]; rfl)).trans (advance_dataWr hp), rfl, rfl, rfl, by simp [hr],
      by simp [hp, answerEvent, switchProfile]⟩

/-- Settles O22: a step of SETTLE is `settleStep`, on either side of SETTLE_CYCLES. -/
theorem settleTicksThenEnds : Obligations.SettleTicksThenEnds := by
  intro c s hp hgo
  rw [stepWith_go c hgo, agentMove_settle c (s := dropTurn s) hp]
  refine ⟨fun h => ?_, fun h => ?_⟩
  · rw [settleStep, if_neg (show ¬ settleCycles c ≤ (dropTurn s).tmr from Nat.not_le.mpr h)]
    simp [passCycle, hp, dropTurn]
  · rw [settleStep, if_pos (show settleCycles c ≤ (dropTurn s).tmr from h)]
    rfl

/-! ### Reset and the constants -/

theorem reset_timeInv (c : Params) : TimeInv c State.reset where
  times_sorted := .nil
  times_past := nofun
  law before after b a h := by simp [State.reset] at h
  in_settle := nofun
  before_data := nofun

theorem reset_lineInv (c : Params) : LineInv c State.reset where
  no_overlap := .nil
  all_ended := nofun
  in_progress := nofun

theorem reset_profileInv : ProfileInv State.reset := ⟨nofun, nofun⟩

theorem reset_determinedInv : DeterminedInv State.reset where
  profiles := reset_profileInv
  pending_in_a_write h := absurd rfl h
  queued := nofun
  sent := nofun
  uncut := nofun

/-- Settles O29: in IDLE with nothing on the trace and the line, each invariant is empty. -/
theorem resetStateMeetsTheInvariants : Obligations.ResetStateMeetsTheInvariants :=
  ⟨rfl, rfl, rfl, rfl, rfl, rfl, rfl, registersInv_of_idle Memory.wf_nil rfl rfl rfl, rfl, reset_profileInv,
    reset_determinedInv, fun c => ⟨reset_timeInv c, reset_lineInv c⟩⟩

/-- Settles O45, field by field. -/
theorem profilesAreHardwired : Obligations.ProfilesAreHardwired := ⟨rfl, rfl, by decide⟩

end Sys2Proof.Safety
end

section
/-!
The order of events is kept by every step (R60, R61, R203, R206, R231). Where the host moves the trace stands between two
commands; elsewhere a command is in progress and its position is PHASE and WAITRSP. For each of the step's cases: the events it
adds lead the automaton from the position of the state before to the position of the state after.
-/
namespace Sys2Proof.Safety

open Sys2Proof.Machine

/-! ### The automaton -/

@[simp] theorem follow_nil (p : Spot) : follow p [] = some p := rfl

@[simp] theorem follow_cons (p : Spot) (e : Event) (es : List Event) :
    follow p (e :: es) = (followOne p e).bind (fun q => follow q es) := rfl

@[simp] theorem followOne_reset (p : Spot) : followOne p .reset = some .idle := by cases p <;> rfl

@[simp] theorem followOne_failed (e : TransportError) : followOne (.failed e) (.resp (.err e)) = some .idle :=
  if_pos rfl

/-- The events of a step lead on from where the trace stood. -/
theorem OrderInv.of_events {s t : State} (h : OrderInv s) (es : List Event) (ht : t.events = s.events ++ es)
    (hf : follow (spotOf s) es = some (spotOf t)) : OrderInv t := by
  rw [OrderInv, ht, follow_append, h]
  exact hf

/-! ### The events of the steps -/

@[simp] theorem offered_events (s : State) : s.offered.events = s.events := by simp [State.events]

@[simp] theorem awaitPayload_events (p : Option Phase) (d : Descriptor) (s : State) :
    (awaitPayload p d s).events = s.events := by simp [State.events]

@[simp] theorem offerDescriptor_events (s : State) : (offerDescriptor s).events = s.events := by
  simp [State.events]

@[simp] theorem answerEvent_brkCfg (a : Answer) : answerEvent .brkCfg a = .cfgRsp a := rfl
@[simp] theorem answerEvent_brkWr (a : Answer) : answerEvent .brkWr a = .wrRsp a := rfl
@[simp] theorem answerEvent_dataCfg (a : Answer) : answerEvent .dataCfg a = .cfgRsp a := rfl
@[simp] theorem answerEvent_dataWr (a : Answer) : answerEvent .dataWr a = .wrRsp a := rfl

/-! ### Where a state stands -/

theorem spotOf_of_taking {s : State} (h : s.taking ≠ none) : spotOf s = .idle := by
  obtain ⟨x, hx⟩ := Option.ne_none_iff_exists'.mp h
  simp [spotOf, hx]

theorem spotOf_of_none {s : State} (h : s.taking = none) : spotOf s = phaseSpot s := by
  simp [spotOf, h]

/-- Where the host moves, the trace stands between two commands. -/
theorem spotOf_of_hostTurn {s : State} (h : hostTurn s) : spotOf s = .idle := by
  by_cases hk : s.taking = none
  · have hp : s.phase = .idle := by
      by_contra hp; exact taking_ne_none_of_hostTurn h hp hk
    simp [spotOf_of_none hk, phaseSpot, hp]
  · exact spotOf_of_taking hk

/-- A command just loaded stands behind its Accept, whichever phase it begins in. -/
theorem spotOf_accepted (i : Instr) {s : State} (h : s.taking = none) :
    spotOf (gotoPhase (firstPhase i) (loadOf i s)) = .accepted := by
  rw [spotOf_of_none (by simpa using h)]
  cases i <;> rfl

/-! ### How the sequencer's events lead on -/

/-- A request takes the order of events on from before its transaction into it (R27). -/
theorem followOne_request {c : Params} {s : State} {r : Request} (hr : requestOf s = .ok r) (hw : s.waitRsp = false) :
    followOne (phaseSpot s) r.event = some (phaseSpot (sendRequest c r s)) := by
  unfold requestOf at hr
  split at hr
  next h => cases hr; simp [phaseSpot, h, hw, Request.event, followOne]
  next h => cases hr; simp [phaseSpot, h, hw, Request.event, followOne, breakByte]
  next h =>
    cases hr
    have apart : dataProfile ≠ breakProfile := by decide
    cases hop : isRawDataOp s.op <;> simp [phaseSpot, h, hw, hop, Request.event, followOne, apart]
  next h =>
    cases hd : transmitData s <;> rw [hd] at hr <;> cases hr
    simp [phaseSpot, h, hw, Request.event, followOne]
  next => cases hr
  next => cases hr

/-- An error answer fails the transaction it comes in, whichever it is (R206). -/
theorem followOne_answer_err {s : State} (hp : isTransportPhase s.phase = true) (hw : s.waitRsp = true)
    (e : TransportError) : followOne (phaseSpot s) (answerEvent s.phase (.err e)) = some (.failed e) := by
  cases h : s.phase <;> simp [h, isTransportPhase] at hp <;> simp [phaseSpot, h, hw, followOne]

/-- An `ok` answer and its row of advance() (R29): the events, and where they lead. -/
theorem advance_follows_order {c : Params} {s t : State} (hw : s.waitRsp = true) (hk : s.taking = none)
    (ha : advance (takeAnswer c .ok s) = .next t) :
    ∃ es, t.events = s.events ++ es ∧ follow (phaseSpot s) es = some (spotOf t) := by
  rcases advance_cases ha with ⟨hp, rfl⟩ | ⟨hp, -, rfl⟩ | ⟨hp, -, -, rfl⟩ | ⟨hp, rfl⟩ | ⟨hp, rfl⟩ <;>
    rw [takeAnswer_phase] at hp
  · exact ⟨[.cfgRsp .ok], by simp [hp], by simp [spotOf, phaseSpot, hp, hw, hk, followOne]⟩
  · exact ⟨[.wrRsp .ok, .resp .ok], by simp [hp], by simp [spotOf, phaseSpot, hp, hw, hk, followOne]⟩
  · exact ⟨[.wrRsp .ok, .settleStart], by simp [hp], by simp [spotOf, phaseSpot, hp, hw, hk, followOne]⟩
  · exact ⟨[.cfgRsp .ok], by simp [hp], by simp [spotOf, phaseSpot, hp, hw, hk, followOne]⟩
  · exact ⟨[.wrRsp .ok, .resp .ok], by simp [hp], by simp [spotOf, phaseSpot, hp, hw, hk, followOne]⟩

/-- Only a command that is not SEND_RAW_DATA has a settle wait. -/
theorem isRawDataOp_of_visits_settle {op : BitVec 3} (h : visits op .settle = true) : isRawDataOp op = false := by
  simp only [visits, isPacketOp, decide_eq_true_eq] at h
  rcases h with rfl | rfl | rfl <;> rfl

/-! ### The step -/

/-- Everything a step can do keeps the order of events. -/
theorem OrderInv.of_stepTo {c : Params} {s t : State} (hr : RegistersInv s) (h : OrderInv s) (ht : StepTo c s t) :
    OrderInv t := by
  cases ht with
  | passes | takes | starts | finishes => exact h
  | accepts i _ hs =>
    refine h.of_events [.accept (encode i) (s.offered.pay.take i.payloadLen)] (by simp) ?_
    rw [spotOf_of_hostTurn hs, spotOf_accepted i (offered_taking s)]
    rfl
  | refuses d _ hs =>
    refine h.of_events [.accept d (s.offered.pay.take d.len.toNat), .resp .illegal] (by simp) ?_
    rw [spotOf_of_hostTurn hs, spotOf_of_hostTurn (.inl (by simpa using offered_phase hs))]
    rfl
  | awaits d _ hs | awaitsIllegal d _ hs =>
    refine h.of_events [] (by simp) ?_
    rw [spotOf_of_hostTurn hs, spotOf_of_taking (by simp)]
    rfl
  | issues r hreq hw hk =>
    have hs := hr.inProgress_of_not_hostTurn (not_hostTurn_of_issue (isTransportPhase_of_requestOf hreq) hk)
    refine h.of_events [r.event] (sendRequest_events c r s) ?_
    rw [spotOf_of_none hs.2, spotOf_of_none (by simpa using hs.2), follow_cons, followOne_request hreq hw]
    rfl
  | advances _ _ hp hw _ ha =>
    have hs := hr.inProgress_of_not_hostTurn (not_hostTurn_of_waitRsp hp hw)
    obtain ⟨es, hes, hf⟩ := advance_follows_order hw hs.2 ha
    exact h.of_events es hes (spotOf_of_none hs.2 ▸ hf)
  | aborts e _ hp hw =>
    have hs := hr.inProgress_of_not_hostTurn (not_hostTurn_of_waitRsp hp hw)
    refine h.of_events [answerEvent s.phase (.err e), .resp (.err e)] (by simp) ?_
    rw [spotOf_of_none hs.2, spotOf_of_hostTurn (.inl rfl), follow_cons, followOne_answer_err hp hw]
    simp
  | settles hp =>
    have hs := hr.inProgress_of_not_hostTurn (not_hostTurn_of_settle hp)
    have hop := isRawDataOp_of_visits_settle (hp ▸ hr.command_visits_phase hs.2)
    refine h.of_events [.settleEnd] (endSettle_events s) ?_
    simp [spotOf, phaseSpot, hs.2, hp, hop, followOne]
  | resets => exact h.of_events [.reset] (resetPulse_events s) (by simp [spotOf, phaseSpot])
  | offers =>
    refine h.of_events [] (by simp) ?_
    rcases offerDescriptor_cases s with ho | ⟨d, ds, hready, -, -, ho⟩ <;> rw [ho]
    · rfl
    · rw [spotOf_of_hostTurn (.inl ((acceptReady_iff s).mp hready).1), spotOf_of_taking (by simp)]
      rfl

/-- Settles O32, by the cases of one step. -/
theorem stepKeepsTheOrderOfEvents : Obligations.StepKeepsTheOrderOfEvents := by
  intro s t hr h ht
  have hd : RegistersInv (dropTurn s) := hr.of_same rfl
  exact OrderInv.of_stepTo hd h (step_cases ht)

end Sys2Proof.Safety
end

section
/-!
The decoder and the encoder are inverse to one another (R72 to R74): a descriptor decodes to a command exactly when its
four fields are the command's, which is when it is the command's encoding. R74's rows and R79's causes are read off them.
-/
namespace Sys2Proof

/-- A descriptor has the fields of a command (R72). -/
structure Descriptor.HasFieldsOf (d : Descriptor) (i : Instr) : Prop where
  rsv : d.rsv = 0
  op : d.op = i.opcode
  sc : d.sc = i.startCode
  len : d.len.toNat = i.payloadLen

theorem needZeroStartCode_of_zero {d : Descriptor} (h : d.sc = 0) (i : Instr) :
    needZeroStartCode d i = .ok i := if_pos h

theorem needZeroLength_of_zero {d : Descriptor} (h : d.len.toNat = 0) (i : Instr) : needZeroLength d i = .ok i :=
  if_pos (BitVec.eq_of_toNat_eq h)

/-- A descriptor with the fields of a command passes the checks of its row. -/
theorem decode_of_fields {d : Descriptor} {i : Instr} (h : d.HasFieldsOf i) : decode d = .ok i := by
  obtain ⟨hrsv, hop, hsc, hlen⟩ := h
  rw [decode_of_rsv hrsv]
  cases i with
  | sendBreak =>
    simp only [decodeByOpcode, hop, needZeroStartCode_of_zero hsc]
    exact needZeroLength_of_zero hlen _
  | sendRawData n | sendRawPacket n | sendPacket n =>
    simp only [decodeByOpcode, hop]
    exact (needZeroStartCode_of_zero hsc _).trans (by rw [hlen]; rfl)
  | sendAltPacket n sc =>
    simp only [decodeByOpcode, hop, hsc, hlen]
    rfl

theorem decode_eq_ok_iff_fields {d : Descriptor} {i : Instr} : decode d = .ok i ↔ d.HasFieldsOf i where
  mp h :=
    have ⟨hop, hsc⟩ := decode_opcode_startCode h
    ⟨rsv_of_decode h, hop.symm, hsc.symm, (decode_payloadLen h).symm⟩
  mpr := decode_of_fields

/-- The encoder puts every operand of a well-formed command in its field. -/
theorem encode_hasFieldsOf {i : Instr} (h : i.wellFormed = true) : (encode i).HasFieldsOf i := by
  have value := encode_toNat h
  have hlen := Instr.payloadLen_lt h
  have hsc := i.startCode.isLt
  have hop := i.opcode.isLt
  constructor
  · apply BitVec.eq_of_toNat_eq
    rw [Descriptor.rsv_toNat, value, show (0 : BitVec 5).toNat = 0 from rfl]
    omega
  · apply BitVec.eq_of_toNat_eq
    rw [Descriptor.op_toNat, value]
    omega
  · apply BitVec.eq_of_toNat_eq
    rw [Descriptor.sc_toNat, value]
    omega
  · rw [Descriptor.len_toNat, value]
    omega

theorem decode_eq_ok_iff_encode {d : Descriptor} {i : Instr} :
    decode d = .ok i ↔ i.wellFormed = true ∧ encode i = d where
  mp h := ⟨decode_wellFormed h, encode_of_decode h⟩
  mpr h := h.2 ▸ decode_of_fields (encode_hasFieldsOf h.1)

/-- Settles O2: the encoding has the command's fields, and the decoder reads nothing else. -/
theorem encodeThenDecodeGivesBack : Obligations.EncodeThenDecodeGivesBack :=
  fun _ h => decode_of_fields (encode_hasFieldsOf h)

/-- Settles O3: every field of the descriptor is the command's. -/
theorem decodeThenEncodeGivesBack : Obligations.DecodeThenEncodeGivesBack :=
  fun _ _ h => decode_eq_ok_iff_encode.mp h

/-! ### The rows of R74 -/

theorem decode_error_iff {d : Descriptor} : (∃ e, decode d = .error e) ↔ ∀ i, decode d ≠ .ok i := by
  cases decode d <;> simp

/-- A command whose length is a LEN field is well formed. -/
theorem Instr.wellFormed_of_len {i : Instr} (d : Descriptor) (h : i.payloadLen = d.len.toNat) :
    i.wellFormed = true := by
  have := d.len.isLt
  cases i <;> simp [Instr.wellFormed, Instr.payloadLen, maxLen] at h ⊢ <;> omega

/-- A mask of low bits compares those bits. -/
theorem and_low_eq_iff (d : Descriptor) {k n : Nat} (hk : k ≤ 32) (hn : n < 2 ^ 32) :
    d &&& BitVec.ofNat 32 (2 ^ k - 1) = BitVec.ofNat 32 n ↔ d.toNat % 2 ^ k = n := by
  rw [← BitVec.toNat_inj, and_low_toNat d k hk, BitVec.toNat_ofNat, Nat.mod_eq_of_lt hn]

section
variable {d : Descriptor} {i : Instr} (hlen : i.payloadLen = d.len.toNat)
include hlen

/-- Where LEN is the command's, the low half of the descriptor decides. -/
theorem decode_eq_ok_iff_low_half :
    decode d = .ok i ↔ d.toNat % 65536 = i.startCode.toNat * 256 + i.opcode.toNat := by
  have hw := i.wellFormed_of_len d hlen
  have hsc := i.startCode.isLt
  have hop := i.opcode.isLt
  rw [decode_eq_ok_iff_encode, and_iff_right hw, ← BitVec.toNat_inj, encode_toNat hw, hlen, Descriptor.len_toNat]
  omega

/-- The row of a command whose start-code field is zero. -/
theorem decode_eq_ok_iff_low_sixteen (hsc : i.startCode = 0) :
    decode d = .ok i ↔ d &&& 0x0000FFFF = BitVec.ofNat 32 i.opcode.toNat := by
  have hop := i.opcode.isLt
  rw [decode_eq_ok_iff_low_half hlen, hsc, show (0 : Byte).toNat = 0 from rfl, Nat.zero_mul, Nat.zero_add]
  exact (and_low_eq_iff d (k := 16) (by decide) (by omega)).symm

/-- The row of a command with a start code of its own. -/
theorem decode_eq_ok_iff_low_eight (hsc : i.startCode = d.sc) :
    decode d = .ok i ↔ d &&& 0x000000FF = BitVec.ofNat 32 i.opcode.toNat := by
  have hop := i.opcode.isLt
  rw [decode_eq_ok_iff_low_half hlen, hsc, Descriptor.sc_toNat]
  refine Iff.trans ?_ (and_low_eq_iff d (k := 8) (by decide) (by omega)).symm
  omega

end

/-- SEND_BREAK has one descriptor. -/
theorem decode_eq_ok_sendBreak_iff {d : Descriptor} : decode d = .ok .sendBreak ↔ d &&& 0xFFFFFFFF = 0x00000001 := by
  rw [decode_eq_ok_iff_encode, show (0xFFFFFFFF : Descriptor) = BitVec.allOnes 32 from rfl, BitVec.and_allOnes]
  exact ⟨fun h => h.2.symm, fun h => ⟨rfl, h.symm⟩⟩

/-- What a descriptor can decode to: its fields are the operands. -/
theorem decode_ok_cases {d : Descriptor} {i : Instr} (h : decode d = .ok i) :
    i = .sendBreak ∨ i = .sendRawData d.len.toNat ∨ i = .sendRawPacket d.len.toNat ∨ i = .sendPacket d.len.toNat ∨
      i = .sendAltPacket d.len.toNat d.sc := by
  obtain ⟨-, -, hsc, hlen⟩ := decode_eq_ok_iff_fields.mp h
  rw [hlen, hsc]
  cases i <;> simp [Instr.payloadLen, Instr.startCode]

/-- Settles O4: the rows one by one, and no other command can come out. -/
theorem decoderSelectsByMaskAndMatch : Obligations.DecoderSelectsByMaskAndMatch := by
  intro d
  have rawData : decode d = .ok (.sendRawData d.len.toNat) ↔ _ := decode_eq_ok_iff_low_sixteen rfl rfl
  have rawPacket : decode d = .ok (.sendRawPacket d.len.toNat) ↔ _ := decode_eq_ok_iff_low_sixteen rfl rfl
  have packet : decode d = .ok (.sendPacket d.len.toNat) ↔ _ := decode_eq_ok_iff_low_sixteen rfl rfl
  have altPacket : decode d = .ok (.sendAltPacket d.len.toNat d.sc) ↔ _ := decode_eq_ok_iff_low_eight rfl rfl
  refine ⟨decode_eq_ok_sendBreak_iff, rawData, rawPacket, packet, altPacket, decode_error_iff.trans ⟨fun h => ?_, ?_⟩⟩
  · exact ⟨decode_eq_ok_sendBreak_iff.not.mp (h _), rawData.not.mp (h _), rawPacket.not.mp (h _), packet.not.mp (h _),
      altPacket.not.mp (h _)⟩
  · rintro ⟨h1, h2, h3, h4, h5⟩ i hi
    rcases decode_ok_cases hi with rfl | rfl | rfl | rfl | rfl
    · exact h1 (decode_eq_ok_sendBreak_iff.mp hi)
    · exact h2 (rawData.mp hi)
    · exact h3 (rawPacket.mp hi)
    · exact h4 (packet.mp hi)
    · exact h5 (altPacket.mp hi)

/-! ### The causes of R79 -/

theorem opcode_cases {op : BitVec 3} (h0 : op ≠ 0) (h6 : op ≠ 6) (h7 : op ≠ 7) :
    op = 1 ∨ op = 2 ∨ op = 3 ∨ op = 4 ∨ op = 5 := by
  revert op
  decide

/-- A descriptor is refused for one of R79's four causes. -/
theorem decode_error_iff_cause {d : Descriptor} : (∃ e, decode d = .error e) ↔
    (d.op = 0 ∨ d.op = 6 ∨ d.op = 7 ∨ d.rsv ≠ 0 ∨ (d.sc ≠ 0 ∧ d.op ≠ 5) ∨ (d.len ≠ 0 ∧ d.op = 1)) := by
  rw [decode_error_iff]
  constructor
  · intro h
    by_contra hcause
    simp only [not_or, not_and, not_not] at hcause
    obtain ⟨h0, h6, h7, hrsv, hsc, hlen⟩ := hcause
    have zero_sc (k : BitVec 3) (hk : k ≠ 5) (hop : d.op = k) : d.sc = 0 := by
      by_contra hne
      exact hk (hop ▸ hsc hne)
    rcases opcode_cases h0 h6 h7 with hop | hop | hop | hop | hop
    · have zero_len : d.len = 0 := by
        by_contra hne
        exact hlen hne hop
      exact h .sendBreak (decode_of_fields ⟨hrsv, hop, zero_sc 1 (by decide) hop, by rw [zero_len]; rfl⟩)
    · exact h (.sendRawData d.len.toNat) (decode_of_fields ⟨hrsv, hop, zero_sc 2 (by decide) hop, rfl⟩)
    · exact h (.sendRawPacket d.len.toNat) (decode_of_fields ⟨hrsv, hop, zero_sc 3 (by decide) hop, rfl⟩)
    · exact h (.sendPacket d.len.toNat) (decode_of_fields ⟨hrsv, hop, zero_sc 4 (by decide) hop, rfl⟩)
    · exact h (.sendAltPacket d.len.toNat d.sc) (decode_of_fields ⟨hrsv, hop, rfl, rfl⟩)
  · intro hcause i hi
    obtain ⟨hrsv, hop, hsc, hlen⟩ := decode_eq_ok_iff_fields.mp hi
    rw [hop, hsc] at hcause
    have zero_len : i = .sendBreak → d.len = 0 := fun h => BitVec.eq_of_toNat_eq (by rw [hlen, h]; rfl)
    cases i <;> simp [Instr.opcode, Instr.startCode, hrsv, zero_len] at hcause

/-- Settles O1, by evaluation. -/
theorem descriptorExamplesDecode : Obligations.DescriptorExamplesDecode := by
  unfold Obligations.DescriptorExamplesDecode
  decide

end Sys2Proof
end

section
/-!
From a state that meets the registers' invariant every step goes on (R79, R204, R212): each of the four agents finds the
register contents that its faults are about.
-/
namespace Sys2Proof.Safety

open Sys2Proof.Machine

/-- The outcome is a next state, no fault and no refusal. -/
def GoesOn (o : StepResult) : Prop := ∃ t, o = .next t

theorem goesOn_next (t : State) : GoesOn (.next t) := ⟨t, rfl⟩

theorem takeDescriptor_goesOn (d : Descriptor) (p : Option Phase) (n : Nat) (f : State → State) (s : State) :
    GoesOn (takeDescriptor d p n f s) := by
  unfold takeDescriptor
  split <;> exact goesOn_next _

theorem hostMove_goesOn (s : State) : GoesOn (hostMove s) := by
  unfold hostMove
  split
  · exact goesOn_next _
  · split
    · exact exec_next _ _
    · exact takeDescriptor_goesOn ..

/-- A phase that its command visits has its row of R29. -/
theorem advance_goesOn {s : State} (hp : isTransportPhase s.phase = true) (hv : visits s.op s.phase = true) :
    GoesOn (advance s) := by
  cases h : s.phase <;> rw [h] at hp hv
  case idle | settle => cases hp
  case brkCfg => exact ⟨_, advance_brkCfg h⟩
  case dataCfg => exact ⟨_, advance_dataCfg h⟩
  case dataWr => exact ⟨_, advance_dataWr h⟩
  case brkWr =>
    cases hb : isBreakOp s.op with
    | true => exact ⟨_, advance_brkWr_break h hb⟩
    | false => exact ⟨_, advance_brkWr_packet h hb (by simpa [visits, hb] using hv)⟩

theorem answer_goesOn (c : Params) {s : State} (hp : isTransportPhase s.phase = true)
    (hv : visits s.op s.phase = true) : GoesOn (answer c s) := by
  unfold answer
  split
  · exact goesOn_next _
  · exact advance_goesOn (s := takeAnswer c .ok s) hp hv
  · exact goesOn_next _

/-- A command in its data write has transmit data. -/
theorem RegistersInv.transmitData_ok {s : State} (h : RegistersInv s) (hs : inProgress s) (hp : s.phase = .dataWr) :
    ∃ bs, transmitData s = .ok bs := by
  obtain ⟨raw, frame⟩ := h.transmitData_eq hs
  have hv := h.command_visits_phase hs.2
  rw [hp] at hv
  rcases or_assoc.mpr (op_of_visits_dataWr hv) with hop | hop
  · exact ⟨_, raw hop⟩
  · exact ⟨_, frame hop⟩

theorem RegistersInv.requestOf_ok {s : State} (h : RegistersInv s) (hs : inProgress s)
    (hp : isTransportPhase s.phase = true) : ∃ r, requestOf s = .ok r := by
  cases hphase : s.phase <;> rw [hphase] at hp
  case idle | settle => cases hp
  case brkCfg => exact ⟨.cfg breakProfile, by rw [requestOf, hphase]⟩
  case brkWr => exact ⟨.wr [breakByte], by rw [requestOf, hphase]⟩
  case dataCfg => exact ⟨.cfg dataProfile, by rw [requestOf, hphase]⟩
  case dataWr =>
    obtain ⟨bs, hbs⟩ := h.transmitData_ok hs hphase
    exact ⟨.wr bs, by simp [requestOf, hphase, hbs, Except.map]⟩

theorem RegistersInv.agentMove_goesOn (c : Params) {s : State} (h : RegistersInv s) : GoesOn (agentMove c s) := by
  rcases agent_cases s with hs | hp | ⟨hp, hw⟩ | ⟨hp, hw, hk⟩
  · rw [agentMove_host c hs]
    exact hostMove_goesOn s
  · rw [agentMove_settle c hp]
    exact goesOn_next _
  · have hs := h.inProgress_of_not_hostTurn (not_hostTurn_of_waitRsp hp hw)
    rw [agentMove_answer c hp hw]
    exact answer_goesOn c hp (h.command_visits_phase hs.2)
  · have hs := h.inProgress_of_not_hostTurn (not_hostTurn_of_issue hp hk)
    obtain ⟨r, hr⟩ := h.requestOf_ok hs hp
    rw [agentMove_issue c hp hw hk]
    exact ⟨_, issue_of_requestOf c hr⟩

/-- Settles O31: only the enabled agent's move could fault, and the invariant gives it what it reads. -/
theorem stepNeverStops : Obligations.StepNeverStops := by
  intro s h
  have hd : RegistersInv (dropTurn s) := h.of_same rfl
  unfold step stepWith
  cases nextTurn s with
  | go => exact hd.agentMove_goesOn hardwired
  | hold | rst | takeByte | startChar | finishChar | offer => exact goesOn_next _

end Sys2Proof.Safety
end

section
/-!
What becomes of a descriptor whose payload is, or is not, all there (R75, R203, R246): the state after one step, and the
wait that nothing but the last byte or a reset ends.
-/
namespace Sys2Proof.Machine

open Sys2Proof.Safety

/-- At the host's turn an illegal descriptor at the head of CMD is refused. -/
theorem step_refuses {s : State} {d : Descriptor} {rest : List Descriptor} {e : DecodeError}
    (hr : s.acceptReady = true) (hgo : nextTurn s = .go) (hc : s.cmd = d :: rest) (hd : decode d = .error e) :
    step s = refuseIllegal d (dropTurn s) := by
  have ready : (dropTurn s).acceptReady = true := hr
  have same := offered_of_ready ready
  rw [step_go hgo, agentMove_host _ (.inl ((acceptReady_iff _).mp ready).1),
    hostMove_illegal (by rw [same]; exact hc) hd, same]

/-- Settles O5: the four causes, and the refusal of a descriptor whose payload is there. -/
theorem illegalDescriptorIsRefused : Obligations.IllegalDescriptorIsRefused := by
  refine fun d => ⟨decode_error_iff_cause, fun s rest ⟨e, hd⟩ hr hgo hc hn => ⟨?_, rfl, rfl⟩⟩
  rw [step_refuses hr hgo hc hd]
  refine (takeDescriptor_taken _ _ _ _ (dropTurn s) hr hn).trans ?_
  simp [raiseIllegalCommand, emit, dropTurn, hc]

/-- The state in which an Accept has just begun to wait. -/
theorem awaitPayload_of_idle {s : State} (hp : s.phase = .idle) (p : Option Phase) (d : Descriptor) :
    awaitPayload p d s = enterPhase p
      { s with now := s.now + 1, taking := some { desc := d, got := s.pay }, cmd := s.cmd.tail, pay := [] } := by
  simp [awaitPayload, beginAccept, passCycle, hp]

theorem firstPhase_eq (i : Instr) : firstPhase i = if i.opcode = 2 then .dataCfg else .brkCfg := by
  cases i <;> rfl

/-- Settles O13: an Accept that can begin waits at the command's first phase; where none can, a cycle passes. -/
theorem commandWaitsWhileNotReady : Obligations.CommandWaitsWhileNotReady := by
  refine fun i s => ⟨fun hr hn => ?_, exec_waits i s⟩
  obtain ⟨hp, -⟩ := (acceptReady_iff s).mp hr
  have busy : (awaitPayload (some (firstPhase i)) (encode i) s).busy = true :=
    (busy_iff _).mpr (firstPhase_ne_idle i)
  refine ⟨_, exec_awaits i s hr hn, busy, by rw [State.cmdReady, busy]; rfl, ?_⟩
  rw [awaitPayload_of_idle hp, firstPhase_eq]
  rfl

/-! ### The wait -/

/-- An Accept waits, and the bytes taken and supplied are fewer than its descriptor announces. -/
structure AwaitsPayload (s : State) : Prop where
  host : hostTurn s
  short : ∃ x, s.taking = some x ∧ s.phase = (phaseOf x.desc).getD .idle ∧
    x.got.length + s.pay.length < x.desc.len.toNat

/-- Nothing has happened but that time passed: PHASE, CMD and the events are as they were. -/
structure Quiet (s t : State) : Prop where
  phase : t.phase = s.phase
  cmd : t.cmd = s.cmd
  events : t.events = s.events

theorem Quiet.trans {s t u : State} (h : Quiet s t) (k : Quiet t u) : Quiet s u :=
  ⟨k.phase.trans h.phase, k.cmd.trans h.cmd, k.events.trans h.events⟩

/-- The outcome is a state in which the wait goes on, with nothing new. -/
def StaysAwaiting (s : State) (o : StepResult) : Prop := ∃ t, o = .next t ∧ AwaitsPayload t ∧ Quiet s t

theorem AwaitsPayload.acceptReady {s : State} (h : AwaitsPayload s) : s.acceptReady = false := by
  obtain ⟨x, hx, -⟩ := h.short
  simp [State.acceptReady, hx]

/-- An update that the waiting Accept does not see. -/
theorem AwaitsPayload.of_same {s : State} (h : AwaitsPayload s) (t : State)
    (ht : t = { s with tmr := t.tmr, sched := t.sched, now := t.now, line := t.line }) :
    StaysAwaiting s (.next t) := by
  refine ⟨t, rfl, ?_, ?_⟩ <;> rw [ht]
  · exact ⟨h.host, h.short⟩
  · exact ⟨rfl, rfl, rfl⟩

/-- The host's move of a waiting Accept takes the bytes that are there. -/
theorem AwaitsPayload.hostMove_eq {s : State} {x : Accepting} (h : AwaitsPayload s) (hx : s.taking = some x)
    (hn : x.got.length + s.pay.length < x.desc.len.toNat) :
    hostMove s = .next (awaitPayload (phaseOf x.desc) x.desc s.offered) := by
  have hc : s.offered.cmd = x.desc :: s.cmd := by rw [offered_of_some hx]
  have hpay : s.offered.pay.length < x.desc.len.toNat := by simpa [offered_of_some hx] using hn
  have ready := offered_ready h.host
  cases hd : decode x.desc with
  | ok i =>
    rw [hostMove_command hc hd, exec_awaits i _ ready (decode_payloadLen hd ▸ hpay), encode_of_decode hd, phaseOf_ok hd]
  | error e =>
    rw [hostMove_illegal hc hd, phaseOf_error hd]
    exact takeDescriptor_awaits _ _ _ _ _ ready hpay

theorem AwaitsPayload.hostMove_stays {s : State} (h : AwaitsPayload s) : StaysAwaiting s (hostMove s) := by
  obtain ⟨x, hx, hp, hn⟩ := h.short
  have idle := offered_phase h.host
  refine ⟨_, h.hostMove_eq hx hn, ⟨?_, _, awaitPayload_taking .., ?_, ?_⟩, ?_, ?_, ?_⟩
  · exact hostTurn_beginAccept (s := passCycle s.offered) idle _ _
  · simp [idle]
  · simpa [offered_of_some hx] using hn
  · simp [idle, hp]
  · simp [offered_of_some hx]
  · simp

theorem AwaitsPayload.step_stays {s : State} (h : AwaitsPayload s) (hr : nextTurn s ≠ .rst) :
    StaysAwaiting s (step s) := by
  have hd : AwaitsPayload (dropTurn s) := ⟨h.host, h.short⟩
  unfold step stepWith
  cases ht : nextTurn s with
  | go =>
    rw [takeTurn, agentMove_host _ hd.host]
    obtain ⟨t, hm, ha, hq⟩ := hd.hostMove_stays
    exact ⟨t, hm, ha, hq.phase, hq.cmd, hq.events⟩
  | rst => exact absurd ht hr
  | offer =>
    rw [takeTurn, offerDescriptor_of_not_ready hd.acceptReady]
    exact h.of_same _ rfl
  | hold | takeByte | startChar | finishChar => exact h.of_same _ rfl

theorem nextTurn_ne_rst {s : State} (hr : noReset s.sched = true) : nextTurn s ≠ .rst := by
  cases hs : s.sched with
  | nil => simp [nextTurn, hs]
  | cons t ts =>
    have first : t ≠ .rst := by
      rw [hs] at hr
      simp only [noReset, List.all_cons, Bool.and_eq_true, decide_eq_true_eq] at hr
      exact hr.1
    simpa [nextTurn, hs] using first

/-- The wait has no bound. -/
theorem AwaitsPayload.run_stays (k : Nat) {s : State} (h : AwaitsPayload s) (hr : noReset s.sched = true) :
    StaysAwaiting s (run k s) := by
  induction k generalizing s with
  | zero => exact ⟨s, rfl, h, rfl, rfl, rfl⟩
  | succ k ih =>
    obtain ⟨t, ht, ha, hq⟩ := h.step_stays (nextTurn_ne_rst hr)
    obtain ⟨u, hu, hau, hqu⟩ := ih ha (step_noReset hr ht).2
    exact ⟨u, (run_step ht).trans hu, hau, hq.trans hqu⟩

theorem step_rst {s : State} (h : s.sched.head? = some .rst) : step s = .next (resetPulse (dropTurn s)) := by
  obtain ⟨ts, hs⟩ := List.head?_eq_some_iff.mp h
  simp [step, stepWith, nextTurn, hs, takeTurn]

/-- Settles O25: an illegal descriptor's Accept waits in IDLE, until a reset. -/
theorem illegalDescriptorWaitsForItsPayload : Obligations.IllegalDescriptorWaitsForItsPayload := by
  refine ⟨fun k s x e hp hx hd hn => ⟨fun hr => ?_, fun hrst => ?_⟩, fun s d rest e hr hgo hc hd hn => ?_⟩
  · have waits : AwaitsPayload s := ⟨.inl hp, x, hx, by rw [phaseOf_error hd]; exact hp, hn⟩
    obtain ⟨t, ht, -, hq⟩ := waits.run_stays k hr
    exact ⟨t, ht, hq.phase.trans hp, hq.cmd, hq.events⟩
  · exact ⟨_, step_rst hrst, (acceptReady_iff _).mpr ⟨rfl, rfl⟩⟩
  · rw [step_refuses hr hgo hc hd]
    refine (takeDescriptor_awaits _ _ _ _ (dropTurn s) hr hn).trans ?_
    rw [awaitPayload_of_idle (s := dropTurn s) ((acceptReady_iff s).mp hr).1]
    simp [dropTurn, hc]

end Sys2Proof.Machine
end

section
/-!
The word formats (R82, R87): a word made of a number above two low bits gives both back. That is all that is asked of a
status word, and of the response word made from it.
-/
namespace Sys2Proof.Machine

open Sys2Proof.Safety

theorem ErrorKind.bit_ofBit (b : Bool) : (ErrorKind.ofBit b).bit = b.toNat := by cases b <;> rfl

theorem ErrorKind.ofBit_decide_writeError (k : ErrorKind) :
    ErrorKind.ofBit (decide (k = .writeError)) = k := by cases k <;> rfl

theorem ErrorKind.bit_eq_toNat (k : ErrorKind) : k.bit = (decide (k = .writeError)).toNat := by cases k <;> rfl

section
variable {errw n low : Nat} (hn : n < 2 ^ errw) (hlow : low < 4)
include hn hlow

theorem fieldWord_toNat : (BitVec.ofNat (errw + 2) (n * 4 + low)).toNat = n * 4 + low := by
  have room : 2 ^ (errw + 2) = 2 ^ errw * 4 := Nat.pow_add 2 errw 2
  rw [BitVec.toNat_ofNat, Nat.mod_eq_of_lt (by omega)]

theorem fieldWord_high : (BitVec.ofNat (errw + 2) (n * 4 + low)).extractLsb' 2 errw = BitVec.ofNat errw n := by
  apply BitVec.eq_of_toNat_eq
  rw [BitVec.extractLsb'_toNat, fieldWord_toNat hn hlow, Nat.shiftRight_eq_div_pow, BitVec.toNat_ofNat]
  congr 1
  omega

end

/-- The status word of an error (R87): INFO above two low bits, KIND and ERR. -/
theorem statusWord_err (errw : Nat) (e : TransportError) :
    statusWord errw (.err e) =
      BitVec.ofNat (errw + 2) (e.info * 4 + ((decide (e.kind = .writeError)).toNat * 2 + 1)) := by
  rw [← ErrorKind.bit_eq_toNat]
  rfl

theorem kindAndErr_lt (b : Bool) : b.toNat * 2 + 1 < 4 := by cases b <;> decide

section
variable {errw : Nat} {e : TransportError} (h : e.info < 2 ^ errw)
include h

theorem statusWord_err_bit_zero : (statusWord errw (.err e)).getLsbD 0 = true := by
  rw [statusWord_err, BitVec.getLsbD, fieldWord_toNat h (kindAndErr_lt _), Nat.testBit_zero]
  simp only [decide_eq_true_eq]
  omega

theorem statusWord_err_bit_one : (statusWord errw (.err e)).getLsbD 1 = decide (e.kind = .writeError) := by
  rw [statusWord_err, BitVec.getLsbD, fieldWord_toNat h (kindAndErr_lt _), Nat.testBit_succ, Nat.testBit_zero]
  cases decide (e.kind = .writeError) <;> simp <;> omega

theorem statusWord_err_info : ((statusWord errw (.err e)).extractLsb' 2 errw).toNat = e.info := by
  rw [statusWord_err, fieldWord_high h (kindAndErr_lt _), BitVec.toNat_ofNat, Nat.mod_eq_of_lt h]

end

/-- Settles O47: `ok` is the zero word; an error's word has ERR set, and gives KIND and INFO back. -/
theorem statusWordCarriesTheAnswer : Obligations.StatusWordCarriesTheAnswer := by
  intro errw a hfits
  cases a with
  | ok => exact ⟨by simp [answerOfStatus, statusWord], by simp [statusWord], nofun⟩
  | err e =>
    have h := hfits e rfl
    have one := statusWord_err_bit_one h
    refine ⟨?_, by simp [statusWord_err_bit_zero h], ?_⟩
    · rw [answerOfStatus, if_pos (statusWord_err_bit_zero h), one, ErrorKind.ofBit_decide_writeError,
        statusWord_err_info h]
    · rintro _ ⟨⟩
      exact one

/-! ### From a status word to the response word (R83) -/

theorem answerOfStatus_err {errw : Nat} {w : BitVec (errw + 2)} (h : w.getLsbD 0 = true) :
    answerOfStatus errw w = .err ⟨ErrorKind.ofBit (w.getLsbD 1), (w.extractLsb' 2 errw).toNat⟩ := if_pos h

/-- The response word of an error that came in a status word: its ST, and the status word's INFO bit for bit. -/
theorem responseWord_err {errw : Nat} (b : Bool) (info : BitVec errw) :
    (responseWord errw (.err ⟨ErrorKind.ofBit b, info.toNat⟩)).toNat % 4 = 1 + b.toNat ∧
      (responseWord errw (.err ⟨ErrorKind.ofBit b, info.toNat⟩)).extractLsb' 2 errw = info := by
  have hst : 1 + b.toNat < 4 := by cases b <;> decide
  simp only [responseWord, Response.info, Response.st, ErrorKind.bit_ofBit]
  rw [fieldWord_toNat info.isLt hst, fieldWord_high info.isLt hst, BitVec.ofNat_toNat, BitVec.setWidth_eq]
  exact ⟨by omega, rfl⟩

@[simp] theorem rspOf_resp (r : Response) : rspOf (.resp r) = some r := rfl

/-- An answer's event is no response. -/
@[simp] theorem rspOf_answerEvent (p : Phase) (a : Answer) : rspOf (answerEvent p a) = none := by cases p <;> rfl

/-- An abort puts one word on RSP. -/
theorem rspMessages_abort (errw : Nat) (c : Params) (a : Answer) (e : TransportError) (s : State) :
    rspMessages errw (raiseTransportError e (takeAnswer c a s)) =
      rspMessages errw s ++ [responseWord errw (.err e)] := by
  simp [rspMessages]

/-- A step that takes an error answer is the abort of R206. -/
theorem step_takes_err {s : State} {e : TransportError} {rest : List Answer} (hgo : nextTurn s = .go)
    (hp : isTransportPhase s.phase = true) (hw : s.waitRsp = true) (hr : s.trsp = .err e :: rest) :
    step s = .next (raiseTransportError e (takeAnswer hardwired (.err e) (dropTurn s))) := by
  rw [step_go hgo, agentMove_answer hardwired (s := dropTurn s) hp hw]
  exact answer_err hardwired hr

/-- Settles O21: the abort answers the error it was given, whatever the phase. -/
theorem errorWordIsPassedOnUnchanged : Obligations.ErrorWordIsPassedOnUnchanged := by
  intro errw w s rest herr hp hw hgo hr
  obtain ⟨hst, hinfo⟩ := responseWord_err (w.getLsbD 1) (w.extractLsb' 2 errw)
  rw [answerOfStatus_err herr] at hr
  exact ⟨_, _, step_takes_err hgo hp hw hr, rspMessages_abort .., hst, hinfo⟩

/-- DMXTX asks for no profile but its two (R102). -/
theorem requestOf_cfg {s : State} {p : SerialProfile} (h : requestOf s = .ok (.cfg p)) :
    p = breakProfile ∨ p = dataProfile := by
  unfold requestOf at h
  split at h
  next => cases h; exact .inl rfl
  next => cases h
  next => cases h; exact .inr rfl
  next => cases hd : transmitData s <;> rw [hd] at h <;> cases h
  next => cases h
  next => cases h

/-- Settles O46: the headers by evaluation, and no profile but the two is asked for. -/
theorem requestHeadersOfTheSpec : Obligations.RequestHeadersOfTheSpec := by
  refine ⟨by decide, by decide, by decide, by decide, by decide, by decide, fun s p h => ?_⟩
  rcases requestOf_cfg h with rfl | rfl
  · exact .inl (by decide)
  · exact .inr (by decide)

end Sys2Proof.Machine
end

section
/-!
What an answered write leaves in the transport's queue (R86, R106, R107, R109).
-/
namespace Sys2Proof.Machine

open Sys2Proof.Safety

/-- The transport once it has taken the first `n` bytes of the outstanding write (R107). -/
def Transport.taken (n : Nat) (t : Transport) : Transport :=
  { t with txq := t.txq ++ (t.pend.take n).map t.queued, pend := t.pend.drop n }

theorem Transport.taken_zero (t : Transport) : t.taken 0 = t := by simp [taken]

/-- One byte more. -/
theorem Transport.takeByte_taken (n : Nat) (t : Transport) : t.takeByte.taken n = t.taken (n + 1) := by
  unfold takeByte
  split
  next h => simp [taken, h]
  next b bs h =>
    simp only [taken, h, List.take_succ_cons, List.map_cons, List.drop_succ_cons, List.append_assoc,
      List.singleton_append]
    rfl

/-- `n` takeByte turns take `n` bytes, and nothing else happens. -/
theorem run_takeBytes (n : Nat) {s : State} (ts : List Turn) (h : s.sched = List.replicate n .takeByte ++ ts) :
    run n s = .next { s with sched := ts, line := s.line.taken n } := by
  induction n generalizing s with
  | zero =>
    simp only [List.replicate_zero, List.nil_append] at h
    rw [run_zero, Transport.taken_zero, ← h]
  | succ n ih =>
    have first : step s = .next { dropTurn s with line := s.line.takeByte } := by
      simp [step, stepWith, nextTurn, h, List.replicate_succ, takeTurn]
    rw [run_step first, ih (by simp [h, List.replicate_succ]), Transport.takeByte_taken]
    rfl

/-- The end of a write phase's transaction leaves the transport alone. -/
theorem advance_line {s t : State} (h : advance s = .next t) : t.line = s.line := by
  rcases advance_cases h with ⟨-, rfl⟩ | ⟨-, -, rfl⟩ | ⟨-, -, -, rfl⟩ | ⟨-, rfl⟩ | ⟨-, rfl⟩ <;> rfl

theorem answered_of_write (c : Params) {p : Phase} (hp : p = .brkWr ∨ p = .dataWr) (a : Answer) (t : Transport) :
    t.answered c p a = t.writeAnswered a := by
  rcases hp with rfl | rfl <;> rfl

/-- An abort in a write phase drops the bytes not taken (U4). -/
theorem abort_line (c : Params) (e : TransportError) {s : State} (hp : s.phase = .brkWr ∨ s.phase = .dataWr) :
    (raiseTransportError e (takeAnswer c (.err e) s)).line = { s.line with pend := [] } := by
  rw [raiseTransportError_line, takeAnswer_line, answered_of_write c hp]
  rfl

/-- Settles O59: `ok` queues what is pending; before an error as many takeByte turns as bytes are to be queued. -/
theorem answeredWriteFillsTheQueue : Obligations.AnsweredWriteFillsTheQueue := by
  rintro s _ rest hp hw rfl
  have transport : isTransportPhase s.phase = true := by rcases hp with h | h <;> rw [h] <;> rfl
  refine ⟨fun hgo hr t ht => ?_, fun n e _ hs hr => ?_⟩
  · rw [step_takes_ok hgo transport hw hr] at ht
    rw [advance_line ht, takeAnswer_line, answered_of_write hardwired (p := (dropTurn s).phase) hp]
    exact ⟨rfl, rfl⟩
  · have taken := run_takeBytes n [] (hs.trans (List.append_nil _).symm)
    have aborts := step_takes_err (s := { s with sched := [], line := s.line.taken n }) rfl transport hw hr
    have line := abort_line hardwired e (s := { s with sched := [], line := s.line.taken n }) hp
    refine ⟨_, (run_add taken).trans (run_step aborts), rfl, congrArg Transport.pend line, congrArg Transport.txq line⟩

end Sys2Proof.Machine
end

section
/-!
Where an Accept leads (R26, R203), whether it is complete, waits or is refused: to IDLE or a phase a command can begin
with. What an invariant says of the other phases holds after it for want of the phase.
-/
namespace Sys2Proof.Safety

open Sys2Proof.Machine

@[simp] theorem loadOf_now (i : Instr) (s : State) : (loadOf i s).now = s.now := by cases i <;> rfl
@[simp] theorem loadOf_line (i : Instr) (s : State) : (loadOf i s).line = s.line := by cases i <;> rfl

/-- IDLE and the two phases a command can begin with. -/
def IsStartPhase (p : Phase) : Prop := p = .idle ∨ p = .brkCfg ∨ p = .dataCfg

theorem isStartPhase_idle : IsStartPhase .idle := .inl rfl

theorem isStartPhase_firstPhase (i : Instr) : IsStartPhase (firstPhase i) := .inr (firstPhase_cases i)

theorem isStartPhase_phaseOf (d : Descriptor) : IsStartPhase ((phaseOf d).getD .idle) := by
  cases hd : decode d with
  | ok i => rw [phaseOf_ok hd]; exact isStartPhase_firstPhase i
  | error e => rw [phaseOf_error hd]; exact isStartPhase_idle

theorem IsStartPhase.ne_settle {p : Phase} (h : IsStartPhase p) : p ≠ .settle := by
  rcases h with rfl | rfl | rfl <;> decide

theorem IsStartPhase.ne_brkWr {p : Phase} (h : IsStartPhase p) : p ≠ .brkWr := by
  rcases h with rfl | rfl | rfl <;> decide

theorem IsStartPhase.ne_dataWr {p : Phase} (h : IsStartPhase p) : p ≠ .dataWr := by
  rcases h with rfl | rfl | rfl <;> decide

theorem isStartPhase_of_hostTurn {s : State} (h : hostTurn s) : IsStartPhase s.phase := by
  rcases h with h | ⟨h, -, -⟩
  · exact .inl h
  · exact .inr h

/-- Where an illegal descriptor's Accept waits, PHASE is in IDLE. -/
theorem isStartPhase_awaitsIllegal {s : State} (h : hostTurn s) (d : Descriptor) :
    IsStartPhase (awaitPayload none d s.offered).phase := by
  rw [awaitPayload_phase, Option.getD_none, offered_phase h]
  exact isStartPhase_idle

/-- An offer turn does nothing, or an Accept waits after it, in a phase a command can begin with. -/
theorem offerDescriptor_awaits (s : State) :
    offerDescriptor s = s ∨ ((offerDescriptor s).taking ≠ none ∧ IsStartPhase (offerDescriptor s).phase) := by
  rcases offerDescriptor_cases s with h | ⟨d, ds, hr, -, -, h⟩
  · exact .inl h
  · rw [h, beginAccept_phase, ((acceptReady_iff s).mp hr).1]
    exact .inr ⟨by simp, isStartPhase_phaseOf d⟩

end Sys2Proof.Safety
end

section
/-!
The law of the settle wait is kept by every step (R110, R142), and the wait has no upper bound (R245). The trace's
part of the invariant is kept by each event a step adds, the request of DATA_CFG because the state says that the
settle wait before it has lasted. The state's part speaks of SETTLE and of DATA_CFG before its request; few steps lead
to one of these.
-/
namespace Sys2Proof.Safety

open Sys2Proof.Machine

/-! ### The trace's part of the invariant -/

/-- What `TimeInv` says of the trace at a time: the times are in order and not in the future, and the settle law
holds. -/
structure LawfulTrace (c : Params) (tr : List (Nat × Event)) (now : Nat) : Prop where
  sorted : (tr.map Prod.fst).Pairwise (· ≤ ·)
  past : ∀ x ∈ tr, x.1 ≤ now
  law : SettleLaw c tr

theorem TimeInv.lawfulTrace {c : Params} {s : State} (h : TimeInv c s) : LawfulTrace c s.trace s.now :=
  ⟨h.times_sorted, h.times_past, h.law⟩

theorem LawfulTrace.later {c : Params} {tr : List (Nat × Event)} {m n : Nat} (h : LawfulTrace c tr m) (hmn : m ≤ n) :
    LawfulTrace c tr n :=
  ⟨h.sorted, fun x hx => (h.past x hx).trans hmn, h.law⟩

/-- One more event at the present time, which may be the configure of DATA_CFG if the settle wait has lasted. -/
theorem LawfulTrace.append {c : Params} {tr : List (Nat × Event)} {now : Nat} (h : LawfulTrace c tr now) {e : Event}
    (he : e = .cfgReq dataProfile → ∀ a, settleBegun tr = some a → a + settleCycles c ≤ now) :
    LawfulTrace c (tr ++ [(now, e)]) now where
  sorted := by
    rw [List.map_append, List.pairwise_append]
    refine ⟨h.sorted, List.pairwise_singleton _ _, fun m hm n hn => ?_⟩
    obtain ⟨x, hx, rfl⟩ := List.mem_map.mp hm
    rw [show n = now by simpa using hn]
    exact h.past x hx
  past x hx := by
    rcases List.mem_append.mp hx with hx | hx
    · exact h.past x hx
    · rw [List.mem_singleton.mp hx]
  law := settleLaw_append h.law he

theorem LawfulTrace.append_other {c : Params} {tr : List (Nat × Event)} {now : Nat} (h : LawfulTrace c tr now)
    {e : Event} (he : e ≠ .cfgReq dataProfile) : LawfulTrace c (tr ++ [(now, e)]) now :=
  h.append fun k => absurd k he

/-! ### How the events of a transaction are read -/

theorem answerEvent_ne_cfgReq (p : Phase) (a : Answer) (q : SerialProfile) : answerEvent p a ≠ .cfgReq q := by
  cases p <;> simp [answerEvent, switchProfile]

/-- Only DATA_CFG asks for DATA_PROFILE (R102). -/
theorem phase_of_request_dataProfile {s : State} (h : requestOf s = .ok (.cfg dataProfile)) : s.phase = .dataCfg := by
  have apart : breakProfile ≠ dataProfile := by decide
  unfold requestOf at h
  split at h
  next => simp [apart] at h
  next => cases h
  next hp => exact hp
  next => cases hd : transmitData s <;> rw [hd] at h <;> cases h
  next => cases h
  next => cases h

theorem request_of_event_cfgReq {r : Request} {p : SerialProfile} (h : r.event = .cfgReq p) : r = .cfg p := by
  cases r <;> cases h
  rfl

/-! ### The state's part of the invariant -/

/-- Out of SETTLE, and with no configure of DATA_CFG due that comes after a settle wait. -/
theorem timeInv_of_lawfulTrace {c : Params} {t : State} (h : LawfulTrace c t.trace t.now) (hs : t.phase ≠ .settle)
    (hd : t.phase = .dataCfg → t.waitRsp = false → t.taking = none → settleBegun t.trace = none) : TimeInv c t where
  times_sorted := h.sorted
  times_past := h.past
  law := h.law
  in_settle hp := absurd hp hs
  before_data hp hw hk a ha := by rw [hd hp hw hk] at ha; cases ha

/-- A state in which an Accept waits. -/
theorem timeInv_of_taking {c : Params} {t : State} (h : LawfulTrace c t.trace t.now) (hs : IsStartPhase t.phase)
    (hk : t.taking ≠ none) : TimeInv c t :=
  timeInv_of_lawfulTrace h hs.ne_settle fun _ _ k => absurd k hk

/-- The end of a command. -/
theorem timeInv_of_idle {c : Params} {t : State} (h : LawfulTrace c t.trace t.now) (hp : t.phase = .idle) :
    TimeInv c t :=
  timeInv_of_lawfulTrace h (by simp [hp]) fun k => by rw [hp] at k; cases k

/-- In SETTLE a cycle counts in TMR as it does in the time. -/
theorem TimeInv.of_passCycle {c : Params} {s : State} (h : TimeInv c s) : TimeInv c (passCycle s) where
  times_sorted := h.times_sorted
  times_past x hx := (h.times_past x hx).trans (Nat.le_succ _)
  law := h.law
  in_settle hp := by
    rw [passCycle_phase] at hp
    obtain ⟨a, ha, hn⟩ := h.in_settle hp
    refine ⟨a, ha, ?_⟩
    rw [passCycle_tmr, if_pos hp, passCycle_now]
    omega
  before_data hp hw hk a ha := (h.before_data hp hw hk a ha).trans (Nat.le_succ _)

/-- A request: where it is the configure of DATA_CFG, the settle wait before it has lasted (R142). -/
theorem TimeInv.of_sendRequest {c : Params} {s : State} (h : TimeInv c s) {r : Request} (hr : requestOf s = .ok r)
    (hw : s.waitRsp = false) (hk : (s.phase = .brkCfg ∨ s.phase = .dataCfg) → s.taking = none) :
    TimeInv c (sendRequest c r s) := by
  have lasted : r.event = .cfgReq dataProfile → ∀ a, settleBegun s.trace = some a → a + settleCycles c ≤ s.now := by
    intro he
    rw [request_of_event_cfgReq he] at hr
    have hp := phase_of_request_dataProfile hr
    exact h.before_data hp hw (hk (.inr hp))
  have transport := isTransportPhase_of_requestOf hr
  refine timeInv_of_lawfulTrace (h.lawfulTrace.append lasted) (fun hp => ?_) (fun _ k => by cases k)
  rw [← sendRequest_phase c r s, hp] at transport
  cases transport

/-- The rows of advance(): a settle wait begins now, with TMR at 0 (R29); no row leads to DATA_CFG. -/
theorem timeInv_of_advance {c : Params} {s t : State} (h : LawfulTrace c s.trace s.now) (ha : advance s = .next t) :
    TimeInv c t := by
  rcases advance_cases ha with ⟨-, rfl⟩ | ⟨-, -, rfl⟩ | ⟨-, -, -, rfl⟩ | ⟨-, rfl⟩ | ⟨-, rfl⟩
  · exact timeInv_of_lawfulTrace h (by simp) (by simp)
  · exact timeInv_of_idle (h.append_other (by simp)) rfl
  · have started := h.append_other (e := .settleStart) (by simp)
    have begun : settleBegun (startSettle s).trace = some s.now := by simp [settleBegun_append, noteSettle]
    exact ⟨started.sorted, started.past, started.law, fun _ => ⟨s.now, begun, rfl⟩, nofun⟩
  · exact timeInv_of_lawfulTrace h (by simp) (by simp)
  · exact timeInv_of_idle (h.append_other (by simp)) rfl

/-- SETTLE-END: TMR is the time since SettleStart and has reached SETTLE_CYCLES (R30). -/
theorem TimeInv.of_endSettle {c : Params} {s : State} (h : TimeInv c s) (hp : s.phase = .settle)
    (hc : settleCycles c ≤ s.tmr) : TimeInv c (endSettle s) := by
  obtain ⟨a, ha, hn⟩ := h.in_settle hp
  have ended := h.lawfulTrace.append_other (e := .settleEnd) (by simp)
  refine ⟨ended.sorted, ended.past, ended.law, nofun, fun _ _ _ b hb => ?_⟩
  simp only [endSettle_trace, settleBegun_append, noteSettle, ha, Option.some.injEq] at hb
  rw [endSettle_now]
  omega

/-! ### The step -/

/-- Everything a step can do keeps the law of the settle wait. -/
theorem TimeInv.of_stepTo {c : Params} {s t : State} (h : TimeInv c s) (ht : StepTo c s t) : TimeInv c t := by
  have lawful := h.lawfulTrace
  have presented : LawfulTrace c s.offered.trace s.offered.now := by simpa using lawful
  cases ht with
  | passes => exact h.of_passCycle
  | takes | starts | finishes => exact ⟨h.times_sorted, h.times_past, h.law, h.in_settle, h.before_data⟩
  | accepts i =>
    refine timeInv_of_lawfulTrace ?_ (isStartPhase_firstPhase i).ne_settle fun _ _ _ => ?_
    · rw [gotoPhase_trace, loadOf_trace, gotoPhase_now, loadOf_now]
      exact presented.append_other (by simp)
    · rw [gotoPhase_trace, loadOf_trace, settleBegun_append]
      rfl
  | refuses d _ hs =>
    exact timeInv_of_idle ((presented.append_other (by simp)).append_other (by simp)) (offered_phase hs)
  | awaits d _ _ _ i =>
    exact timeInv_of_taking (by simpa using lawful.later (Nat.le_succ _)) (isStartPhase_firstPhase i) (by simp)
  | awaitsIllegal d _ hs =>
    exact timeInv_of_taking (by simpa using lawful.later (Nat.le_succ _)) (isStartPhase_awaitsIllegal hs d) (by simp)
  | issues r hr hw hk => exact h.of_sendRequest hr hw hk
  | advances _ _ _ _ _ ha => exact timeInv_of_advance (lawful.append_other (answerEvent_ne_cfgReq _ _ _)) ha
  | aborts e =>
    exact timeInv_of_idle ((lawful.append_other (answerEvent_ne_cfgReq _ _ _)).append_other (by simp)) rfl
  | settles hp hc => exact h.of_endSettle hp hc
  | resets => exact timeInv_of_idle ((lawful.append_other (by simp)).later (Nat.le_succ _)) rfl
  | offers =>
    rcases offerDescriptor_awaits s with ho | ⟨hk, hp⟩
    · rw [ho]; exact h
    · exact timeInv_of_taking (by simpa using lawful) hp hk

/-- Settles O33, by the cases of one step. -/
theorem stepKeepsTheSettleLaw : Obligations.StepKeepsTheSettleLaw := by
  intro c s t h ht
  have hd : TimeInv c (dropTurn s) := ⟨h.times_sorted, h.times_past, h.law, h.in_settle, h.before_data⟩
  exact hd.of_stepTo (stepWith_cases ht)

/-! ### The wait's length -/

/-- `n` hold turns in SETTLE are `n` cycles of the wait, and nothing else happens. -/
theorem run_holds_in_settle (n : Nat) {s : State} (ts : List Turn) (hp : s.phase = .settle)
    (h : s.sched = List.replicate n .hold ++ ts) :
    run n s = .next { s with now := s.now + n, tmr := s.tmr + n, sched := ts } := by
  induction n generalizing s with
  | zero =>
    simp only [List.replicate_zero, List.nil_append] at h
    rw [run_zero, ← h]
    rfl
  | succ n ih =>
    have first : step s = .next (passCycle (dropTurn s)) := by
      simp [step, stepWith, nextTurn, h, List.replicate_succ, takeTurn]
    rw [run_step first, ih (s := passCycle (dropTurn s)) hp (by simp [h, List.replicate_succ])]
    simp [hp, Nat.add_assoc, Nat.add_comm 1 n]

/-- Settles O23, by induction on the number of hold turns. -/
theorem settleMayLastAnyLonger : Obligations.SettleMayLastAnyLonger := fun n _ hp hs =>
  run_holds_in_settle n [] hp (hs.trans (List.append_nil _).symm)

end Sys2Proof.Safety
end

section
/-!
What the transport's operations do to its profile, its queue and its line (R40, R103, R104, R106, R188), one equation
per value of CFG_APPLY and answer; and what a configure does to the line, read off them.
-/
namespace Sys2Proof.Machine

/-! ### A configure arrives and is answered -/

theorem Transport.configureArrives_of_drain {c : Params} (hc : c.cfgApply = .drain) (now : Nat) (t : Transport) :
    t.configureArrives c now = t := by
  simp [configureArrives, hc]

theorem Transport.configureArrives_of_immediate {c : Params} (hc : c.cfgApply = .immediate) (now : Nat)
    (t : Transport) : t.configureArrives c now =
      { t with began := t.cutCharacter c now, txq := t.mapUnsent QueuedByte.undetermined } := by
  simp [configureArrives, hc]

theorem Transport.configureArrives_of_unspecified {c : Params} (hc : c.cfgApply = .unspecified) (now : Nat)
    (t : Transport) : t.configureArrives c now = { t with txq := t.txq.map QueuedByte.undetermined } := by
  simp [configureArrives, hc]

theorem Transport.configureAnswered_ok_of_immediate {c : Params} (hc : c.cfgApply = .immediate) (p : SerialProfile)
    (t : Transport) : t.configureAnswered c p .ok = { t with lineProf := some p, txq := t.applyToQueue p } := by
  simp [configureAnswered, hc]

theorem Transport.configureAnswered_ok {c : Params} (hc : c.cfgApply ≠ .immediate) (p : SerialProfile)
    (t : Transport) : t.configureAnswered c p .ok = { t with lineProf := some p } := by
  cases h : c.cfgApply with
  | immediate => exact absurd h hc
  | drain | unspecified => simp [configureAnswered, h]

theorem Transport.configureAnswered_err (c : Params) (p : SerialProfile) (e : TransportError) (t : Transport) :
    t.configureAnswered c p (.err e) = { t with lineProf := none } := by
  simp [configureAnswered]

/-- An applied profile is the line's from then on (R103). -/
theorem Transport.configureAnswered_ok_lineProf (c : Params) (p : SerialProfile) (t : Transport) :
    (t.configureAnswered c p .ok).lineProf = some p := by
  by_cases hc : c.cfgApply = .immediate
  · rw [configureAnswered_ok_of_immediate hc]
  · rw [configureAnswered_ok hc]

/-- Of the queue an answer changes something only where an applied profile holds at once (R188). -/
theorem Transport.configureAnswered_txq {c : Params} (hc : c.cfgApply ≠ .immediate) (p : SerialProfile) (a : Answer)
    (t : Transport) : (t.configureAnswered c p a).txq = t.txq := by
  cases a with
  | ok => rw [configureAnswered_ok hc]
  | err e => rw [configureAnswered_err]

/-! ### The character in progress and the bytes behind it -/

theorem Transport.applyToQueue_of_none {t : Transport} (hb : t.began = none) (p : SerialProfile) :
    t.applyToQueue p = t.txq.map (fun x => { x with prof := some p }) := by
  simp [applyToQueue, mapUnsent, hb]

theorem Transport.applyToQueue_of_began {t : Transport} {b : Started} {q : QueuedByte} {qs : List QueuedByte}
    (hb : t.began = some b) (hq : t.txq = q :: qs) (p : SerialProfile) :
    t.applyToQueue p = q :: qs.map (fun x => { x with prof := some p }) := by
  simp [applyToQueue, mapUnsent, hb, hq]

theorem Transport.cutCharacter_of_began {t : Transport} {b : Started} {q : QueuedByte} {qs : List QueuedByte}
    (hb : t.began = some b) (hq : t.txq = q :: qs) (c : Params) (now : Nat) :
    t.cutCharacter c now = if charMayEnd c q.prof b now then some b else some { b with cutAt := some now } := by
  simp [cutCharacter, hb, hq]

/-- A configure cuts a character and neither begins nor ends one. -/
theorem Transport.cutCharacter_isSome (t : Transport) (c : Params) (now : Nat) :
    (t.cutCharacter c now).isSome = t.began.isSome := by
  unfold cutCharacter
  split
  next b q qs hb hq => split <;> simp [hb]
  next => rfl

/-- With `immediate`, an answered configure leaves the queue as if it had applied on arrival: the byte in progress is
passed over both times, and a profile set over an undetermined one is the profile. -/
theorem Transport.configure_immediate_txq {c : Params} (hc : c.cfgApply = .immediate) (p : SerialProfile) (now : Nat)
    (t : Transport) : ((t.configureArrives c now).configureAnswered c p .ok).txq = t.applyToQueue p := by
  have began := t.cutCharacter_isSome c now
  rw [configureArrives_of_immediate hc, configureAnswered_ok_of_immediate hc]
  cases hb : t.began with
  | none =>
    simp only [hb, Option.isSome_none, Option.isSome_eq_false_iff, Option.isNone_iff_eq_none] at began
    rw [applyToQueue_of_none hb, applyToQueue_of_none began]
    simp [mapUnsent, hb, QueuedByte.undetermined]
  | some b =>
    obtain ⟨b', hb'⟩ := Option.isSome_iff_exists.mp (began.trans (by rw [hb]; rfl))
    cases hq : t.txq with
    | nil => simp [applyToQueue, mapUnsent, hb, hb', hq]
    | cons q qs =>
      have queue : t.mapUnsent QueuedByte.undetermined = q :: qs.map QueuedByte.undetermined := by
        simp [mapUnsent, hb, hq]
      rw [applyToQueue_of_began hb hq, applyToQueue_of_began hb' queue]
      simp [QueuedByte.undetermined]

/-- Settles O60, by the equations of arrival and answer. -/
theorem configureSetsTheLine : Obligations.ConfigureSetsTheLine := by
  intro c p a now t
  refine ⟨Transport.configureAnswered_ok_lineProf .., fun e => ?_, fun hc => ?_, fun hc q hq => ?_,
    fun hc hb q hq => ?_, fun b q qs hc hb ht => ⟨?_, fun hend => ?_, fun hend => ?_⟩⟩
  · rw [Transport.configureAnswered_err]
  · rw [Transport.configureAnswered_txq (by simp [hc]), Transport.configureArrives_of_drain hc]
  · rw [Transport.configureAnswered_txq (by simp [hc]), Transport.configureArrives_of_unspecified hc] at hq
    obtain ⟨_, -, rfl⟩ := List.mem_map.mp hq
    rfl
  · rw [Transport.configure_immediate_txq hc, Transport.applyToQueue_of_none hb] at hq
    obtain ⟨_, -, rfl⟩ := List.mem_map.mp hq
    rfl
  · rw [Transport.configure_immediate_txq hc, Transport.applyToQueue_of_began hb ht]
  · rw [Transport.configureArrives_of_immediate hc, Transport.cutCharacter_of_began hb ht, hend]
    rfl
  · rw [Transport.configureArrives_of_immediate hc, Transport.cutCharacter_of_began hb ht, hend]
    rfl

end Sys2Proof.Machine
end

section
/-!
A write goes out under the profile of its own command's configure (R109, R40), and with a transport that drains every
byte queued or sent has that profile (R188, TA4). Of the transport a step changes what its one operation changes:
`Drains` says once what that leaves in the queue and on the line, for every operation, and the rest follows from where
bytes are pending.
-/
namespace Sys2Proof.Safety

open Sys2Proof.Machine

/-! ### The line's profile in a write phase -/

@[simp] theorem receive_lineProf (c : Params) (now : Nat) (r : Request) (t : Transport) :
    (t.receive c now r).lineProf = t.lineProf := by
  cases r with
  | wr bs => rfl
  | cfg p => cases h : c.cfgApply <;> simp [Transport.receive, Transport.configureArrives, h]

@[simp] theorem takeByte_lineProf (t : Transport) : t.takeByte.lineProf = t.lineProf := by
  unfold Transport.takeByte; split <;> rfl

@[simp] theorem startChar_lineProf (now : Nat) (t : Transport) : (t.startChar now).lineProf = t.lineProf := by
  unfold Transport.startChar; split <;> rfl

@[simp] theorem finishChar_lineProf (c : Params) (now : Nat) (t : Transport) :
    (t.finishChar c now).lineProf = t.lineProf := by
  unfold Transport.finishChar
  split
  next => split <;> rfl
  next => rfl

/-- Out of the write phases nothing is claimed. -/
theorem profileInv_of_isStartPhase {t : State} (h : IsStartPhase t.phase) : ProfileInv t :=
  ⟨fun k => absurd k h.ne_brkWr, fun k => absurd k h.ne_dataWr⟩

theorem ProfileInv.of_same {s t : State} (h : ProfileInv s) (hp : t.phase = s.phase)
    (hl : t.line.lineProf = s.line.lineProf) : ProfileInv t :=
  ⟨fun k => hl.trans (h.break_profile (hp ▸ k)), fun k => hl.trans (h.data_profile (hp ▸ k))⟩

/-- A write phase is entered from the configure phase before it, on the `ok` that applies its profile (R29, R103). -/
theorem profileInv_of_advance {c : Params} {s t : State} (ha : advance (takeAnswer c .ok s) = .next t) :
    ProfileInv t := by
  have applied (p : SerialProfile) := s.line.configureAnswered_ok_lineProf c p
  rcases advance_cases ha with ⟨hp, rfl⟩ | ⟨-, -, rfl⟩ | ⟨-, -, -, rfl⟩ | ⟨hp, rfl⟩ | ⟨-, rfl⟩
  · rw [takeAnswer_phase] at hp
    refine ⟨fun _ => ?_, nofun⟩
    rw [gotoPhase_line, takeAnswer_line, hp]
    exact applied breakProfile
  · exact profileInv_of_isStartPhase isStartPhase_idle
  · exact ⟨nofun, nofun⟩
  · rw [takeAnswer_phase] at hp
    refine ⟨nofun, fun _ => ?_⟩
    rw [gotoPhase_line, takeAnswer_line, hp]
    exact applied dataProfile
  · exact profileInv_of_isStartPhase isStartPhase_idle

/-- Everything a step can do keeps the line's profile in the write phases. -/
theorem ProfileInv.of_stepTo {c : Params} {s t : State} (h : ProfileInv s) (ht : StepTo c s t) : ProfileInv t := by
  cases ht with
  | passes | issues | takes | starts | finishes => exact h.of_same rfl (by simp)
  | accepts i | awaits _ _ _ _ i => exact profileInv_of_isStartPhase (isStartPhase_firstPhase i)
  | refuses d _ hs => exact profileInv_of_isStartPhase (.inl (offered_phase hs))
  | awaitsIllegal d _ hs => exact profileInv_of_isStartPhase (isStartPhase_awaitsIllegal hs d)
  | advances _ _ _ _ _ ha => exact profileInv_of_advance ha
  | aborts | resets => exact profileInv_of_isStartPhase isStartPhase_idle
  | settles => exact profileInv_of_isStartPhase (.inr (.inr rfl))
  | offers =>
    rcases offerDescriptor_awaits s with ho | ⟨-, hp⟩
    · rw [ho]; exact h
    · exact profileInv_of_isStartPhase hp

theorem ProfileInv.of_dropTurn {s : State} (h : ProfileInv s) : ProfileInv (dropTurn s) := h.of_same rfl rfl

/-- Settles O34, by the cases of one step. -/
theorem stepKeepsTheWriteProfile : Obligations.StepKeepsTheWriteProfile := fun _ _ h ht =>
  h.of_dropTurn.of_stepTo (step_cases ht)

/-! ### What a draining transport's operations leave in the queue and on the line -/

/-- What any operation of a transport that drains leaves, `u`, of what it was before, `t`: what is queued was queued,
or was pending and has the profile in force; what is sent was sent, or is the oldest queued byte; and no character in
progress is newly cut. -/
structure Drains (t u : Transport) : Prop where
  queued : ∀ q ∈ u.txq, q ∈ t.txq ∨ (t.pend ≠ [] ∧ q.prof = t.lineProf)
  sent : ∀ x ∈ u.wire, x ∈ t.wire ∨
    ∃ q b now, t.txq.head? = some q ∧ t.began = some b ∧ x = q.sent b now
  began : ∀ b, u.began = some b → t.began = some b ∨ b.cutAt = none

theorem drains_of_same {t u : Transport} (hq : u.txq = t.txq) (hw : u.wire = t.wire) (hb : u.began = t.began) :
    Drains t u :=
  ⟨fun _ h => .inl (hq ▸ h), fun _ h => .inl (hw ▸ h), fun _ h => .inl (hb ▸ h)⟩

theorem drains_refl (t : Transport) : Drains t t := drains_of_same rfl rfl rfl

theorem drains_receive {c : Params} (hc : c.cfgApply = .drain) (now : Nat) (r : Request) (t : Transport) :
    Drains t (t.receive c now r) := by
  cases r with
  | cfg p => rw [Transport.receive, t.configureArrives_of_drain hc]; exact drains_refl t
  | wr bs => exact drains_of_same rfl rfl rfl

theorem drains_configureAnswered {c : Params} (hc : c.cfgApply = .drain) (p : SerialProfile) (a : Answer)
    (t : Transport) : Drains t (t.configureAnswered c p a) := by
  cases a with
  | ok => rw [t.configureAnswered_ok (by simp [hc])]; exact drains_of_same rfl rfl rfl
  | err e => rw [t.configureAnswered_err]; exact drains_of_same rfl rfl rfl

theorem drains_writeAnswered (a : Answer) (t : Transport) : Drains t (t.writeAnswered a) := by
  cases a with
  | err e => exact drains_of_same rfl rfl rfl
  | ok =>
    refine ⟨fun q hq => ?_, fun _ => .inl, fun _ => .inl⟩
    rcases List.mem_append.mp hq with hq | hq
    · exact .inl hq
    · obtain ⟨b, hb, rfl⟩ := List.mem_map.mp hq
      exact .inr ⟨List.ne_nil_of_mem hb, rfl⟩

theorem drains_answered {c : Params} (hc : c.cfgApply = .drain) (p : Phase) (a : Answer) (t : Transport) :
    Drains t (t.answered c p a) := by
  unfold Transport.answered
  split
  next prof _ => exact drains_configureAnswered hc prof a t
  next => exact drains_writeAnswered a t

theorem drains_takeByte (t : Transport) : Drains t t.takeByte := by
  unfold Transport.takeByte
  split
  next => exact drains_refl t
  next b bs hp =>
    refine ⟨fun q hq => ?_, fun _ => .inl, fun _ => .inl⟩
    rcases List.mem_append.mp hq with hq | hq
    · exact .inl hq
    · rw [List.mem_singleton.mp hq]
      exact .inr ⟨by simp [hp], rfl⟩

theorem drains_startChar (now : Nat) (t : Transport) : Drains t (t.startChar now) := by
  unfold Transport.startChar
  split
  next => exact ⟨fun _ => .inl, fun _ => .inl, fun b hb => by cases hb; exact .inr rfl⟩
  next => exact drains_refl t

theorem drains_finishChar (c : Params) (now : Nat) (t : Transport) : Drains t (t.finishChar c now) := by
  unfold Transport.finishChar
  split
  next b q qs hb hq =>
    split
    · refine ⟨fun _ h => .inl (hq ▸ List.mem_cons_of_mem q h), fun x hx => ?_, nofun⟩
      rcases List.mem_append.mp hx with hx | hx
      · exact .inl hx
      · exact .inr ⟨q, b, now, by simp [hq], hb, List.mem_singleton.mp hx⟩
    · exact drains_refl t
  next => exact drains_refl t

/-- Everything a step can do to a draining transport. -/
theorem drains_of_stepTo {c : Params} (hc : c.cfgApply = .drain) {s t : State} (ht : StepTo c s t) :
    Drains s.line t.line := by
  cases ht with
  | passes | accepts | refuses | awaits | awaitsIllegal | settles | offers =>
    simpa using drains_refl s.line
  | issues r => exact drains_receive hc s.now r s.line
  | advances _ _ _ _ _ ha =>
    rw [advance_line ha]
    exact drains_answered hc s.phase .ok s.line
  | aborts e => exact drains_answered hc s.phase (.err e) s.line
  | resets => exact drains_of_same rfl rfl rfl
  | takes => exact drains_takeByte s.line
  | starts => exact drains_startChar s.now s.line
  | finishes => exact drains_finishChar c s.now s.line

/-! ### Where bytes are pending -/

/-- A write is outstanding (R86). -/
def WriteOut (s : State) : Prop := s.waitRsp = true ∧ (s.phase = .brkWr ∨ s.phase = .dataWr)

theorem WriteOut.not_start {s : State} (h : WriteOut s) : ¬ IsStartPhase s.phase := fun k =>
  h.2.elim k.ne_brkWr k.ne_dataWr

/-- Bytes are pending only while a write is outstanding: the clause `DeterminedInv.pending_in_a_write`. -/
def PendingInv (s : State) : Prop := s.line.pend ≠ [] → WriteOut s

theorem PendingInv.nil_of_start {s : State} (h : PendingInv s) (hp : IsStartPhase s.phase) : s.line.pend = [] := by
  by_contra k
  exact (h k).not_start hp

theorem pendingInv_of_nil {t : State} (h : t.line.pend = []) : PendingInv t := fun k => absurd h k

theorem PendingInv.of_same {s t : State} (h : PendingInv s) (hw : t.waitRsp = s.waitRsp) (hp : t.phase = s.phase)
    (hn : t.line.pend ≠ [] → s.line.pend ≠ []) : PendingInv t := by
  intro k
  rw [WriteOut, hw, hp]
  exact h (hn k)

@[simp] theorem startChar_pend (now : Nat) (t : Transport) : (t.startChar now).pend = t.pend := by
  unfold Transport.startChar; split <;> rfl

@[simp] theorem finishChar_pend (c : Params) (now : Nat) (t : Transport) : (t.finishChar c now).pend = t.pend := by
  unfold Transport.finishChar
  split
  next => split <;> rfl
  next => rfl

theorem takeByte_pend (t : Transport) : t.takeByte.pend = t.pend.tail := by
  unfold Transport.takeByte
  split
  next hp => simp [hp]
  next hp => simp [hp]

theorem configureArrives_pend (c : Params) (now : Nat) (t : Transport) : (t.configureArrives c now).pend = t.pend := by
  unfold Transport.configureArrives; split <;> rfl

theorem configureAnswered_pend (c : Params) (p : SerialProfile) (a : Answer) (t : Transport) :
    (t.configureAnswered c p a).pend = t.pend := by
  unfold Transport.configureAnswered; split <;> rfl

theorem writeAnswered_pend (a : Answer) (t : Transport) : (t.writeAnswered a).pend = [] := by
  cases a <;> rfl

/-- Writes are asked for in the write phases only (R27). -/
theorem phase_of_request_wr {s : State} {bs : List Byte} (h : requestOf s = .ok (.wr bs)) :
    s.phase = .brkWr ∨ s.phase = .dataWr := by
  cases hp : s.phase <;> simp [requestOf, hp] at h ⊢

theorem isStartPhase_of_switchProfile {p : Phase} {prof : SerialProfile} (h : switchProfile p = some prof) :
    IsStartPhase p := by
  cases p <;> simp [switchProfile, IsStartPhase] at h ⊢

/-- A request is issued while none is outstanding, so the bytes pending after it are those of a write. -/
theorem PendingInv.of_sendRequest {c : Params} {s : State} (h : PendingInv s) {r : Request} (hr : requestOf s = .ok r)
    (hw : s.waitRsp = false) : PendingInv (sendRequest c r s) := by
  cases r with
  | wr bs => exact fun _ => ⟨rfl, phase_of_request_wr hr⟩
  | cfg p =>
    refine pendingInv_of_nil ((configureArrives_pend c s.now s.line).trans ?_)
    by_contra k
    have hout := (h k).1
    rw [hw] at hout
    cases hout

/-- An answer leaves nothing pending: that of a write by its meaning, that of a configure because nothing was (R86).
-/
theorem PendingInv.answered_pend {s : State} (h : PendingInv s) (c : Params) (a : Answer) :
    (s.line.answered c s.phase a).pend = [] := by
  unfold Transport.answered
  split
  next prof hp =>
    rw [configureAnswered_pend]
    exact h.nil_of_start (isStartPhase_of_switchProfile hp)
  next => exact writeAnswered_pend a s.line

theorem PendingInv.of_stepTo {c : Params} {s t : State} (h : PendingInv s) (ht : StepTo c s t) : PendingInv t := by
  cases ht with
  | passes | starts | finishes => exact h.of_same rfl rfl (by simp)
  | takes => exact h.of_same rfl rfl fun k e => k (by rw [takeByte_pend, e]; rfl)
  | accepts _ _ hs | refuses _ _ hs | awaits _ _ hs | awaitsIllegal _ _ hs =>
    exact pendingInv_of_nil (by simpa using h.nil_of_start (isStartPhase_of_hostTurn hs))
  | issues r hr hw => exact h.of_sendRequest hr hw
  | advances _ _ _ _ _ ha =>
    exact pendingInv_of_nil ((congrArg Transport.pend (advance_line ha)).trans (h.answered_pend c .ok))
  | aborts e => exact pendingInv_of_nil (h.answered_pend c (.err e))
  | settles hp => exact pendingInv_of_nil (by_contra fun k => by have out := (h k).2; simp [hp] at out)
  | resets => exact pendingInv_of_nil rfl
  | offers =>
    rcases offerDescriptor_cases s with ho | ⟨d, ds, hr, -, -, ho⟩
    · rw [ho]; exact h
    · exact pendingInv_of_nil (by simpa using h.nil_of_start (.inl ((acceptReady_iff s).mp hr).1))

/-! ### The step of a draining transport -/

/-- Bytes are pending at their own command's profile (R109). -/
theorem DeterminedInv.profile_of_pending {s : State} (h : DeterminedInv s) (hp : s.line.pend ≠ []) :
    (s.phase = .brkWr ∧ s.line.lineProf = some breakProfile) ∨
      (s.phase = .dataWr ∧ s.line.lineProf = some dataProfile) :=
  (h.pending_in_a_write hp).2.imp (fun k => ⟨k, h.profiles.break_profile k⟩) (fun k => ⟨k, h.profiles.data_profile k⟩)

/-- A byte newly queued has its own command's profile. -/
theorem DeterminedInv.queued_of_drains {s : State} {u : Transport} (h : DeterminedInv s) (hu : Drains s.line u)
    {q : QueuedByte} (hq : q ∈ u.txq) :
    q ∈ s.line.txq ∨ (s.phase = .brkWr ∧ q.prof = some breakProfile) ∨
      (s.phase = .dataWr ∧ q.prof = some dataProfile) := by
  refine (hu.queued q hq).imp_right fun ⟨hp, hl⟩ => ?_
  rw [hl]
  exact h.profile_of_pending hp

/-- Everything a step can do with a draining transport keeps the profiles determined. -/
theorem DeterminedInv.of_stepTo {c : Params} (hc : c.cfgApply = .drain) {s t : State} (h : DeterminedInv s)
    (ht : StepTo c s t) : DeterminedInv t where
  profiles := h.profiles.of_stepTo ht
  pending_in_a_write := PendingInv.of_stepTo h.pending_in_a_write ht
  queued q hq := by
    rcases h.queued_of_drains (drains_of_stepTo hc ht) hq with hq | ⟨-, hq⟩ | ⟨-, hq⟩
    · exact h.queued q hq
    · exact .inl hq
    · exact .inr hq
  sent x hx := by
    rcases (drains_of_stepTo hc ht).sent x hx with hx | ⟨q, b, now, hq, hb, rfl⟩
    · exact h.sent x hx
    · exact ⟨h.queued q (List.mem_of_mem_head? hq), h.uncut b hb⟩
  uncut b hb := ((drains_of_stepTo hc ht).began b hb).elim (h.uncut b) id

/-- Settles O35: a step of a draining transport is one of the operations of `Drains`. -/
theorem stepKeepsProfilesDetermined : Obligations.StepKeepsProfilesDetermined := by
  intro c s t hc h ht
  have hd : DeterminedInv (dropTurn s) := ⟨h.profiles.of_dropTurn, h.pending_in_a_write, h.queued, h.sent, h.uncut⟩
  have step := stepWith_cases ht
  have line := drains_of_stepTo hc step
  refine ⟨hd.of_stepTo hc step, fun q hq => hd.queued_of_drains line hq, fun x hx => ?_⟩
  refine (line.sent x hx).imp_right ?_
  rintro ⟨q, b, now, hq, -, rfl⟩
  exact ⟨q, hq, rfl, rfl⟩

end Sys2Proof.Safety
end

section
/-!
The meanings of SEND_BREAK and SEND_RAW_DATA at Accept (R120, R124, R26), and what the three commands that build no
frame leave as it was (R120, R124, R140).
-/
namespace Sys2Proof.Machine

open Sys2Proof.Safety

/-- The descriptor of a command without a start code: its length above its opcode (R90). -/
theorem encode_of_startCode_zero {i : Instr} (h : i.startCode = 0) :
    encode i = BitVec.ofNat 32 (i.payloadLen * 65536 + i.opcode.toNat) := by
  simp [encode, h]

/-- Settles O7: SEND_BREAK announces no payload, so its Accept needs none. -/
theorem sendBreakIsAccepted : Obligations.SendBreakIsAccepted :=
  fun s hr => exec_accepted .sendBreak s hr (Nat.zero_le _)

/-- Settles O8: the Accept of SEND_RAW_DATA, with its descriptor written out. -/
theorem sendRawDataIsAccepted : Obligations.SendRawDataIsAccepted := by
  intro n s _ hr hn
  have descriptor : encode (.sendRawData n) = BitVec.ofNat 32 (n * 65536 + 2) := encode_of_startCode_zero rfl
  rw [← descriptor]
  exact exec_accepted (.sendRawData n) s hr hn

/-- The frame buffer, its length, the transport's side and the schedule are as they were; in IDLE the timer too. -/
structure KeepsFrame (s t : State) : Prop where
  fb : t.fb = s.fb
  flen : t.flen = s.flen
  trsp : t.trsp = s.trsp
  sched : t.sched = s.sched
  line : t.line = s.line
  tmr : s.phase = .idle → t.tmr = s.tmr

theorem exec_keepsFrame {i : Instr} (hi : sendsFrame i.opcode = false) {s t : State} (h : exec i s = .next t) :
    KeepsFrame s t := by
  rcases exec_cases h with ⟨-, -, rfl⟩ | ⟨-, -, rfl⟩ | ⟨-, rfl⟩
  · rw [loadOf_of_not_sendsFrame hi]
    exact ⟨rfl, rfl, rfl, rfl, rfl, fun _ => rfl⟩
  · exact ⟨rfl, rfl, rfl, rfl, rfl, fun hp => by simp [hp]⟩
  · exact ⟨rfl, rfl, rfl, rfl, rfl, fun hp => by simp [hp]⟩

/-- Settles O11: the frame of the three, and the two cases in which no Accept is complete. -/
theorem rawCommandFrame : Obligations.RawCommandFrame := by
  intro i n s t hi h
  obtain ⟨frameless, len, first⟩ : sendsFrame i.opcode = false ∧ i.payloadLen = n ∧
      firstPhase i = if i = .sendRawData n then .dataCfg else .brkCfg := by
    rcases hi with ⟨rfl, rfl⟩ | rfl | rfl
    · exact ⟨rfl, rfl, rfl⟩
    · exact ⟨rfl, rfl, (if_pos rfl).symm⟩
    · exact ⟨rfl, rfl, rfl⟩
  obtain ⟨hfb, hflen, htrsp, hsched, hline, htmr⟩ := exec_keepsFrame frameless h
  refine ⟨fun a => by rw [hfb], hflen, htrsp, hsched, hline, htmr, fun hr hn => ?_, fun hr => ?_⟩
  · rw [exec_awaits i s hr (len ▸ hn), awaitPayload_of_idle ((acceptReady_iff s).mp hr).1, first] at h
    cases h
    rfl
  · rw [exec_waits i s hr] at h
    cases h
    rfl

end Sys2Proof.Machine
end

section
/-!
An undelayed run of a command, from its Accept to its response, has the events of its big-step pseudocode (R169). The
pseudocode is written in parts, each with what follows it as an argument, and the proof has one rule for each part: if
what follows a part runs to the end of the command with its events, so does the part in the phases it stands for.
-/
namespace Sys2Proof.Safety

open Sys2Proof.Machine

/-! ### Answers -/

/-- Whether an event is the transport's answer to a request. -/
def isAnswer : Event → Bool
  | .cfgRsp _ => true
  | .wrRsp _ => true
  | _ => false

/-- How many of the transport's answers have been taken in the course of these events. -/
def answersTaken (es : List Event) : Nat := es.countP isAnswer

@[simp] theorem answersTaken_nil : answersTaken [] = 0 := rfl

@[simp] theorem answersTaken_cons (e : Event) (es : List Event) :
    answersTaken (e :: es) = answersTaken es + if isAnswer e then 1 else 0 := List.countP_cons

@[simp] theorem answersTaken_append (es fs : List Event) :
    answersTaken (es ++ fs) = answersTaken es + answersTaken fs := List.countP_append

@[simp] theorem isAnswer_resp (r : Response) : isAnswer (.resp r) = false := rfl
@[simp] theorem isAnswer_settleStart : isAnswer .settleStart = false := rfl
@[simp] theorem isAnswer_settleEnd : isAnswer .settleEnd = false := rfl
@[simp] theorem isAnswer_request (r : Request) : isAnswer r.event = false := by cases r <;> rfl

@[simp] theorem isAnswer_answerEvent (p : Phase) (a : Answer) : isAnswer (answerEvent p a) = true := by cases p <;> rfl

/-- The answers suffice for `n` transactions, of which the first to fail is the last (R206). -/
def Suffice : Nat → List Answer → Prop
  | 0, _ => True
  | _ + 1, [] => False
  | n + 1, .ok :: rest => Suffice n rest
  | _ + 1, .err _ :: _ => True

theorem suffice_of_length_le {n : Nat} {answers : List Answer} (h : n ≤ answers.length) : Suffice n answers := by
  induction n generalizing answers with
  | zero => trivial
  | succ n ih =>
    cases answers with
    | nil => cases h
    | cons a rest =>
      cases a with
      | ok => exact ih (Nat.le_of_succ_le_succ h)
      | err e => trivial

/-! ### Runs to the end of a command -/

/-- The next state after `s` is in the outcome `o`, and from there the command runs to its end. Its events from `s` on are
`es`, and the answers among these are what it has taken off TRSP. -/
def EndsWith (s : State) (es : List Event) (o : StepResult) : Prop :=
  ∃ t : State, o = .next t ∧ ∃ (k : Nat) (u : State), run k t = .next u ∧ u.phase = .idle ∧ u.waitRsp = false ∧
    u.trsp = s.trsp.drop (answersTaken es) ∧ u.events = s.events ++ es

theorem endsWith_nothing {s : State} (hp : s.phase = .idle) (hw : s.waitRsp = false) : EndsWith s [] (.next s) :=
  ⟨s, rfl, 0, s, rfl, hp, hw, rfl, (List.append_nil _).symm⟩

theorem EndsWith.of_step {s : State} {es : List Event} (h : EndsWith s es (step s)) : EndsWith s es (.next s) := by
  obtain ⟨t, ht, k, u, hu, hend⟩ := h
  exact ⟨s, rfl, k + 1, u, (run_step ht).trans hu, hend⟩

theorem EndsWith.run {s : State} {es : List Event} (h : EndsWith s es (.next s)) :
    ∃ (k : Nat) (u : State), run k s = .next u ∧ u.phase = .idle ∧ u.waitRsp = false ∧
      u.trsp = s.trsp.drop (answersTaken es) ∧ u.events = s.events ++ es := by
  obtain ⟨t, ht, hrun⟩ := h
  cases ht
  exact hrun

/-- Events that have come before. -/
theorem EndsWith.after {s m : State} {es fs : List Event} {o : StepResult} (h : EndsWith m fs o)
    (he : m.events = s.events ++ es) (hr : m.trsp = s.trsp.drop (answersTaken es)) : EndsWith s (es ++ fs) o := by
  obtain ⟨t, ht, k, u, hu, hp, hw, htrsp, hev⟩ := h
  refine ⟨t, ht, k, u, hu, hp, hw, ?_, ?_⟩
  · rw [htrsp, hr, List.drop_drop, answersTaken_append]
  · rw [hev, he, List.append_assoc]

/-- Command `i` with its payload is in progress, between two transactions, and no turn is scheduled. -/
structure Performs (i : Instr) (payload : List Byte) (s : State) : Prop where
  sched : s.sched = []
  waitRsp : s.waitRsp = false
  taking : s.taking = none
  op : s.op = i.opcode
  data : transmitData s = dataOf i payload

/-- In phase `p` of command `i`, `next` leads to the end of the command, and its events are what `f` makes of the
transport's answers, if these suffice for `n` transactions. -/
def PartRuns (i : Instr) (payload : List Byte) (p : Phase) (n : Nat) (f : List Answer → List Event)
    (next : State → StepResult) : Prop :=
  ∀ s, Performs i payload s → s.phase = p → Suffice n s.trsp → EndsWith s (f s.trsp) (next s)

section
variable {i : Instr} {payload : List Byte} {s t : State}

/-- The sequencer's own registers and the environment do not matter. -/
theorem Performs.of_same (h : Performs i payload s)
    (ht : t = { s with phase := t.phase, tmr := t.tmr, trsp := t.trsp, now := t.now, trace := t.trace,
                       line := t.line }) :
    Performs i payload t := by
  rw [ht]
  exact ⟨h.sched, h.waitRsp, h.taking, h.op, h.data⟩

theorem Performs.nextTurn (h : Performs i payload s) : nextTurn s = .go := by
  rw [Machine.nextTurn, h.sched]

theorem Performs.dropTurn (h : Performs i payload s) : dropTurn s = s := by
  rw [Machine.dropTurn, h.sched, List.tail_nil, ← h.sched]

/-- A command whose Accept is complete. -/
theorem performs_accepted (hi : i.wellFormed = true) (hr : s.acceptReady = true) (hs : s.sched = [])
    (hn : i.payloadLen ≤ s.pay.length) :
    Performs i (s.pay.take i.payloadLen) (gotoPhase (firstPhase i) (loadOf i s)) where
  sched := by simp [hs]
  waitRsp := by simp
  taking := by simp [((acceptReady_iff s).mp hr).2]
  op := by simp
  data := transmitData_loadOf hi hn

/-! ### Its steps -/

section
variable (hs : Performs i payload s)
include hs

theorem Performs.step_request {r : Request} (hr : requestOf s = .ok r) :
    step s = .next (sendRequest hardwired r s) := by
  rw [step_issues hs.nextTurn hs.waitRsp (fun _ => hs.taking) hr, hs.dropTurn]

theorem Performs.dropTurn_sendRequest (r : Request) :
    Machine.dropTurn (sendRequest hardwired r s) = sendRequest hardwired r s :=
  congrArg (sendRequest hardwired r) hs.dropTurn

theorem Performs.step_settle (hp : s.phase = .settle) : step s = .next (settleStep hardwired s) := by
  rw [step_go hs.nextTurn, hs.dropTurn, agentMove_settle hardwired hp]

/-- Once its request is answered, the command is between two transactions again. -/
theorem Performs.answered {r : Request} {a : Answer} :
    Performs i payload (takeAnswer hardwired a (sendRequest hardwired r s)) :=
  ⟨hs.sched, rfl, hs.taking, hs.op, hs.data⟩

/-- A request, before the events that follow it. -/
theorem Performs.endsWith_request {r : Request} (hr : requestOf s = .ok r) {es : List Event}
    (h : EndsWith (sendRequest hardwired r s) es (step (sendRequest hardwired r s))) :
    EndsWith s (r.event :: es) (.next s) := by
  refine EndsWith.of_step ?_
  rw [hs.step_request hr]
  exact h.of_step.after (es := [r.event]) (by simp) (by simp)

/-- An answer `ok`, before what advance() leads to (R28). -/
theorem Performs.endsWith_ok {r : Request} {rest : List Answer} (hp : isTransportPhase s.phase = true)
    (ht : s.trsp = .ok :: rest) {es : List Event}
    (h : EndsWith (takeAnswer hardwired .ok (sendRequest hardwired r s)) es
      (advance (takeAnswer hardwired .ok (sendRequest hardwired r s)))) :
    EndsWith (sendRequest hardwired r s) (answerEvent s.phase .ok :: es) (step (sendRequest hardwired r s)) := by
  rw [step_takes_ok (s := sendRequest hardwired r s) hs.nextTurn hp rfl ht, hs.dropTurn_sendRequest r]
  exact h.after (es := [answerEvent s.phase .ok]) (by simp) (by simp)

/-- An answer `err` ends the command (R206). -/
theorem Performs.endsWith_err {r : Request} {e : TransportError} {rest : List Answer}
    (hp : isTransportPhase s.phase = true) (ht : s.trsp = .err e :: rest) :
    EndsWith (sendRequest hardwired r s) [answerEvent s.phase (.err e), .resp (.err e)]
      (step (sendRequest hardwired r s)) := by
  have ended : EndsWith (raiseTransportError e (takeAnswer hardwired (.err e) (sendRequest hardwired r s))) [] _ :=
    endsWith_nothing rfl rfl
  rw [step_takes_err (s := sendRequest hardwired r s) hs.nextTurn hp rfl ht, hs.dropTurn_sendRequest r]
  exact ended.after (es := [answerEvent s.phase (.err e), .resp (.err e)]) (by simp) (by simp)

end

/-! ### One rule for each part of the pseudocode -/

variable {p q : Phase} {n : Nat} {f : List Answer → List Event}

/-- A transaction: the abort on an error, what follows on `ok`. -/
theorem partRuns_transaction {r : Request} (hreq : ∀ s, Performs i payload s → s.phase = p → requestOf s = .ok r)
    (h : PartRuns i payload p n f advance) :
    PartRuns i payload p (n + 1) (transaction r.event (answerEvent p) f) .next := by
  rintro s hs rfl hn
  have hr := hreq s hs rfl
  have transport := isTransportPhase_of_requestOf hr
  have follows := h (takeAnswer hardwired .ok (sendRequest hardwired r s)) hs.answered rfl
  cases htrsp : s.trsp with
  | nil => rw [htrsp] at hn; cases hn
  | cons a rest =>
    cases a with
    | ok =>
      simp only [takeAnswer_trsp, sendRequest_trsp, htrsp, List.tail_cons] at hn follows
      exact hs.endsWith_request hr (hs.endsWith_ok transport htrsp (follows hn))
    | err e => exact hs.endsWith_request hr (hs.endsWith_err transport htrsp)

/-- `Resp(OK)` in a phase whose row of advance() is the end of the command (R29). -/
theorem partRuns_respond (hrow : ∀ s, Performs i payload s → s.phase = p → advance s = .next (respond .ok s)) :
    PartRuns i payload p n respondOk advance := by
  intro s hs hp _
  have responded : EndsWith (respond .ok s) [] (.next (respond .ok s)) := endsWith_nothing rfl hs.waitRsp
  rw [hrow s hs hp]
  exact responded.after (es := [.resp .ok]) (by simp) (by simp)

/-- A configure leads to its write (R29). -/
theorem partRuns_goto (hrow : ∀ s, s.phase = p → advance s = .next (gotoPhase q s))
    (h : PartRuns i payload q n f .next) : PartRuns i payload p n f advance := by
  intro s hs hp hn
  rw [hrow s hp]
  exact (h (gotoPhase q s) (hs.of_same rfl) rfl hn).after (es := []) (by simp) (by simp)

/-- A settle wait that has lasted ends, and the data phase follows (R30). -/
theorem endsWith_settleEnd (h : PartRuns i payload .dataCfg n f .next) (hs : Performs i payload s)
    (hp : s.phase = .settle) (hk : settleCycles hardwired ≤ s.tmr) (hn : Suffice n s.trsp) :
    EndsWith s (.settleEnd :: f s.trsp) (.next s) := by
  have follows := h (endSettle s) ⟨hs.sched, rfl, hs.taking, hs.op, hs.data⟩ rfl hn
  refine EndsWith.of_step ?_
  rw [hs.step_settle hp, settleStep, if_pos hk]
  exact follows.after (es := [.settleEnd]) (by simp) (by simp)

/-- A settle wait that has at most `k` cycles left. -/
theorem endsWith_settling (h : PartRuns i payload .dataCfg n f .next) (k : Nat) (hs : Performs i payload s)
    (hp : s.phase = .settle) (hk : settleCycles hardwired ≤ s.tmr + k) (hn : Suffice n s.trsp) :
    EndsWith s (.settleEnd :: f s.trsp) (.next s) := by
  induction k generalizing s with
  | zero => exact endsWith_settleEnd h hs hp hk hn
  | succ k ih =>
    by_cases hle : settleCycles hardwired ≤ s.tmr
    · exact endsWith_settleEnd h hs hp hle hn
    · have later := ih (s := passCycle s) (hs.of_same rfl) hp (by simp [hp]; omega) hn
      refine EndsWith.of_step ?_
      rw [hs.step_settle hp, settleStep, if_neg hle]
      exact later.after (es := []) (by simp) (by simp)

/-- `Wait(SETTLE_NS)` between the break and the data phase of a packet command (R29, R30). -/
theorem partRuns_settle (hop : isPacketOp i.opcode = true) (h : PartRuns i payload .dataCfg n f .next) :
    PartRuns i payload .brkWr n (settleEvents f) advance := by
  intro s hs hp hn
  have hb : isBreakOp s.op = false := by
    rw [hs.op]; cases i with
    | sendBreak | sendRawData _ => cases hop
    | sendRawPacket _ | sendPacket _ | sendAltPacket _ _ => rfl
  rw [advance_brkWr_packet hp hb (hs.op ▸ hop)]
  have waits := endsWith_settling h (settleCycles hardwired) (s := startSettle s) (hs.of_same rfl) rfl
    (Nat.le_add_left _ _) hn
  exact waits.after (es := [.settleStart]) (by simp) (by simp)

theorem partRuns_break (h : PartRuns i payload .brkWr n f advance) :
    PartRuns i payload .brkCfg (n + 2) (sendBreakEvents f) .next :=
  partRuns_transaction (r := .cfg breakProfile) (fun s _ hp => by simp [requestOf, hp])
    (partRuns_goto (fun _ => advance_brkCfg)
      (partRuns_transaction (r := .wr [breakByte]) (fun s _ hp => by simp [requestOf, hp]) h))

theorem partRuns_rawData {bs : List Byte} (hbs : dataOf i payload = .ok bs) :
    PartRuns i payload .dataCfg 2 (sendRawDataEvents bs respondOk) .next :=
  partRuns_transaction (r := .cfg dataProfile) (fun s _ hp => by simp [requestOf, hp])
    (partRuns_goto (fun _ => advance_dataCfg)
      (partRuns_transaction (r := .wr bs) (fun s hs hp => by simp [requestOf, hp, hs.data, hbs, Except.map])
        (partRuns_respond fun _ _ => advance_dataWr)))

theorem partRuns_rawPacket (hop : isPacketOp i.opcode = true) {bs : List Byte} (hbs : dataOf i payload = .ok bs) :
    PartRuns i payload .brkCfg 4 (sendRawPacketEvents bs) .next :=
  partRuns_break (partRuns_settle hop (partRuns_rawData hbs))

/-- A command runs from its first phase to its end with the events of its pseudocode. -/
theorem partRuns_command (i : Instr) (payload : List Byte) :
    PartRuns i payload (firstPhase i) (transactionCount i) (commandEvents i payload) .next := by
  cases i with
  | sendBreak => exact partRuns_break (partRuns_respond fun s hs hp => advance_brkWr_break hp (by rw [hs.op]; rfl))
  | sendRawData _ => exact partRuns_rawData rfl
  | sendRawPacket _ => exact partRuns_rawPacket rfl rfl
  | sendPacket _ => exact partRuns_rawPacket rfl rfl
  | sendAltPacket _ _ => exact partRuns_rawPacket rfl rfl

end

/-! ### Accepted commands -/

/-- From its Accept on, a command has the events of its pseudocode and takes the answers these show. -/
theorem accepted_endsWith {i : Instr} {s : State} (hi : i.wellFormed = true) (hr : s.acceptReady = true)
    (hs : s.sched = []) (hn : i.payloadLen ≤ s.pay.length) (ha : Suffice (transactionCount i) s.trsp) :
    ∃ t : State, exec i s = .next t ∧ t.trsp = s.trsp ∧
      t.events = s.events ++ [.accept (encode i) (s.pay.take i.payloadLen)] ∧
      EndsWith t (commandEvents i (s.pay.take i.payloadLen) s.trsp) (.next t) := by
  have trsp : (gotoPhase (firstPhase i) (loadOf i s)).trsp = s.trsp := by cases i <;> rfl
  have performs := performs_accepted hi hr hs hn
  have runs := partRuns_command i _ _ performs rfl (trsp ▸ ha)
  exact ⟨_, exec_accepted i s hr hn, trsp, by simp, trsp ▸ runs⟩

/-- Settles O37: the Accept, then the parts of the pseudocode. -/
theorem commandRunsToItsResponse : Obligations.CommandRunsToItsResponse := by
  intro i s hi hr hs hn ha
  obtain ⟨t, ht, -, htev, hend⟩ := accepted_endsWith hi hr hs hn (suffice_of_length_le ha)
  obtain ⟨k, u, hu, hp, hw, -, hev⟩ := hend.run
  exact ⟨t, ht, k, u, hu, hp, hw, by rw [hev, htev, List.append_assoc]; rfl⟩

/-- Settles O40: the pseudocode of the two commands, run on two `ok` answers. -/
theorem successfulBreakAndRawDataTraces : Obligations.SuccessfulBreakAndRawDataTraces := by
  intro s rest hr hs htrsp
  have traces {i : Instr} (hi : i.wellFormed = true) (hn : i.payloadLen ≤ s.pay.length)
      (ha : transactionCount i = 2) : ∃ t, exec i s = .next t ∧ ∃ k u, run k t = .next u ∧ u.phase = .idle ∧
        u.trsp = (Answer.ok :: .ok :: rest).drop (answersTaken (commandEvents i (s.pay.take i.payloadLen) s.trsp)) ∧
        u.events = t.events ++ commandEvents i (s.pay.take i.payloadLen) s.trsp := by
    obtain ⟨t, ht, same, -, hend⟩ := accepted_endsWith hi hr hs hn (suffice_of_length_le (by simp [ha, htrsp]))
    obtain ⟨k, u, hu, hp, -, htaken, hev⟩ := hend.run
    exact ⟨t, ht, k, u, hu, hp, by rw [htaken, same, htrsp], hev⟩
  rw [htrsp] at traces
  refine ⟨traces rfl (Nat.zero_le _) rfl, fun n hn hpay => ?_⟩
  exact traces (decide_eq_true hn) hpay rfl

end Sys2Proof.Safety
end

section
/-!
The packet sequencer: the meaning of SEND_RAW_PACKET at Accept (R140, R26), and its successful run (R141).
-/
namespace Sys2Proof.Safety

open Sys2Proof.Machine

/-- Settles O9: the Accept of SEND_RAW_PACKET, with its descriptor written out. -/
theorem sendRawPacketIsAccepted : Obligations.SendRawPacketIsAccepted := by
  intro n s _ hr hn
  have descriptor : encode (.sendRawPacket n) = BitVec.ofNat 32 (n * 65536 + 3) := encode_of_startCode_zero rfl
  rw [← descriptor]
  exact exec_accepted (.sendRawPacket n) s hr hn

/-- The pseudocode of SEND_RAW_PACKET when its four transactions are answered `ok`: four requests and one wait (R141). -/
theorem sendRawPacketEvents_of_ok (data : List Byte) (rest : List Answer) :
    sendRawPacketEvents data (.ok :: .ok :: .ok :: .ok :: rest) =
      [.cfgReq breakProfile, .cfgRsp .ok, .wrReq [0x00], .wrRsp .ok, .settleStart, .settleEnd,
        .cfgReq dataProfile, .cfgRsp .ok, .wrReq data, .wrRsp .ok, .resp .ok] := rfl

/-- Settles O38: the pseudocode of the command on four `ok` answers, all of which it takes. -/
theorem successfulRawPacketTrace : Obligations.SuccessfulRawPacketTrace := by
  intro n s rest hn hr hs hpay htrsp
  have wellFormed : (Instr.sendRawPacket n).wellFormed = true := decide_eq_true hn
  have answers : Suffice 4 s.trsp := suffice_of_length_le (by simp [htrsp])
  obtain ⟨t, ht, same, -, hend⟩ := accepted_endsWith wellFormed hr hs hpay answers
  simp only [commandEvents, htrsp, sendRawPacketEvents_of_ok] at hend same
  obtain ⟨k, u, hu, hp, -, htaken, hev⟩ := hend.run
  have allTaken : u.trsp = rest := by simpa [same, isAnswer] using htaken
  exact ⟨t, ht, k, u, hu, hp, allTaken, hev⟩

end Sys2Proof.Safety
end

section
/-!
The frame builder: what `build_frame()` leaves in FB (R162), the meanings of the two commands that build a frame at
Accept (R160, R161, R26), what they leave as it was (R167), and their successful run (R163 to R165).
-/
namespace Sys2Proof.Machine

open Sys2Proof.Safety

/-! ### build_frame() -/

/-- `FB[0] <- SC` (R162). -/
theorem buildFrame_read_zero (s : State) : (buildFrame s).fb.read 0 = .ok s.sc := by
  rw [buildFrame_fb, Memory.read_writeRun_outside _ _ _ _ (.inl Nat.zero_lt_one)]
  exact Memory.read_writeRun_inside s.fb 0 0 [s.sc] s.sc rfl (by decide)

/-- `FB[1+i] <- PB[i]` below the channel count (R162). -/
theorem buildFrame_read_channel {s : State} {i : Nat} {b : Byte} (hi : i < channelCount s.len.toNat)
    (hb : s.pb[i]? = some b) : (buildFrame s).fb.read (1 + i) = .ok b := by
  have channel : (s.pb.take (channelCount s.len.toNat))[i]? = some b := by rw [List.getElem?_take_of_lt hi, hb]
  have inside : 1 + i < fbSize := by
    have := channelCount_le s.len.toNat
    simp only [fbSize, maxCh]; omega
  exact Memory.read_writeRun_inside _ 1 i _ b channel inside

/-- Nothing is stored beyond the frame (R167). -/
theorem buildFrame_read_beyond {s : State} {a : Nat} (ha : channelCount s.len.toNat + 1 ≤ a) :
    (buildFrame s).fb.read a = s.fb.read a := by
  have channels : (s.pb.take (channelCount s.len.toNat)).length ≤ channelCount s.len.toNat := List.length_take_le ..
  rw [buildFrame_fb, Memory.read_writeRun_outside _ _ _ _ (.inr (by omega)),
    Memory.read_writeRun_outside _ _ _ _ (.inr (by simp; omega))]

/-- Settles O16: each byte of the frame, the frame as a whole, and nothing but FB and FLEN. -/
theorem buildFrameWritesTheFrame : Obligations.BuildFrameWritesTheFrame := by
  refine fun s h => ⟨buildFrame_flen_toNat s, buildFrame_read_zero s, fun i b => buildFrame_read_channel, ?_, rfl,
    buildFrame_wf s⟩
  rw [buildFrame_readRun s h, frameOf, ← take_channelCount h]
  rfl

/-! ### Accept -/

/-- Settles O10: the registers as the Accept loads them, and the frame built from them. -/
theorem frameCommandsAreAccepted : Obligations.FrameCommandsAreAccepted := by
  intro i n sc s hi hn hr hpay
  obtain ⟨wellFormed, frames, len, startCode, first, opcode⟩ : i.wellFormed = true ∧ sendsFrame i.opcode = true ∧
      i.payloadLen = n ∧ i.startCode = sc ∧ firstPhase i = .brkCfg ∧
      i.opcode = if i = .sendPacket n then 4 else 5 := by
    rcases hi with ⟨rfl, rfl⟩ | rfl
    · exact ⟨decide_eq_true hn, rfl, rfl, rfl, rfl, (if_pos rfl).symm⟩
    · exact ⟨decide_eq_true hn, rfl, rfl, rfl, rfl, rfl⟩
  subst len
  have flen := loadOf_flen_toNat frames s
  have bytes := loadOf_readRun wellFormed frames hpay
  rw [loadOf_len_toNat wellFormed] at flen
  rw [flen, loadOf_sc, loadOf_pb, startCode] at bytes
  refine ⟨_, exec_accepted i s hr hpay, first, loadOf_waitRsp .., (loadOf_op i s).trans opcode,
    (loadOf_sc i s).trans startCode, loadOf_len_toNat wellFormed s, loadOf_pb .., loadOf_pay .., loadOf_cmd .., flen,
    bytes, loadOf_trace .., ?_⟩
  rw [loadOf_of_sendsFrame frames]
  exact ⟨((acceptReady_iff s).mp hr).2, rfl, rfl, rfl, rfl, rfl⟩

/-- What a command that builds a frame leaves as it was: FB beyond its frame, the transport's side and the schedule; in
IDLE the timer too. -/
structure KeepsBeyondFrame (i : Instr) (s t : State) : Prop where
  fb : ∀ a, channelCount (loadCommand i s).len.toNat + 1 ≤ a → t.fb.read a = s.fb.read a
  trsp : t.trsp = s.trsp
  sched : t.sched = s.sched
  line : t.line = s.line
  tmr : s.phase = .idle → t.tmr = s.tmr

theorem exec_keepsBeyondFrame {i : Instr} (hi : sendsFrame i.opcode = true) {s t : State} (h : exec i s = .next t) :
    KeepsBeyondFrame i s t := by
  rcases exec_cases h with ⟨-, -, rfl⟩ | ⟨-, -, rfl⟩ | ⟨-, rfl⟩
  · rw [loadOf_of_sendsFrame hi]
    exact ⟨fun a ha => buildFrame_read_beyond ha, rfl, rfl, rfl, fun _ => rfl⟩
  · exact ⟨fun _ _ => rfl, rfl, rfl, rfl, fun hp => by simp [hp]⟩
  · exact ⟨fun _ _ => rfl, rfl, rfl, rfl, fun hp => by simp [hp]⟩

/-- Settles O12: the frame of the two, and the two cases in which no Accept is complete. -/
theorem frameCommandFrame : Obligations.FrameCommandFrame := by
  intro i n sc s t hi h
  obtain ⟨frames, len, first⟩ : sendsFrame i.opcode = true ∧ i.payloadLen = n ∧ firstPhase i = .brkCfg := by
    rcases hi with rfl | rfl <;> exact ⟨rfl, rfl, rfl⟩
  obtain ⟨hfb, htrsp, hsched, hline, htmr⟩ := exec_keepsBeyondFrame frames h
  refine ⟨fun a ha => hfb a (Nat.le_of_not_lt ha), htrsp, hsched, hline, htmr, fun hr hn => ?_, fun hr => ?_⟩
  · rw [exec_awaits i s hr (len ▸ hn), awaitPayload_of_idle ((acceptReady_iff s).mp hr).1, first] at h
    cases h
    rfl
  · rw [exec_waits i s hr] at h
    cases h
    rfl

/-! ### The successful run -/

/-- Settles O39: the frame in the data write of the packet sequencer's run. -/
theorem successfulFrameCommandTrace : Obligations.SuccessfulFrameCommandTrace := by
  intro i n sc s rest hi hn hr hs hpay htrsp
  obtain ⟨wellFormed, len, events⟩ : i.wellFormed = true ∧ i.payloadLen = n ∧
      commandEvents i = fun channels => sendRawPacketEvents (frameOf sc channels) := by
    rcases hi with ⟨rfl, rfl⟩ | rfl <;> exact ⟨decide_eq_true hn, rfl, rfl⟩
  subst len
  have answers : Suffice (transactionCount i) s.trsp :=
    suffice_of_length_le (by rw [htrsp]; cases i <;> simp [transactionCount])
  obtain ⟨t, ht, same, -, hend⟩ := accepted_endsWith wellFormed hr hs hpay answers
  simp only [events, htrsp, sendRawPacketEvents_of_ok] at hend same
  obtain ⟨k, u, hu, hp, -, htaken, hev⟩ := hend.run
  have allTaken : u.trsp = rest := by simpa [same, isAnswer] using htaken
  have length : (frameOf sc (s.pay.take i.payloadLen)).length = min i.payloadLen 512 + 1 := by
    simp [frameOf, maxCh]; omega
  exact ⟨t, ht, k, u, _, hu, hp, allTaken, rfl, length, hev⟩

end Sys2Proof.Machine
end

section
/-!
SEND_PACKET and SEND_ALT_PACKET with start code 0 are one command to an observer (R160). Their runs are compared step by
step. While the Accept waits for its payload the two machines differ in the waiting descriptor only (`Paired.waiting`).
Once it is complete they differ in what came before, which holds the Accept event of the command, and in the opcode, as
long as that command lasts (`Twins`). No step reads the trace, and none tells opcode 4 from opcode 5.
-/
namespace Sys2Proof.Safety

open Sys2Proof.Machine

/-! ### Related outcomes -/

/-- Where one machine goes on, so does the other, to a state related to it. -/
def NextRelated (R : State → State → Prop) (o o' : StepResult) : Prop :=
  ∀ t, o = .next t → ∃ u, o' = .next u ∧ R t u

theorem nextRelated_next {R : State → State → Prop} {t u : State} (h : R t u) : NextRelated R (.next t) (.next u) := by
  rintro _ ⟨⟩
  exact ⟨u, rfl, h⟩

theorem NextRelated.mono {R Q : State → State → Prop} {o o' : StepResult} (h : NextRelated R o o')
    (hRQ : ∀ t u, R t u → Q t u) : NextRelated Q o o' := fun t ht =>
  let ⟨u, hu, hr⟩ := h t ht
  ⟨u, hu, hRQ t u hr⟩

/-- A relation that every step keeps is kept by every run. -/
theorem run_related {R : State → State → Prop} (hstep : ∀ s u, R s u → NextRelated R (step s) (step u)) (k : Nat)
    {s u : State} (h : R s u) : NextRelated R (run k s) (run k u) := by
  induction k generalizing s u with
  | zero => exact nextRelated_next h
  | succ k ih =>
    intro t ht
    obtain ⟨m, hm, hk⟩ := run_succ_cases ht
    obtain ⟨m', hm', hmm⟩ := hstep s u h m hm
    rw [run_step hm']
    exact ih hmm t hk

/-! ### Machines with another past and another opcode -/

/-- The state with this opcode, and with this past before its trace. -/
def withPast (past : List (Nat × Event)) (op : BitVec 3) (s : State) : State :=
  { s with op := op, trace := past ++ s.trace }

theorem withPast_offered (past : List (Nat × Event)) (op : BitVec 3) (s : State) :
    (withPast past op s).offered = withPast past op s.offered := by
  cases h : s.taking with
  | none => rw [offered_of_none h, offered_of_none (s := withPast past op s) h]
  | some x => rw [offered_of_some h, offered_of_some (s := withPast past op s) h]; rfl

theorem withPast_offerDescriptor (past : List (Nat × Event)) (op : BitVec 3) (s : State) :
    offerDescriptor (withPast past op s) = withPast past op (offerDescriptor s) := by
  have hr : (withPast past op s).acceptReady = s.acceptReady := rfl
  have hc : (withPast past op s).cmd = s.cmd := rfl
  unfold offerDescriptor
  rw [hr, hc]
  split
  · split
    · rfl
    · cases phaseOf _ <;> rfl
  · rfl
  · rfl

section
variable (past : List (Nat × Event)) (op : BitVec 3) (s : State)

theorem withPast_raiseIllegalCommand (d : Descriptor) :
    raiseIllegalCommand d (withPast past op s) = withPast past op (raiseIllegalCommand d s) := by
  simp [raiseIllegalCommand, withPast, emit]

theorem withPast_sendRequest (c : Params) (r : Request) :
    sendRequest c r (withPast past op s) = withPast past op (sendRequest c r s) := by
  simp [sendRequest, withPast, emit]

theorem withPast_takeAnswer (c : Params) (a : Answer) :
    takeAnswer c a (withPast past op s) = withPast past op (takeAnswer c a s) := by
  simp [takeAnswer, withPast, emit]

theorem withPast_respond (r : Response) : respond r (withPast past op s) = withPast past op (respond r s) := by
  simp [respond, gotoPhase, withPast, emit]

theorem withPast_raiseTransportError (e : TransportError) :
    raiseTransportError e (withPast past op s) = withPast past op (raiseTransportError e s) :=
  withPast_respond past op { s with waitRsp := false } (.err e)

theorem withPast_startSettle : startSettle (withPast past op s) = withPast past op (startSettle s) := by
  simp [startSettle, withPast, emit]

theorem withPast_endSettle : endSettle (withPast past op s) = withPast past op (endSettle s) := by
  simp [endSettle, withPast, emit]

theorem withPast_resetPulse : resetPulse (withPast past op s) = withPast past op (resetPulse s) :=
  congrArg (fun trace => { resetPulse s with op := op, trace := trace }) (List.append_assoc past s.trace _)

end

/-- A command overwrites the opcode when it is loaded. -/
theorem withPast_loadOf (past : List (Nat × Event)) (op : BitVec 3) (i : Instr) (s : State) :
    loadOf i (withPast past op s) = withPast past i.opcode (loadOf i s) := by
  cases i <;> simp [loadOf, loadFrameCommand, loadCommand, buildFrame, emit, withPast, payloadOf]

/-- Two opcodes the sequencer does not tell apart: equal, or SEND_PACKET's and then SEND_ALT_PACKET's. -/
def SameWalk (op op' : BitVec 3) : Prop := op' = op ∨ op = 4 ∧ op' = 5

theorem SameWalk.isBreakOp {op op' : BitVec 3} (h : SameWalk op op') : isBreakOp op' = isBreakOp op := by
  rcases h with rfl | ⟨rfl, rfl⟩ <;> rfl

theorem SameWalk.isPacketOp {op op' : BitVec 3} (h : SameWalk op op') : isPacketOp op' = isPacketOp op := by
  rcases h with rfl | ⟨rfl, rfl⟩ <;> rfl

/-- Two machines that agree but for their past and an opcode the sequencer does not tell apart. -/
inductive Twins (past past' : List (Nat × Event)) : State → State → Prop where
  | intro (s : State) {op op' : BitVec 3} (h : SameWalk op op') :
      Twins past past' (withPast past op s) (withPast past' op' s)

section
variable {past past' : List (Nat × Event)} {s u : State}

/-- An update that reads neither past nor opcode. -/
theorem Twins.map (h : Twins past past' s u) (f : State → State)
    (hf : ∀ p op x, f (withPast p op x) = withPast p op (f x)) : Twins past past' (f s) (f u) := by
  obtain ⟨r, h⟩ := h
  rw [hf, hf]
  exact .intro _ h

theorem Twins.cmd (h : Twins past past' s u) : u.cmd = s.cmd := by
  cases h; rfl

theorem Twins.offered (h : Twins past past' s u) : Twins past past' s.offered u.offered :=
  h.map State.offered withPast_offered

theorem Twins.takeAnswer (h : Twins past past' s u) (c : Params) (a : Answer) :
    Twins past past' (takeAnswer c a s) (takeAnswer c a u) :=
  h.map (Machine.takeAnswer c a) fun _ _ _ => withPast_takeAnswer ..

theorem Twins.accepted (h : Twins past past' s u) (i : Instr) :
    Twins past past' (gotoPhase (firstPhase i) (loadOf i s)) (gotoPhase (firstPhase i) (loadOf i u)) := by
  obtain ⟨r, h⟩ := h
  rw [withPast_loadOf, withPast_loadOf]
  exact .intro (gotoPhase (firstPhase i) (loadOf i r)) (.inl rfl)

theorem Twins.passCycle (h : Twins past past' s u) : Twins past past' (passCycle s) (passCycle u) :=
  h.map _ fun _ _ _ => rfl

/-! ### Their steps -/

theorem takeDescriptor_twins (h : Twins past past' s u) (d : Descriptor) (p : Option Phase) (n : Nat)
    {f : State → State} (hf : Twins past past' (f s) (f u)) :
    NextRelated (Twins past past') (takeDescriptor d p n f s) (takeDescriptor d p n f u) := by
  have awaits : Twins past past' (awaitPayload p d s) (awaitPayload p d u) :=
    h.map (awaitPayload p d) fun _ _ _ => by cases p <;> rfl
  have passes := h.passCycle
  have ready : u.acceptReady = s.acceptReady := by cases h; rfl
  have pay : u.pay = s.pay := by cases h; rfl
  unfold takeDescriptor
  rw [ready, pay]
  split
  · exact nextRelated_next hf
  · exact nextRelated_next awaits
  · exact nextRelated_next passes

theorem hostMove_twins (h : Twins past past' s u) : NextRelated (Twins past past') (hostMove s) (hostMove u) := by
  have presented := h.offered
  have cmd : u.offered.cmd = s.offered.cmd := presented.cmd
  cases hc : s.offered.cmd with
  | nil =>
    rw [hostMove_nothing hc, hostMove_nothing (cmd.trans hc)]
    exact nextRelated_next h.passCycle
  | cons d rest =>
    cases hd : decode d with
    | ok i =>
      rw [hostMove_command hc hd, hostMove_command (cmd.trans hc) hd, exec_eq, exec_eq]
      exact takeDescriptor_twins presented _ _ _ (presented.accepted i)
    | error e =>
      rw [hostMove_illegal hc hd, hostMove_illegal (cmd.trans hc) hd]
      exact takeDescriptor_twins presented _ _ _
        (presented.map (raiseIllegalCommand d) fun _ _ _ => withPast_raiseIllegalCommand ..)

theorem advance_twins (h : Twins past past' s u) : NextRelated (Twins past past') (advance s) (advance u) := by
  have goto (p : Phase) : Twins past past' (gotoPhase p s) (gotoPhase p u) := h.map _ fun _ _ _ => rfl
  have responds : Twins past past' (respond .ok s) (respond .ok u) :=
    h.map _ fun _ _ _ => withPast_respond ..
  have settles : Twins past past' (startSettle s) (startSettle u) := h.map _ withPast_startSettle
  obtain ⟨phase, breaks, packets⟩ : u.phase = s.phase ∧ isBreakOp u.op = isBreakOp s.op ∧
      isPacketOp u.op = isPacketOp s.op := by
    cases h with
    | intro r hw => exact ⟨rfl, hw.isBreakOp, hw.isPacketOp⟩
  intro t ht
  rcases advance_cases ht with ⟨p, rfl⟩ | ⟨p, hb, rfl⟩ | ⟨p, hb, hk, rfl⟩ | ⟨p, rfl⟩ | ⟨p, rfl⟩
  · exact ⟨_, advance_brkCfg (phase.trans p), goto _⟩
  · exact ⟨_, advance_brkWr_break (phase.trans p) (breaks.trans hb), responds⟩
  · exact ⟨_, advance_brkWr_packet (phase.trans p) (breaks.trans hb) (packets.trans hk), settles⟩
  · exact ⟨_, advance_dataCfg (phase.trans p), goto _⟩
  · exact ⟨_, advance_dataWr (phase.trans p), responds⟩

theorem answer_twins (c : Params) (h : Twins past past' s u) :
    NextRelated (Twins past past') (answer c s) (answer c u) := by
  have trsp : u.trsp = s.trsp := by cases h; rfl
  unfold answer
  rw [trsp]
  split
  · exact nextRelated_next h.passCycle
  · exact advance_twins (h.takeAnswer c .ok)
  · exact nextRelated_next ((h.takeAnswer c _).map (raiseTransportError _) fun _ _ _ => withPast_raiseTransportError ..)

theorem requestOf_twins (h : Twins past past' s u) {r : Request} (hr : requestOf s = .ok r) : requestOf u = .ok r := by
  rcases h with ⟨x, rfl | ⟨rfl, rfl⟩⟩ <;> exact hr

theorem issue_twins (c : Params) (h : Twins past past' s u) :
    NextRelated (Twins past past') (issue c s) (issue c u) := by
  intro t ht
  obtain ⟨r, hr, rfl⟩ := issue_cases ht
  exact ⟨_, issue_of_requestOf c (requestOf_twins h hr), h.map (sendRequest c r) fun _ _ _ => withPast_sendRequest ..⟩

theorem settleStep_twins (c : Params) (h : Twins past past' s u) :
    Twins past past' (settleStep c s) (settleStep c u) := by
  have ends : Twins past past' (endSettle s) (endSettle u) := h.map _ withPast_endSettle
  have tmr : u.tmr = s.tmr := by cases h; rfl
  unfold settleStep
  rw [tmr]
  split
  · exact ends
  · exact h.passCycle

theorem agentMove_twins (c : Params) (h : Twins past past' s u) :
    NextRelated (Twins past past') (agentMove c s) (agentMove c u) := by
  obtain ⟨phase, waitRsp, taking⟩ : u.phase = s.phase ∧ u.waitRsp = s.waitRsp ∧ u.taking = s.taking := by
    cases h; exact ⟨rfl, rfl, rfl⟩
  have same : hostTurn u = hostTurn s := by simp only [hostTurn, phase, waitRsp, taking]
  rcases agent_cases s with hp | hp | ⟨hp, hw⟩ | ⟨hp, hw, hk⟩
  · rw [agentMove_host c hp, agentMove_host c (same ▸ hp)]
    exact hostMove_twins h
  · rw [agentMove_settle c hp, agentMove_settle c (phase.trans hp)]
    exact nextRelated_next (settleStep_twins c h)
  · rw [agentMove_answer c hp hw, agentMove_answer c (phase ▸ hp) (waitRsp.trans hw)]
    exact answer_twins c h
  · rw [agentMove_issue c hp hw hk, agentMove_issue c (phase ▸ hp) (waitRsp.trans hw) (phase ▸ taking ▸ hk)]
    exact issue_twins c h

theorem takeTurn_twins (c : Params) (turn : Turn) (h : Twins past past' s u) :
    NextRelated (Twins past past') (takeTurn c turn s) (takeTurn c turn u) := by
  cases turn with
  | go => exact agentMove_twins c h
  | hold => exact nextRelated_next h.passCycle
  | rst => exact nextRelated_next (h.map _ withPast_resetPulse)
  | offer => exact nextRelated_next (h.map _ withPast_offerDescriptor)
  | takeByte => exact nextRelated_next (h.map (fun x => { x with line := x.line.takeByte }) fun _ _ _ => rfl)
  | startChar => exact nextRelated_next (h.map (fun x => { x with line := x.line.startChar x.now }) fun _ _ _ => rfl)
  | finishChar =>
    exact nextRelated_next (h.map (fun x => { x with line := x.line.finishChar c x.now }) fun _ _ _ => rfl)

theorem step_twins (h : Twins past past' s u) : NextRelated (Twins past past') (step s) (step u) := by
  have turn : nextTurn u = nextTurn s := by cases h; rfl
  rw [step, step, stepWith, stepWith, turn]
  exact takeTurn_twins _ _ (h.map dropTurn fun _ _ _ => rfl)

end

/-! ### The Accept and its wait -/

/-- LEN has 16 bits, so a longer length than fits is announced modulo 65,536. -/
theorem encode_eq_of_len_mod {i j : Instr} (hop : i.opcode = j.opcode) (hsc : i.startCode = j.startCode)
    (hlen : i.payloadLen % 65536 = j.payloadLen % 65536) : encode i = encode j := by
  apply BitVec.eq_of_toNat_eq
  simp only [encode, BitVec.toNat_ofNat, hop, hsc]
  omega

/-- A descriptor decodes to the command whose length it announces. -/
theorem decode_encode_of_len_mod (i : Instr) {j : Instr} (hj : j.wellFormed = true) (hop : i.opcode = j.opcode)
    (hsc : i.startCode = j.startCode) (hlen : i.payloadLen % 65536 = j.payloadLen) : decode (encode i) = .ok j := by
  rw [encode_eq_of_len_mod hop hsc (by rw [← hlen, Nat.mod_mod])]
  exact encodeThenDecodeGivesBack j hj

/-- The state in which the Accept of this command waits for its payload, these bytes taken so far. -/
def waitingFor (i : Instr) (got : List Byte) (s : State) : State :=
  { s with phase := .brkCfg, waitRsp := false, taking := some { desc := encode i, got := got } }

theorem hostTurn_waitingFor (i : Instr) (got : List Byte) (s : State) : hostTurn (waitingFor i got s) :=
  .inr ⟨.inl rfl, rfl, nofun⟩

theorem awaitPayload_eq_waitingFor {i : Instr} (hi : firstPhase i = .brkCfg) (s : State) :
    awaitPayload (some (firstPhase i)) (encode i) s =
      waitingFor i s.pay { passCycle s with cmd := s.cmd.tail, pay := [] } := by
  simp [awaitPayload, beginAccept, enterPhase, waitingFor, hi, passCycle]

theorem not_ready_waitingFor (i : Instr) (got : List Byte) (s : State) : (waitingFor i got s).acceptReady = false := rfl

theorem offered_waitingFor_cmd (i : Instr) (got : List Byte) (s : State) :
    (waitingFor i got s).offered.cmd = encode i :: s.cmd := rfl

/-- A reset ends the wait and leaves nothing of it (R246). -/
theorem resetPulse_waitingFor (i : Instr) (got : List Byte) (s : State) :
    resetPulse (waitingFor i got s) = resetPulse { s with waitRsp := false } := rfl

/-- A machine given SEND_PACKET and one given SEND_ALT_PACKET with start code 0: the `m` oldest entries of their traces
are the past in which alone they may differ. -/
inductive Paired (m : Nat) : State → State → Prop where
  | equal (s : State) : Paired m s s
  | waiting (s : State) (n : Nat) (got : List Byte) (hm : s.trace.length + 1 = m) :
      Paired m (waitingFor (.sendPacket n) got s) (waitingFor (.sendAltPacket n 0) got s)
  | twins {past past' : List (Nat × Event)} {s u : State} (h : Twins past past' s u) (hm : past.length = m)
      (hm' : past'.length = m) : Paired m s u

/-- What the two machines have in common. -/
theorem Paired.observed {m : Nat} {s u : State} (h : Paired m s u) :
    s.phase = u.phase ∧ s.now = u.now ∧ s.line = u.line ∧ s.trace.drop m = u.trace.drop m := by
  cases h with
  | equal | waiting => exact ⟨rfl, rfl, rfl, rfl⟩
  | twins h hm hm' =>
    obtain ⟨r, -⟩ := h
    exact ⟨rfl, rfl, rfl, by simp only [withPast, List.drop_left' hm, List.drop_left' hm']⟩

/-- Two states that differ in opcode and trace only are twins, with their traces so far as their pasts. -/
theorem twins_of_past {s u : State} (hu : u = { s with op := u.op, trace := u.trace }) (hop : SameWalk s.op u.op) :
    Twins s.trace u.trace s u := by
  have first : s = withPast s.trace s.op { s with trace := [] } := by simp [withPast]
  have second : u = withPast u.trace u.op { s with trace := [] } := by simpa [withPast] using hu
  have twins : Twins s.trace u.trace _ _ := .intro { s with trace := [] } hop
  rwa [← first, ← second] at twins

/-- The Accepts of the two commands: each takes a descriptor off CMD, and what stands behind it is the same. -/
theorem exec_paired {m : Nat} (n : Nat) {s : State} {ds : List Descriptor} (hr : s.acceptReady = true)
    (hm : s.trace.length + 1 = m) (hc : ds.tail = s.cmd.tail) :
    NextRelated (Paired m) (exec (.sendPacket n) s) (exec (.sendAltPacket n 0) { s with cmd := ds }) := by
  intro t ht
  rcases exec_cases ht with ⟨-, hn, rfl⟩ | ⟨-, hn, rfl⟩ | ⟨hf, -⟩
  · refine ⟨_, exec_accepted (.sendAltPacket n 0) _ hr hn, .twins (twins_of_past ?_ (.inr ⟨rfl, rfl⟩)) ?_ ?_⟩
    · simp [loadOf, loadFrameCommand, loadCommand, buildFrame, emit, gotoPhase, hc, Instr.payloadLen, Instr.startCode,
        firstPhase, payloadOf]
    · simp [hm]
    · simp [hm]
  · refine ⟨_, exec_awaits (.sendAltPacket n 0) _ hr hn, ?_⟩
    rw [awaitPayload_eq_waitingFor rfl, awaitPayload_eq_waitingFor rfl]
    simp only [hc]
    exact .waiting _ n s.pay hm
  · rw [hr] at hf; cases hf

/-- The host's move completes the waiting Accepts, or takes the bytes that are there. -/
theorem hostMove_waiting {m : Nat} (s : State) (n : Nat) (got : List Byte) (hm : s.trace.length + 1 = m) :
    NextRelated (Paired m) (hostMove (waitingFor (.sendPacket n) got s))
      (hostMove (waitingFor (.sendAltPacket n 0) got s)) := by
  have fits : n % 65536 ≤ maxLen := Nat.le_of_lt_succ (Nat.mod_lt n (by decide))
  have decoded := decode_encode_of_len_mod (.sendPacket n) (j := .sendPacket (n % 65536))
    (decide_eq_true fits) rfl rfl rfl
  have decoded' := decode_encode_of_len_mod (.sendAltPacket n 0) (j := .sendAltPacket (n % 65536) 0)
    (decide_eq_true fits) rfl rfl rfl
  rw [hostMove_command (offered_waitingFor_cmd ..) decoded, hostMove_command (offered_waitingFor_cmd ..) decoded']
  have behind : s.cmd = (waitingFor (.sendPacket n) got s).offered.cmd.tail := by
    rw [offered_waitingFor_cmd, List.tail_cons]
  exact exec_paired (s := (waitingFor (.sendPacket n) got s).offered) (ds := encode (.sendAltPacket n 0) :: s.cmd)
    (n % 65536) (offered_ready (hostTurn_waitingFor ..)) hm behind

theorem takeTurn_waiting (c : Params) (turn : Turn) {m : Nat} (s : State) (n : Nat) (got : List Byte)
    (hm : s.trace.length + 1 = m) :
    NextRelated (Paired m) (takeTurn c turn (waitingFor (.sendPacket n) got s))
      (takeTurn c turn (waitingFor (.sendAltPacket n 0) got s)) := by
  cases turn with
  | go =>
    rw [takeTurn, takeTurn, agentMove_host c (hostTurn_waitingFor ..), agentMove_host c (hostTurn_waitingFor ..)]
    exact hostMove_waiting s n got hm
  | hold => exact nextRelated_next (.waiting { s with now := s.now + 1 } n got hm)
  | rst =>
    rw [takeTurn, takeTurn, resetPulse_waitingFor, resetPulse_waitingFor]
    exact nextRelated_next (.equal _)
  | offer =>
    rw [takeTurn, takeTurn, offerDescriptor_of_not_ready (not_ready_waitingFor ..),
      offerDescriptor_of_not_ready (not_ready_waitingFor ..)]
    exact nextRelated_next (.waiting s n got hm)
  | takeByte => exact nextRelated_next (.waiting { s with line := s.line.takeByte } n got hm)
  | startChar => exact nextRelated_next (.waiting { s with line := s.line.startChar s.now } n got hm)
  | finishChar => exact nextRelated_next (.waiting { s with line := s.line.finishChar c s.now } n got hm)

theorem step_paired {m : Nat} {s u : State} (h : Paired m s u) : NextRelated (Paired m) (step s) (step u) := by
  cases h with
  | equal => exact fun t ht => ⟨t, ht, .equal t⟩
  | waiting s n got hm => exact takeTurn_waiting hardwired (nextTurn s) (dropTurn s) n got hm
  | twins h hm hm' => exact (step_twins h).mono fun _ _ k => .twins k hm hm'

/-- Settles O42: the two Accepts lead to paired machines, or change nothing, and every step keeps them paired. -/
theorem sendPacketEqualsAltPacketZero : Obligations.SendPacketEqualsAltPacketZero := by
  intro n k s t u t' ht hu hrun
  have accepts : NextRelated (Paired (s.trace.length + 1)) (exec (.sendPacket n) s) (exec (.sendAltPacket n 0) s) := by
    cases hr : s.acceptReady with
    | true => exact exec_paired (ds := s.cmd) n hr rfl rfl
    | false =>
      rw [exec_waits _ s hr, exec_waits _ s hr]
      exact nextRelated_next (.equal _)
  obtain ⟨_, hu', paired⟩ := accepts t ht
  cases hu.symm.trans hu'
  obtain ⟨u', hrun', h⟩ := run_related (fun _ _ => step_paired) k paired t' hrun
  exact ⟨u', hrun', h.observed⟩

end Sys2Proof.Safety
end

section
/-!
Characters on the line stay apart (TA3, R187). A character is begun only by `startChar` and ended only by `finishChar`;
every other operation of the transport leaves the wire as it is and the character in progress where it began, at most cut
now (`SameCharacters`). So the law of the line has three step lemmas: one for each of the two, one for all the rest.
-/
namespace Sys2Proof.Safety

open Sys2Proof.Machine

/-! ### What time does not undo -/

theorem charElapsed_later {c : Params} {p : SerialProfile} {start m n : Nat} (hmn : m ≤ n)
    (h : charElapsed c p start m = true) : charElapsed c p start n = true := by
  simp only [charElapsed, decide_eq_true_eq] at h ⊢
  exact h.trans (Nat.mul_le_mul_right _ (Nat.sub_le_sub_right hmn start))

theorem endedBy_later {c : Params} {x : SentChar} {m n : Nat} (hmn : m ≤ n) (h : endedBy c x m) : endedBy c x n :=
  ⟨h.1.trans hmn, fun p hp hk => charElapsed_later hmn (h.2 p hp hk)⟩

theorem timesInOrder_later {start m n : Nat} {cutAt : Option Nat} (hmn : m ≤ n) (h : timesInOrder start cutAt m) :
    timesInOrder start cutAt n :=
  ⟨h.1.trans hmn, fun k hk => ⟨(h.2 k hk).1, (h.2 k hk).2.trans hmn⟩⟩

/-! ### The operations that neither begin nor end a character -/

/-- What such an operation at cycle `now` leaves, `u`, of the line as it was before, `t`. -/
structure SameCharacters (now : Nat) (t u : Transport) : Prop where
  wire : u.wire = t.wire
  began : ∀ b, u.began = some b → ∃ b₀, t.began = some b₀ ∧ (b = b₀ ∨ b = { b₀ with cutAt := some now })

theorem sameCharacters_of_same {now : Nat} {t u : Transport} (hw : u.wire = t.wire) (hb : u.began = t.began) :
    SameCharacters now t u :=
  ⟨hw, fun b h => ⟨b, hb ▸ h, .inl rfl⟩⟩

theorem sameCharacters_refl (now : Nat) (t : Transport) : SameCharacters now t t := sameCharacters_of_same rfl rfl

/-- A cut leaves the character where it began. -/
theorem cutCharacter_began {c : Params} {now : Nat} {t : Transport} {b : Started}
    (h : t.cutCharacter c now = some b) :
    ∃ b₀, t.began = some b₀ ∧ (b = b₀ ∨ b = { b₀ with cutAt := some now }) := by
  unfold Transport.cutCharacter at h
  split at h
  next b₀ _ _ hb _ =>
    refine ⟨b₀, hb, ?_⟩
    split at h <;> cases h
    · exact .inl rfl
    · exact .inr rfl
  next => exact ⟨b, h, .inl rfl⟩

theorem sameCharacters_receive (c : Params) (now : Nat) (r : Request) (t : Transport) :
    SameCharacters now t (t.receive c now r) := by
  cases r with
  | wr bs => exact sameCharacters_of_same rfl rfl
  | cfg p =>
    rw [Transport.receive]
    cases hc : c.cfgApply with
    | drain => rw [t.configureArrives_of_drain hc]; exact sameCharacters_refl now t
    | unspecified => rw [t.configureArrives_of_unspecified hc]; exact sameCharacters_of_same rfl rfl
    | immediate => rw [t.configureArrives_of_immediate hc]; exact ⟨rfl, fun _ => cutCharacter_began⟩

theorem sameCharacters_configureAnswered (now : Nat) (c : Params) (p : SerialProfile) (a : Answer) (t : Transport) :
    SameCharacters now t (t.configureAnswered c p a) := by
  cases a with
  | err e => rw [t.configureAnswered_err]; exact sameCharacters_of_same rfl rfl
  | ok =>
    by_cases hc : c.cfgApply = .immediate
    · rw [t.configureAnswered_ok_of_immediate hc]; exact sameCharacters_of_same rfl rfl
    · rw [t.configureAnswered_ok hc]; exact sameCharacters_of_same rfl rfl

theorem sameCharacters_answered (now : Nat) (c : Params) (p : Phase) (a : Answer) (t : Transport) :
    SameCharacters now t (t.answered c p a) := by
  unfold Transport.answered
  split
  next prof _ => exact sameCharacters_configureAnswered now c prof a t
  next => cases a <;> exact sameCharacters_of_same rfl rfl

theorem sameCharacters_takeByte (now : Nat) (t : Transport) : SameCharacters now t t.takeByte := by
  unfold Transport.takeByte
  split
  next => exact sameCharacters_refl now t
  next => exact sameCharacters_of_same rfl rfl

/-! ### The law of the line, operation by operation -/

theorem advance_now {s t : State} (h : advance s = .next t) : t.now = s.now := by
  rcases advance_cases h with ⟨-, rfl⟩ | ⟨-, -, rfl⟩ | ⟨-, -, -, rfl⟩ | ⟨-, rfl⟩ | ⟨-, rfl⟩ <;> rfl

/-- Time passes, and the character in progress may be cut. -/
theorem LineInv.of_sameCharacters {c : Params} {s t : State} (h : LineInv c s)
    (hl : SameCharacters s.now s.line t.line) (hn : s.now ≤ t.now) : LineInv c t where
  no_overlap := hl.wire ▸ h.no_overlap
  all_ended x hx := by
    obtain ⟨ended, ordered⟩ := h.all_ended x (hl.wire ▸ hx)
    exact ⟨endedBy_later hn ended, ordered⟩
  in_progress b hb := by
    obtain ⟨b₀, hb₀, hcut⟩ := hl.began b hb
    obtain ⟨ordered, ended⟩ := h.in_progress b₀ hb₀
    rw [hl.wire]
    rcases hcut with rfl | rfl
    · exact ⟨timesInOrder_later hn ordered, ended⟩
    · refine ⟨⟨ordered.1.trans hn, fun m hm => ?_⟩, ended⟩
      cases hm
      exact ⟨ordered.1, hn⟩

/-- What is on the wire is over by now, when the next character begins. -/
theorem LineInv.of_startChar {c : Params} {s : State} (h : LineInv c s) :
    LineInv c { s with line := s.line.startChar s.now } := by
  unfold Transport.startChar
  split
  next =>
    refine ⟨h.no_overlap, h.all_ended, fun b hb => ?_⟩
    cases hb
    exact ⟨⟨le_rfl, nofun⟩, fun x hx => (h.all_ended x hx).1⟩
  next => exact h

/-- A character that may end has had its bit times, unless it was cut or is of no determined profile. -/
theorem endedBy_of_charMayEnd {c : Params} {q : QueuedByte} {b : Started} {now : Nat}
    (h : charMayEnd c q.prof b now = true) : endedBy c (q.sent b now) now := by
  refine ⟨le_rfl, fun p (hp : q.prof = some p) (hk : b.cutAt = none) => ?_⟩
  simp only [charMayEnd, hp, hk] at h
  exact h

/-- The character in progress began after all on the wire were over, and is over now. -/
theorem LineInv.of_finishChar {c : Params} {s : State} (h : LineInv c s) :
    LineInv c { s with line := s.line.finishChar c s.now } := by
  unfold Transport.finishChar
  split
  next b q qs hb _ =>
    split
    next hend =>
      obtain ⟨ordered, before⟩ := h.in_progress b hb
      refine ⟨List.pairwise_append.mpr ⟨h.no_overlap, List.pairwise_singleton _ _, fun x hx y hy => ?_⟩,
        fun x hx => ?_, nofun⟩
      · rw [List.mem_singleton.mp hy]
        exact before x hx
      · rcases List.mem_append.mp hx with hx | hx
        · exact h.all_ended x hx
        · rw [List.mem_singleton.mp hx]
          exact ⟨endedBy_of_charMayEnd hend, ordered⟩
    next => exact h
  next => exact h

/-- Everything a step can do keeps characters apart. -/
theorem LineInv.of_stepTo {c : Params} {s t : State} (h : LineInv c s) (ht : StepTo c s t) : LineInv c t := by
  cases ht with
  | passes | accepts | refuses | awaits | awaitsIllegal | settles | offers =>
    exact h.of_sameCharacters (by simpa using sameCharacters_refl s.now s.line) (by simp)
  | issues r => exact h.of_sameCharacters (sameCharacters_receive c s.now r s.line) le_rfl
  | advances _ _ _ _ _ ha =>
    refine h.of_sameCharacters ?_ (advance_now ha).ge
    rw [advance_line ha]
    exact sameCharacters_answered s.now c s.phase .ok s.line
  | aborts e => exact h.of_sameCharacters (sameCharacters_answered s.now c s.phase (.err e) s.line) le_rfl
  | resets => exact h.of_sameCharacters (sameCharacters_of_same rfl rfl) (Nat.le_succ _)
  | takes => exact h.of_sameCharacters (sameCharacters_takeByte s.now s.line) le_rfl
  | starts => exact h.of_startChar
  | finishes => exact h.of_finishChar

/-- Settles O36, by the cases of one step. -/
theorem stepKeepsCharactersApart : Obligations.StepKeepsCharactersApart := by
  intro c s t h ht
  have hd : LineInv c (dropTurn s) := ⟨h.no_overlap, h.all_ended, h.in_progress⟩
  exact hd.of_stepTo (stepWith_cases ht)

end Sys2Proof.Safety
end

section
/-!
The times of the two profiles and of their characters (R184, R185, R190, R191, R193), as numbers. Later proofs about the
line cite these and unfold no profile.
-/
namespace Sys2Proof.Machine

/-! ### Bit times -/

theorem bitTimeNs_breakProfile : bitTimeNs breakProfile = 10 ^ 9 / 57600 := rfl

theorem bitTimeNs_dataProfile : bitTimeNs dataProfile = 4000 := by
  norm_num [bitTimeNs, bitsPerSecond, dataProfile]

/-- Settles O49: the bit time by definition, the two numbers by arithmetic. -/
theorem bitTimes : Obligations.BitTimes := by
  refine ⟨fun _ => rfl, bitTimeNs_breakProfile, ?_, ?_, bitTimeNs_dataProfile⟩ <;>
    rw [bitTimeNs_breakProfile] <;> norm_num

/-! ### The break character -/

theorem charLevels_break : charLevels breakProfile breakByte = List.replicate 8 .low ++ [.high] := by decide

theorem lowNs_break : lowNs breakProfile breakByte = 8 * (10 ^ 9 / 57600) := by
  rw [lowNs, lowBits, charLevels_break, bitTimeNs_breakProfile]
  rfl

theorem stopNs_breakProfile : stopNs breakProfile = 10 ^ 9 / 57600 := by
  rw [stopNs, bitTimeNs_breakProfile, show stopBitCount breakProfile = 1 from rfl, Nat.cast_one, one_mul]

theorem charNs_breakProfile : charNs breakProfile = 156250 := by
  rw [charNs, bitTimeNs_breakProfile, show charBits breakProfile = 9 from rfl]
  norm_num

/-- Settles O50, by the framing of the byte 0x00. -/
theorem breakCharacterOnTheLine : Obligations.BreakCharacterOnTheLine :=
  ⟨charLevels_break, lowNs_break, stopNs_breakProfile, charNs_breakProfile⟩

/-! ### A data character -/

theorem charNs_dataProfile : charNs dataProfile = 44000 := by
  rw [charNs, bitTimeNs_dataProfile, show charBits dataProfile = 11 from rfl]
  norm_num

/-- Settles O51: the framing of DATA_PROFILE has the same shape for every byte. -/
theorem dataCharacterOnTheLine : Obligations.DataCharacterOnTheLine := by
  refine ⟨fun _ => rfl, rfl, charNs_dataProfile, ?_⟩
  rw [charNs_dataProfile]
  norm_num

/-! ### A packet -/

theorem packetNs_eq (n : Nat) : packetNs n = 156250 + 44000 * n := by
  rw [packetNs, charNs_breakProfile, charNs_dataProfile, mul_comm]

/-- Settles O52, from the times of the two characters. -/
theorem packetTimesOnTheLine : Obligations.PacketTimesOnTheLine := by
  have settle : (hardwired.settleNs : Rat) = 136000 := by norm_num [hardwired]
  have low : lowNs breakProfile 0x00 = 8 * (10 ^ 9 / 57600) := lowNs_break
  refine ⟨meetsMinimums_iff, ?_, ?_, ?_, ?_, packetNs_eq, ?_, ?_⟩
  · rw [meetsMinimums_iff, low, stopNs_breakProfile]
    norm_num
  · rw [settle, minBreakNs]
    norm_num
  · rw [settle, low]
    norm_num
  · rw [low, charNs_breakProfile]
    norm_num
  · rw [packetNs_eq]
    norm_num
  · rw [packetNs_eq]
    norm_num

end Sys2Proof.Machine
end

section
/-!
The line at a time (R182, R183, R187, R189, R194). At any time so far either a character stands on the line, which then
has the level of the bit whose time it is (`lineLevel_bit`), or none does and the line is high (`lineLevel_idle`); what is
said of breaks, packets and cuts is read off these two and the order of the characters (`InTurn`).
-/
namespace Sys2Proof.Safety

open Sys2Proof.Machine

/-! ### A character and its bit times -/

/-- The converse of `charElapsed_time`: a character whose duration has passed may end. -/
theorem charElapsed_of_time {c : Params} {p : SerialProfile} {t now : Nat} (hf : 0 < c.fClk)
    (hr : 0 < bitsPerSecond p) (h : timeNs c t + charNs p ≤ timeNs c now) : charElapsed c p t now = true := by
  have hf' : (0 : Rat) < c.fClk := by exact_mod_cast hf
  have hr' : (0 : Rat) < bitsPerSecond p := by exact_mod_cast hr
  have cycles : charBits p * c.fClk + t * bitsPerSecond p ≤ now * bitsPerSecond p := by
    unfold timeNs charNs bitTimeNs at h
    field_simp at h
    have h' : t * bitsPerSecond p + c.fClk * charBits p ≤ bitsPerSecond p * now := by exact_mod_cast h
    linarith
  rw [charElapsed, decide_eq_true_iff, Nat.sub_mul]
  exact Nat.le_sub_of_add_le cycles

/-- A character that no configure cuts is over after its bit times (TA3). -/
theorem charEndNs_of_uncut {c : Params} {x : SentChar} {p : SerialProfile} (hp : x.prof = some p)
    (hk : x.cutAt = none) : charEndNs c x = timeNs c x.start + charNs p := by
  simp only [charEndNs, hp, hk]

/-- A character that a configure cuts is over when the transport is done with it (R189). -/
theorem charEndNs_of_cut {c : Params} {x : SentChar} {m : Nat} (hk : x.cutAt = some m) :
    charEndNs c x = timeNs c x.ended := by
  cases hp : x.prof <;> simp only [charEndNs, hp, hk]

/-- A time in the first `n` bit times lies in one of them. -/
theorem exists_bitTime {p : SerialProfile} (hr : 0 < bitsPerSecond p) {t u : Rat} {n : Nat} (h1 : t ≤ u)
    (h2 : u < t + n * bitTimeNs p) :
    ∃ k < n, t + k * bitTimeNs p ≤ u ∧ u < t + (k + 1) * bitTimeNs p := by
  have hb : 0 < bitTimeNs p := div_pos (by norm_num) (by exact_mod_cast hr)
  have lower := Nat.floor_le (div_nonneg (sub_nonneg.mpr h1) hb.le)
  have upper := Nat.lt_floor_add_one ((u - t) / bitTimeNs p)
  rw [le_div_iff₀ hb] at lower
  rw [div_lt_iff₀ hb] at upper
  refine ⟨⌊(u - t) / bitTimeNs p⌋₊, ?_, by linarith, by linarith⟩
  rw [Nat.floor_lt' (by rintro rfl; simp at h2; linarith), div_lt_iff₀ hb]
  linarith

/-! ### The order of the characters -/

theorem inTurn_sublist {c : Params} {t : Rat} {xs ys : List SentChar} (hs : xs.Sublist ys) (h : InTurn c t ys) :
    InTurn c t xs :=
  ⟨fun x hx => h.from_start x (hs.subset hx), h.one_by_one.sublist hs, fun x hx => h.in_order x (hs.subset hx)⟩

/-- What comes after a character comes after its end. -/
theorem inTurn_after {c : Params} {t : Rat} {l r : List SentChar} {x : SentChar} (h : InTurn c t (l ++ x :: r)) :
    InTurn c (charEndNs c x) r := by
  induction l generalizing t with
  | nil => exact h.tail
  | cons a l ih => exact ih h.tail

/-- Between two characters that follow one another no character is on the line. -/
theorem inTurn_between {c : Params} (hf : 0 < c.fClk) {t u : Rat} {l r : List SentChar} {x y : SentChar}
    (h : InTurn c t (l ++ x :: y :: r)) (h1 : charEndNs c x ≤ u) (h2 : u < timeNs c y.start) :
    ∀ w ∈ l ++ x :: y :: r, u < timeNs c w.start ∨ charEndNs c w ≤ u := by
  have hx : x ∈ l ++ x :: y :: r := by simp
  have hy := (inTurn_after h).in_order y (by simp)
  intro w hw
  rcases List.mem_append.mp hw with hw | hw
  · have before : charEndNs c w ≤ timeNs c x.start := (List.pairwise_append.mp h.one_by_one).2.2 w hw x (by simp)
    exact .inr (before.trans ((start_le_charEnd hf (h.in_order x hx)).trans h1))
  · rcases List.mem_cons.mp hw with rfl | hw
    · exact .inr h1
    · rcases List.mem_cons.mp hw with rfl | hw
      · exact .inl h2
      · have after : charEndNs c y ≤ timeNs c w.start := (inTurn_after h).tail.from_start w hw
        exact .inl (h2.trans_le ((start_le_charEnd hf hy).trans after))

/-- `n` uncut data characters one after the other last at least 44,000 ns each (R190). -/
theorem inTurn_dataChars {c : Params} {t : Rat} {ws : List SentChar} {z : SentChar} (h : InTurn c t ws)
    (hd : ∀ w ∈ ws, w.prof = some dataProfile ∧ w.cutAt = none) (hz : ws.getLast? = some z) :
    t + 44000 * ws.length ≤ timeNs c z.start + 44000 := by
  induction ws generalizing t with
  | nil => cases hz
  | cons w ws ih =>
    have first := h.from_start w (by simp)
    cases ws with
    | nil =>
      cases hz
      simpa using first
    | cons w' ws =>
      obtain ⟨hp, hk⟩ := hd w (by simp)
      have rest := ih h.tail (fun v hv => hd v (List.mem_cons_of_mem w hv)) (by simpa using hz)
      rw [charEndNs_of_uncut hp hk, charNs_dataProfile] at rest
      rw [List.length_cons, Nat.cast_succ]
      linarith

/-! ### The characters of a state -/

theorem wire_prefix_charsOf (s : State) : s.line.wire <+: charsOf s := by
  unfold charsOf Transport.characters
  split
  · exact List.prefix_append _ _
  · exact List.prefix_refl _

theorem mem_charsOf {s : State} {x : SentChar} (hx : x ∈ charsOf s) :
    x ∈ s.line.wire ∨ ∃ b q, s.line.began = some b ∧ q ∈ s.line.txq ∧ x = q.sent b s.now := by
  unfold charsOf Transport.characters at hx
  split at hx
  next b q qs hb hq =>
    rcases List.mem_append.mp hx with hx | hx
    · exact .inl hx
    · exact .inr ⟨b, q, hb, by simp [hq], List.mem_singleton.mp hx⟩
  next => exact .inl hx

section
variable {c : Params} {s : State} {x : SentChar} {u : Rat}

theorem LineInv.wire_inTurn (hf : 0 < c.fClk) (h : LineInv c s) : InTurn c 0 s.line.wire :=
  inTurn_sublist (wire_prefix_charsOf s).sublist (lineInv_inTurn hf h)

/-- The transport is not done with a character later than now. -/
theorem LineInv.ended_le_now (h : LineInv c s) (hx : x ∈ charsOf s) : x.ended ≤ s.now := by
  rcases mem_charsOf hx with hx | ⟨b, q, -, -, rfl⟩
  · exact (h.all_ended x hx).1.1
  · exact le_rfl

/-- A cut comes before the transport is done with the character. -/
theorem LineInv.cut_le_ended (hf : 0 < c.fClk) (h : LineInv c s) (hx : x ∈ charsOf s) {m : Nat}
    (hm : x.cutAt = some m) : x.start ≤ m ∧ m ≤ x.ended :=
  ((lineInv_inTurn hf h).in_order x hx).2 m hm

/-- No character begins later than now. -/
theorem LineInv.start_le_now (hf : 0 < c.fClk) (h : LineInv c s) (hx : x ∈ charsOf s) :
    timeNs c x.start ≤ timeNs c s.now :=
  timeNs_mono hf (((lineInv_inTurn hf h).in_order x hx).1.trans (h.ended_le_now hx))

/-- A draining transport cuts no character, and each goes out at one of the two profiles. -/
theorem DeterminedInv.of_charsOf (h : DeterminedInv s) (hx : x ∈ charsOf s) :
    isWriteProfile x.prof ∧ x.cutAt = none := by
  rcases mem_charsOf hx with hx | ⟨b, q, hb, hq, rfl⟩
  · exact h.sent x hx
  · exact ⟨h.queued q hq, h.uncut b hb⟩

/-! ### The level of the line -/

/-- While no character is on the line it is high (R182, TA2). -/
theorem lineLevel_idle (hf : 0 < c.fClk) (h : LineInv c s) (h0 : 0 ≤ u) (hn : u < timeNs c s.now)
    (hx : ∀ x ∈ charsOf s, u < timeNs c x.start ∨ charEndNs c x ≤ u) : lineLevel c s u = some .high := by
  unfold lineLevel Transport.waveform
  rw [levelAt_cutOff hn]
  exact levelAt_lineFrom_idle hf (lineInv_inTurn hf h) h0 hn hx

/-- From the end of a completed character to the start of the next the line is high. -/
theorem lineLevel_gap (hf : 0 < c.fClk) (h : LineInv c s) {l r : List SentChar} {y : SentChar}
    (hw : s.line.wire = l ++ x :: y :: r) (h1 : charEndNs c x ≤ u) (h2 : u < timeNs c y.start) :
    lineLevel c s u = some .high := by
  obtain ⟨rest, hrest⟩ := wire_prefix_charsOf s
  have chars : charsOf s = l ++ x :: y :: (r ++ rest) := by simp [← hrest, hw]
  have order := lineInv_inTurn hf h
  have past : timeNs c y.start ≤ timeNs c s.now := h.start_le_now hf (by simp [chars])
  have begun : timeNs c x.start ≤ charEndNs c x := start_le_charEnd hf (order.in_order x (by simp [chars]))
  refine lineLevel_idle hf h (((timeNs_nonneg c x.start).trans begun).trans h1) (h2.trans_le past) ?_
  rw [chars] at order ⊢
  exact inTurn_between hf order h1 h2

/-- In the `k`-th bit time of a character the line has the level of its `k`-th bit, up to a cut (R183). -/
theorem lineLevel_bit (hf : 0 < c.fClk) (h : LineInv c s) (hx : x ∈ charsOf s) {p : SerialProfile}
    (hp : x.prof = some p) {k : Nat} {l : Level} (hl : (charLevels p x.byte)[k]? = some l)
    (h1 : timeNs c x.start + k * bitTimeNs p ≤ u) (h2 : u < timeNs c x.start + (k + 1) * bitTimeNs p)
    (hn : u < timeNs c s.now) (hcut : ∀ m, x.cutAt = some m → u < timeNs c m) : lineLevel c s u = some l := by
  have hb := bitTimeNs_nonneg p
  have begun : timeNs c x.start ≤ u := (le_add_of_nonneg_right (by positivity)).trans h1
  have notOver : u < charEndNs c x := by
    cases hk : x.cutAt with
    | none =>
      have bits : ((k + 1 : Nat) : Rat) ≤ charBits p := by
        obtain ⟨hk, -⟩ := List.getElem?_eq_some_iff.mp hl
        exact_mod_cast charLevels_length p x.byte ▸ hk
      have upTo : ((k : Rat) + 1) * bitTimeNs p ≤ charNs p :=
        mul_le_mul_of_nonneg_right (by exact_mod_cast bits) hb
      rw [charEndNs_of_uncut hp hk]
      linarith
    | some m =>
      rw [charEndNs_of_cut hk]
      exact (hcut m hk).trans_le (timeNs_mono hf (h.cut_le_ended hf hx hk).2)
  rw [lineLevel_char hf h hx begun notOver hn]
  exact levelAt_charWave hp hl h1 h2 hcut

/-- The break: eight bit times low from the start bit on, up to a cut (R185). -/
theorem lineLevel_break_low (hf : 0 < c.fClk) (h : LineInv c s) (hx : x ∈ charsOf s)
    (hp : x.prof = some breakProfile) (hb : x.byte = breakByte) (h1 : timeNs c x.start ≤ u)
    (h2 : u < timeNs c x.start + 8 * bitTimeNs breakProfile) (hn : u < timeNs c s.now)
    (hcut : ∀ m, x.cutAt = some m → u < timeNs c m) : lineLevel c s u = some .low := by
  obtain ⟨k, hk, hu⟩ := exists_bitTime (p := breakProfile) (n := 8) (by decide) h1 (by exact_mod_cast h2)
  refine lineLevel_bit hf h hx hp (k := k) ?_ hu.1 hu.2 hn hcut
  rw [hb, charLevels_break, List.getElem?_append_left (by simpa using hk), List.getElem?_replicate_of_lt hk]

/-- The break's stop bit is high, if no configure cuts it (R185). -/
theorem lineLevel_break_high (hf : 0 < c.fClk) (h : LineInv c s) (hx : x ∈ charsOf s)
    (hp : x.prof = some breakProfile) (hb : x.byte = breakByte)
    (h1 : timeNs c x.start + 8 * bitTimeNs breakProfile ≤ u) (h2 : u < timeNs c x.start + 156250)
    (hn : u < timeNs c s.now) (hk : x.cutAt = none) : lineLevel c s u = some .high := by
  have nine : (156250 : Rat) = (8 + 1) * bitTimeNs breakProfile := by
    rw [bitTimeNs_breakProfile]
    norm_num
  have bit : (charLevels breakProfile x.byte)[8]? = some .high := by
    rw [hb, charLevels_break]
    rfl
  exact lineLevel_bit hf h hx hp bit (by exact_mod_cast h1) (by exact_mod_cast nine ▸ h2) hn
    (by simp [hk])

/-- A character that no configure cuts has a level at every time of it. -/
theorem lineLevel_known (hf : 0 < c.fClk) (h : LineInv c s) (hx : x ∈ charsOf s) {p : SerialProfile}
    (hp : x.prof = some p) (hr : 0 < bitsPerSecond p) (hk : x.cutAt = none) (h1 : timeNs c x.start ≤ u)
    (h2 : u < charEndNs c x) (hn : u < timeNs c s.now) : ∃ l, lineLevel c s u = some l := by
  rw [charEndNs_of_uncut hp hk, charNs] at h2
  obtain ⟨k, hkn, hu⟩ := exists_bitTime hr h1 h2
  have bit := List.getElem?_eq_getElem (charLevels_length p x.byte ▸ hkn)
  exact ⟨_, lineLevel_bit hf h hx hp bit hu.1 hu.2 hn (by simp [hk])⟩

/-- Nothing on the line begins after a break before the break's 156,250 ns have passed (R187). -/
theorem LineInv.after_break (hf : 0 < c.fClk) (h : LineInv c s) {l r : List SentChar}
    (hw : s.line.wire = l ++ x :: r) (hp : x.prof = some breakProfile) (hk : x.cutAt = none) :
    InTurn c (timeNs c x.start + 156250) r := by
  rw [← charNs_breakProfile, ← charEndNs_of_uncut hp hk]
  exact inTurn_after (hw ▸ h.wire_inTurn hf)

end

theorem bitsPerSecond_pos_of_isWriteProfile {prof : Option SerialProfile} (h : isWriteProfile prof) :
    ∃ p, prof = some p ∧ 0 < bitsPerSecond p := by
  rcases h with h | h
  · exact ⟨breakProfile, h, by decide⟩
  · exact ⟨dataProfile, h, by decide⟩

/-! ### The statements -/

/-- Settles O53: the cycle condition both ways, and the order of the characters after a break. -/
theorem elapsedCharacterHasLastedItsTime : Obligations.ElapsedCharacterHasLastedItsTime :=
  ⟨fun _ _ _ _ hf hr => ⟨charElapsed_time hf, charElapsed_of_time hf hr⟩,
    fun _ _ _ y _ _ _ hf h hw hp hk => (h.after_break hf hw hp hk).from_start y (by simp)⟩

/-- Settles O55, by the line's rest level. -/
theorem idleLineIsHigh : Obligations.IdleLineIsHigh := fun _ _ _ hf h h0 hn hx => lineLevel_idle hf h h0 hn hx

/-- Settles O56, by the level of the line in a bit time. -/
theorem characterLevelsOnTheLine : Obligations.CharacterLevelsOnTheLine :=
  fun _ _ _ _ _ _ _ hf h hx hp _ hl h1 h2 hn hcut => lineLevel_bit hf h hx hp hl h1 h2 hn hcut

/-- Settles O54: at any time a character is on the line, and then one of its bits, or none is. -/
theorem determinedLineHasAWaveform : Obligations.DeterminedLineHasAWaveform := by
  intro c s hf hd h
  refine ⟨fun u h0 hn => ?_, fun x u hx hp hb => ?_⟩
  · by_cases on : ∃ x ∈ charsOf s, timeNs c x.start ≤ u ∧ u < charEndNs c x
    · obtain ⟨x, hx, h1, h2⟩ := on
      obtain ⟨hw, hk⟩ := hd.of_charsOf hx
      obtain ⟨p, hp, hr⟩ := bitsPerSecond_pos_of_isWriteProfile hw
      exact lineLevel_known hf h hx hp hr hk h1 h2 hn
    · push Not at on
      exact ⟨.high, lineLevel_idle hf h h0 hn fun x hx => (lt_or_ge u (timeNs c x.start)).imp_right (on x hx)⟩
  · have hc := (wire_prefix_charsOf s).subset hx
    have hk := (hd.sent x hx).2
    have complete : timeNs c x.start + 156250 ≤ timeNs c s.now := by
      rw [← charNs_breakProfile]
      exact charElapsed_time hf ((h.all_ended x hx).1.2 breakProfile hp hk)
    have low_in_break : 8 * bitTimeNs breakProfile < 156250 := by
      rw [bitTimeNs_breakProfile]
      norm_num
    exact ⟨fun h1 h2 => lineLevel_break_low hf h hc hp hb h1 h2 (by linarith) (by simp [hk]),
      fun h1 h2 => lineLevel_break_high hf h hc hp hb h1 h2 (by linarith) hk⟩

/-- Settles O57: the break's bits and then the rest level up to the first data character; and the data characters one
after the other. -/
theorem packetOnTheLine : Obligations.PacketOnTheLine := by
  intro c s before after zs x y z hf h hw hp hb hk hd hz
  have behind := h.after_break hf hw hp hk
  have hx : x ∈ charsOf s := (wire_prefix_charsOf s).subset (by simp [hw])
  have hy : y ∈ charsOf s := (wire_prefix_charsOf s).subset (by simp [hw])
  have first : timeNs c x.start + 156250 ≤ timeNs c y.start := behind.from_start y (by simp)
  have past : timeNs c y.start ≤ timeNs c s.now := h.start_le_now hf hy
  have low : ∀ u, timeNs c x.start ≤ u → u < timeNs c x.start + 8 * (10 ^ 9 / 57600) →
      lineLevel c s u = some .low := fun u h1 h2 =>
    lineLevel_break_low hf h hx hp hb h1 h2 (by linarith) (by simp [hk])
  have high : ∀ u, timeNs c x.start + 8 * (10 ^ 9 / 57600) ≤ u → u < timeNs c y.start →
      lineLevel c s u = some .high := fun u h1 h2 => by
    rcases lt_or_ge u (timeNs c x.start + 156250) with stop | gap
    · exact lineLevel_break_high hf h hx hp hb h1 stop (h2.trans_le past) hk
    · exact lineLevel_gap hf h hw (by rwa [charEndNs_of_uncut hp hk, charNs_breakProfile]) h2
  refine ⟨low, high, first, wireContract_of_levels low high (by linarith) (by linarith), ?_⟩
  rw [packetNs_eq, ← add_assoc]
  exact inTurn_dataChars (inTurn_sublist (List.sublist_append_left _ _) behind) hd hz

/-- Settles O58: SETTLE_CYCLES last at least SETTLE_NS, so the cut comes later; and from the cut on nothing is known. -/
theorem cutBreakHasBeenLow : Obligations.CutBreakHasBeenLow := by
  intro c s x m u hf h hx hp hb hm
  obtain ⟨hstart, hended⟩ := h.cut_le_ended hf hx hm
  have cut_le_now : timeNs c m ≤ timeNs c s.now := timeNs_mono hf (hended.trans (h.ended_le_now hx))
  refine ⟨fun hs h1 h2 h3 => ?_, fun h1 h2 => ?_⟩
  · have settled : timeNs c x.start + c.settleNs ≤ timeNs c m :=
      calc timeNs c x.start + c.settleNs
        _ ≤ timeNs c x.start + timeNs c (settleCycles c) := by
          gcongr
          exact (settleCyclesCoverTheSettleDuration c hf).1
        _ = timeNs c (x.start + settleCycles c) := by simp [timeNs, add_mul, add_div]
        _ ≤ timeNs c m := timeNs_mono hf hs
    refine lineLevel_break_low hf h hx hp hb h1 h3 (by linarith) fun k hk => ?_
    cases hm.symm.trans hk
    exact h2.trans_le settled
  · rw [lineLevel_char hf h hx ((timeNs_mono hf hstart).trans h1) (charEndNs_of_cut hm ▸ h2)
      (h2.trans_le (timeNs_mono hf (h.ended_le_now hx)))]
    exact levelAt_charWave_cut hm h1

end Sys2Proof.Safety
end

section
/-!
The error paths: the abort of a command by the transport's error answer (R206), and what a command has done when its
first error ends it (R207, R143). A run has the events of its pseudocode (R169), so the latter is shown of the pseudocode,
part by part.
-/
namespace Sys2Proof.Safety

open Sys2Proof.Machine

/-! ### The abort (R206) -/

/-- The whole state after the answer `a` and the abort with `e`. -/
theorem raiseTransportError_takeAnswer (c : Params) (e : TransportError) (a : Answer) (s : State) :
    raiseTransportError e (takeAnswer c a s) =
      { s with
        waitRsp := false, phase := .idle, trsp := s.trsp.tail, line := s.line.answered c s.phase a,
        trace := s.trace ++ [(s.now, answerEvent s.phase a), (s.now, .resp (.err e))] } := by
  simp [raiseTransportError, takeAnswer, respond, gotoPhase, emit]

/-- Settles O20: a step that takes an error answer is the abort, and the response word's fields are the error's. -/
theorem errorAnswerAborts : Obligations.ErrorAnswerAborts := by
  intro s e rest hp hw hgo hr
  refine ⟨?_, rfl, rfl⟩
  rw [step_takes_err hgo hp hw hr, raiseTransportError_takeAnswer, dropTurn_trsp, hr]
  rfl

/-! ### The first error in the pseudocode (R207) -/

@[simp] theorem treqOf_answerEvent (p : Phase) (a : Answer) : treqOf (answerEvent p a) = none := by cases p <;> rfl

@[simp] theorem treqOf_request (r : Request) : treqOf r.event = some r.header := by cases r <;> rfl

@[simp] theorem rspOf_request (r : Request) : rspOf r.event = none := by cases r <;> rfl

@[simp] theorem treqOf_resp (r : Response) : treqOf (.resp r) = none := rfl
@[simp] theorem treqOf_accept (d : Descriptor) (bs : List Byte) : treqOf (.accept d bs) = none := rfl
@[simp] theorem rspOf_accept (d : Descriptor) (bs : List Byte) : rspOf (.accept d bs) = none := rfl
@[simp] theorem tdatOf_accept (d : Descriptor) (bs : List Byte) : tdatOf (.accept d bs) = [] := rfl

/-- The answers of a transport whose first error is `e`, after `j` answers `ok`. -/
def firstError (j : Nat) (e : TransportError) (rest : List Answer) : List Answer :=
  List.replicate j .ok ++ .err e :: rest

/-- The events of a command that fails with `e` in its transaction `j + 1`: that many requests, each of them answered,
and the one response is the error. -/
structure FailsAfter (j : Nat) (e : TransportError) (es : List Event) : Prop where
  requests : (es.filterMap treqOf).length = j + 1
  responses : es.filterMap rspOf = [.err e]
  answers : answersTaken es = j + 1

/-- A part of the pseudocode that makes at least `n` transactions ends with the first of these to fail. -/
def EndsAtFirstError (n : Nat) (f : List Answer → List Event) : Prop :=
  ∀ j e rest, j < n → FailsAfter j e (f (firstError j e rest))

section
variable {n : Nat} {f : List Answer → List Event}

theorem endsAtFirstError_zero (f : List Answer → List Event) : EndsAtFirstError 0 f := nofun

/-- A transaction that fails is the last; one that succeeds adds its request and its answer to what follows. -/
theorem endsAtFirstError_transaction (r : Request) (p : Phase) (h : EndsAtFirstError n f) :
    EndsAtFirstError (n + 1) (transaction r.event (answerEvent p) f) := by
  rintro (_ | j) e rest hj
  · have events : transaction r.event (answerEvent p) f (firstError 0 e rest) =
        [r.event, answerEvent p (.err e), .resp (.err e)] := rfl
    rw [events]
    exact ⟨by simp, by simp, by simp⟩
  · obtain ⟨requests, responses, answers⟩ := h j e rest (Nat.lt_of_succ_lt_succ hj)
    have events : transaction r.event (answerEvent p) f (firstError (j + 1) e rest) =
        r.event :: answerEvent p .ok :: f (firstError j e rest) := rfl
    rw [events]
    exact ⟨by simp [requests], by simp [responses], by simp [answers]⟩

/-- The settle wait makes no request and does not respond. -/
theorem endsAtFirstError_settle (h : EndsAtFirstError n f) : EndsAtFirstError n (settleEvents f) := by
  intro j e rest hj
  obtain ⟨requests, responses, answers⟩ := h j e rest hj
  exact ⟨requests, responses, answers⟩

theorem endsAtFirstError_break (h : EndsAtFirstError n f) : EndsAtFirstError (n + 2) (sendBreakEvents f) :=
  endsAtFirstError_transaction (.cfg breakProfile) .brkCfg (endsAtFirstError_transaction (.wr [breakByte]) .brkWr h)

theorem endsAtFirstError_rawData (bs : List Byte) : EndsAtFirstError 2 (sendRawDataEvents bs respondOk) :=
  endsAtFirstError_transaction (.cfg dataProfile) .dataCfg
    (endsAtFirstError_transaction (.wr bs) .dataWr (endsAtFirstError_zero respondOk))

theorem endsAtFirstError_rawPacket (bs : List Byte) : EndsAtFirstError 4 (sendRawPacketEvents bs) :=
  endsAtFirstError_break (endsAtFirstError_settle (endsAtFirstError_rawData bs))

theorem endsAtFirstError_command (i : Instr) (payload : List Byte) :
    EndsAtFirstError (transactionCount i) (commandEvents i payload) := by
  cases i with
  | sendBreak => exact endsAtFirstError_break (endsAtFirstError_zero respondOk)
  | sendRawData _ => exact endsAtFirstError_rawData payload
  | sendRawPacket _ => exact endsAtFirstError_rawPacket payload
  | sendPacket _ => exact endsAtFirstError_rawPacket _
  | sendAltPacket _ _ => exact endsAtFirstError_rawPacket _

end

/-! ### What an early error leaves out (R207, R143) -/

/-- A command with more than two transactions is a packet. -/
theorem commandEvents_of_packet {i : Instr} (hi : 2 < transactionCount i) (payload : List Byte) :
    ∃ data, commandEvents i payload = sendRawPacketEvents data := by
  cases i with
  | sendBreak | sendRawData _ => exact absurd hi (Nat.lt_irrefl 2)
  | sendRawPacket _ | sendPacket _ | sendAltPacket _ _ => exact ⟨_, rfl⟩

/-- An error of the break phase starts no settle wait. -/
theorem sendRawPacketEvents_of_break_error (data : List Byte) {j : Nat} (hj : j < 2) (e : TransportError)
    (rest : List Answer) : (sendRawPacketEvents data (firstError j e rest)).count .settleStart = 0 := by
  match j, hj with
  | 0, _ => rfl
  | 1, _ => rfl

/-- A command whose first configure fails hands no byte over. -/
theorem commandEvents_of_first_error (i : Instr) (payload : List Byte) (e : TransportError) (rest : List Answer) :
    (commandEvents i payload (firstError 0 e rest)).flatMap tdatOf = [] := by
  cases i <;> rfl

/-- A packet whose data configure fails has handed over its break byte alone. -/
theorem sendRawPacketEvents_of_data_configure_error (data : List Byte) (e : TransportError) (rest : List Answer) :
    (sendRawPacketEvents data (firstError 2 e rest)).flatMap tdatOf = [breakByte] := rfl

/-! ### The run -/

/-- An error among the first `n` answers makes them suffice for `n` transactions. -/
theorem suffice_firstError {n j : Nat} (hj : j < n) (e : TransportError) (rest : List Answer) :
    Suffice n (firstError j e rest) := by
  induction n generalizing j with
  | zero => cases hj
  | succ n ih =>
    cases j with
    | zero => trivial
    | succ j => exact ih (Nat.lt_of_succ_lt_succ hj)

theorem drop_firstError (j : Nat) (e : TransportError) (rest : List Answer) :
    (firstError j e rest).drop (j + 1) = rest := by
  simp [firstError, List.drop_append]

/-- Settles O41: the run has the events of the pseudocode, which ends with the first error. -/
theorem firstErrorEndsTheCommand : Obligations.FirstErrorEndsTheCommand := by
  intro i s j e rest hi hr hs hn hj (htrsp : s.trsp = firstError j e rest)
  obtain ⟨t, ht, same, accepted, hend⟩ := accepted_endsWith hi hr hs hn (htrsp ▸ suffice_firstError hj e rest)
  rw [htrsp] at same hend
  obtain ⟨k, u, hu, hp, -, htaken, hev⟩ := hend.run
  obtain ⟨requests, responses, answers⟩ := endsAtFirstError_command i (s.pay.take i.payloadLen) j e rest hj
  rw [accepted, List.append_assoc, List.singleton_append] at hev
  have bytes : tdatMessages u = tdatMessages s ++
      (commandEvents i (s.pay.take i.payloadLen) (firstError j e rest)).flatMap tdatOf := by
    simp [tdatMessages, hev]
  refine ⟨t, ht, k, u, hu, hp, ?_, ?_, ?_, fun inBreak packet => ?_, ?_, ?_⟩
  · rw [htaken, same, answers, drop_firstError]
  · simp [treqMessages, hev, requests, List.filterMap_cons]
  · simp [hev, responses, List.filterMap_cons]
  · have long : 2 < transactionCount i := by
      obtain ⟨n, rfl | rfl | ⟨sc, rfl⟩⟩ := packet <;> simp [transactionCount]
    obtain ⟨data, events⟩ := commandEvents_of_packet long (s.pay.take i.payloadLen)
    rw [hev, events, List.count_append, List.count_cons_of_ne (by simp),
      sendRawPacketEvents_of_break_error data inBreak, Nat.add_zero]
  · rintro rfl
    rw [bytes, commandEvents_of_first_error, List.append_nil]
  · rintro rfl
    obtain ⟨data, events⟩ := commandEvents_of_packet hj (s.pay.take i.payloadLen)
    rw [bytes, events, sendRawPacketEvents_of_data_configure_error]
    rfl

end Sys2Proof.Safety
end

section
/-!
A command in progress waits without bound (R101, R246): for an answer that the transport does not give, or for the rest of
a payload that the host does not supply. Either wait is an invariant of the steps without reset, and neither adds an event.
-/
namespace Sys2Proof.Safety

open Sys2Proof.Machine

/-- A request is out and no answer is to come. -/
def AwaitsAnswer (s : State) : Prop := isTransportPhase s.phase = true ∧ s.waitRsp = true ∧ s.trsp = []

/-- The Accept of a legal command waits in a phase that some command begins with, not necessarily its own, and the bytes
taken and supplied are fewer than it announces. -/
def AwaitsBytes (s : State) : Prop :=
  (s.phase = .brkCfg ∨ s.phase = .dataCfg) ∧ s.waitRsp = false ∧ ∃ x i, s.taking = some x ∧
    decode x.desc = .ok i ∧ x.got.length + s.pay.length < x.desc.len.toNat

/-- DMXTX can do nothing before its environment does its part. -/
def Starved (s : State) : Prop := AwaitsAnswer s ∨ AwaitsBytes s

/-- The outcome is a state that starves too, with no new event. -/
def StaysStarved (s : State) (o : StepResult) : Prop := ∃ t, o = .next t ∧ Starved t ∧ t.events = s.events

theorem Starved.busy {s : State} (h : Starved s) : s.busy = true := by
  rw [busy_iff]
  intro idle
  rcases h with ⟨hp, -, -⟩ | ⟨hp, -, -⟩ <;> simp [idle, isTransportPhase] at hp

theorem Starved.acceptReady {s : State} (h : Starved s) : s.acceptReady = false := by
  simp [State.acceptReady, State.cmdReady, h.busy]

/-- An update of nothing that a wait depends on. -/
theorem Starved.of_same {s : State} (h : Starved s) (t : State)
    (ht : t = { s with tmr := t.tmr, sched := t.sched, now := t.now, line := t.line }) :
    StaysStarved s (.next t) := by
  refine ⟨t, rfl, ?_, ?_⟩ <;> rw [ht]
  · exact h
  · rfl

/-- Without an answer the transport's move only lets a cycle pass. -/
theorem AwaitsAnswer.go_stays {s : State} (h : AwaitsAnswer s) (hgo : nextTurn s = .go) : StaysStarved s (step s) := by
  have ⟨hp, hw, silent⟩ := h
  have passes : step s = .next (passCycle (dropTurn s)) := by
    rw [step_go hgo, agentMove_answer hardwired (s := dropTurn s) hp hw, answer, dropTurn_trsp, silent]
  rw [passes]
  exact Starved.of_same (.inl h) _ rfl

/-- The host's move takes the bytes that are there, and the Accept waits on, now in its own command's first phase. -/
theorem AwaitsBytes.go_stays {s : State} (h : AwaitsBytes s) (hgo : nextTurn s = .go) : StaysStarved s (step s) := by
  obtain ⟨hp, hw, x, i, hx, hd, short⟩ := h
  have lacking : (x.got ++ s.pay).length < i.payloadLen := by
    rw [decode_payloadLen hd, List.length_append]
    exact short
  rw [stepRunsPresentedCommand.2 s x i hp hw hx hd hgo,
    exec_awaits i _ ((acceptReady_iff _).mpr ⟨rfl, rfl⟩) lacking, encode_of_decode hd]
  refine ⟨_, rfl, .inr ⟨firstPhase_cases i, rfl, _, i, awaitPayload_taking .., hd, ?_⟩, awaitPayload_events ..⟩
  simpa [decode_payloadLen hd] using lacking

theorem Starved.step_stays {s : State} (h : Starved s) (hr : nextTurn s ≠ .rst) : StaysStarved s (step s) := by
  cases ht : nextTurn s with
  | go => exact h.elim (·.go_stays ht) (·.go_stays ht)
  | rst => exact absurd ht hr
  | offer =>
    rw [step, stepWith, ht, takeTurn, offerDescriptor_of_not_ready (s := dropTurn s) h.acceptReady]
    exact h.of_same _ rfl
  | hold | takeByte | startChar | finishChar =>
    rw [step, stepWith, ht]
    exact h.of_same _ rfl

/-- No number of steps ends either wait. -/
theorem Starved.run_stays (k : Nat) {s : State} (h : Starved s) (hr : noReset s.sched = true) :
    StaysStarved s (run k s) := by
  induction k generalizing s with
  | zero => exact ⟨s, rfl, h, rfl⟩
  | succ k ih =>
    obtain ⟨t, ht, starved, same⟩ := h.step_stays (nextTurn_ne_rst hr)
    obtain ⟨u, hu, starved', same'⟩ := ih starved (step_noReset hr ht).2
    exact ⟨u, (run_step ht).trans hu, starved', same'.trans same⟩

/-- At the host's turn a command whose payload is short leaves CMD, and its Accept waits. -/
theorem step_begins_wait {s : State} {d : Descriptor} {rest : List Descriptor} {i : Instr} (hr : s.acceptReady = true)
    (hgo : nextTurn s = .go) (hc : s.cmd = d :: rest) (hd : decode d = .ok i) (hn : s.pay.length < d.len.toNat) :
    step s = .next (awaitPayload (some (firstPhase i)) d (dropTurn s)) := by
  rw [stepRunsPresentedCommand.1 s d rest i hr hc hd hgo]
  refine (exec_awaits i (dropTurn s) hr ?_).trans ?_
  · rw [decode_payloadLen hd]
    exact hn
  · rw [encode_of_decode hd]

/-- Settles O24: both waits are kept by every step but a reset, and a short payload leads into the second. -/
theorem noTimeoutIsImposed : Obligations.NoTimeoutIsImposed := by
  refine ⟨fun k s (h : Starved s) => ⟨fun hr => ?_, fun hrst => ⟨_, step_rst hrst, rfl, rfl⟩⟩,
    fun s d rest i hr hgo hc hd hn => ?_⟩
  · obtain ⟨t, ht, starved, same⟩ := h.run_stays k hr
    exact ⟨t, ht, starved.busy, same⟩
  · rw [step_begins_wait hr hgo hc hd hn, awaitPayload_of_idle (s := dropTurn s) ((acceptReady_iff s).mp hr).1,
      firstPhase_eq, (decode_opcode_startCode hd).1]
    simp [enterPhase, dropTurn, hc]

end Sys2Proof.Safety
end

section
/-!
A reset turn (R230 to R232): whatever the state, the step is the reset pulse, whose event puts nothing on RSP, TREQ or TDAT.
-/
namespace Sys2Proof.Safety

open Sys2Proof.Machine

@[simp] theorem rspOf_reset : rspOf .reset = none := rfl
@[simp] theorem treqOf_reset : treqOf .reset = none := rfl
@[simp] theorem tdatOf_reset : tdatOf .reset = [] := rfl

theorem resetPulse_responses (s : State) : (resetPulse s).events.filterMap rspOf = s.events.filterMap rspOf := by simp

theorem resetPulse_treqMessages (s : State) : treqMessages (resetPulse s) = treqMessages s := by simp [treqMessages]

theorem resetPulse_tdatMessages (s : State) : tdatMessages (resetPulse s) = tdatMessages s := by simp [tdatMessages]

/-- Settles O28: each field of the reset pulse, and what its one event adds to the output channels. -/
theorem resetAbandonsTheCommand : Obligations.ResetAbandonsTheCommand := by
  intro s ts hs
  have sched : (resetPulse (dropTurn s)).sched = ts := by simp [hs]
  exact ⟨_, step_rst (by rw [hs]; rfl), rfl, rfl, rfl, rfl, rfl, rfl, rfl, rfl, sched, resetPulse_events _,
    resetPulse_responses _, resetPulse_treqMessages _, resetPulse_tdatMessages _, rfl, rfl, rfl, rfl, rfl, rfl, rfl⟩

end Sys2Proof.Safety
end
